-- ==== Sys2Proof/Word.lean ====
section
/-! DEFINITION. The word types of the CRE (00_scope.md R7, R8; 40_sequence_generator.md R120). -/

namespace Sys2Proof

/-- A byte of the host window or of a buffer. -/
abbrev Byte := BitVec 8

/-- A 32-bit control register or command word (R7, R90). -/
abbrev Word := BitVec 32

/-- A binary64 bit pattern: a parameter register, a SEQ_BUF entry, an element (R7, R120). -/
abbrev F64 := BitVec 64

end Sys2Proof
end

