-- ==== Sys2Proof/Syntax.lean ====
section
/-! DEFINITION. The commands of the CRE, one constructor per row of spec/opcode_table.json (30_encoding.md R93). -/

namespace Sys2Proof

/-- A command word's meaning as syntax (R93). The length operand is an unsigned integer (R92); that it fits the
24-bit LEN field is checked in `Instr.wf`. -/
inductive Instr where
  /-- NOP, OPC 0x00 (R190). -/
  | nop
  /-- GEN_SEQ n, OPC 0x01 (R133). -/
  | genSeq (n : Nat)
  /-- DERIVE_KEY size, OPC 0x02 (R163). -/
  | deriveKey (size : Nat)
  /-- CLR_STATUS, OPC 0x03 (R191). -/
  | clrStatus
  /-- SOFT_RESET, OPC 0x04 (R192). -/
  | softReset
deriving DecidableEq, Repr

end Sys2Proof
end

