-- ==== Sys2Proof/WellFormed.lean ====
section
/-! DEFINITION. Which commands the 32-bit command word can express (30_encoding.md R91, R92, R98). -/

namespace Sys2Proof

/-- The length operand fits the 24-bit LEN field: "0 to 16 777 215" (R92); a larger one "is an assembly error" (R98).
The depth limits are no part of this: a length above the depth is a well-formed command that is rejected with LEN_RANGE
(R95). -/
def lenFits (len : Nat) : Bool := len < 2 ^ 24

/-- A command that a command word can carry (R91, R98). -/
def Instr.wf : Instr → Bool
  | .nop => true
  | .genSeq n => lenFits n
  | .deriveKey size => lenFits size
  | .clrStatus => true
  | .softReset => true

end Sys2Proof
end

