-- ==== Sys2Proof/Decode.lean ====
section
/-! DEFINITION. The decoder of command words and the encoder (30_encoding.md R90 to R94, R98). -/

namespace Sys2Proof

/-- Why bytes are no command, by name. -/
inductive DecodeError where
  /-- Fewer than the four bytes of a command word (R90: "always reads exactly one 32-bit word"). -/
  | truncated
  /-- OPC 0x05 to 0xFF (R94). -/
  | reservedOpc (opc : Byte)
  /-- NOP, CLR_STATUS or SOFT_RESET with LEN != 0 (R93: "must be 0"; R95). -/
  | reservedLen (opc : Byte) (len : Nat)
deriving DecidableEq, Repr

/-- OPC = word[7:0] (R91). -/
def opcField (word : Word) : Byte := word.extractLsb' 0 8

/-- LEN = word[31:8] as an unsigned integer, "not scaled or shifted" (R91, R92). -/
def lenField (word : Word) : Nat := (word.extractLsb' 8 24).toNat

/-- A command whose LEN must be 0 (R93). -/
def decodeNoLen (word : Word) (i : Instr) : Except DecodeError Instr :=
  if lenField word = 0 then .ok i else .error (.reservedLen (opcField word) (lenField word))

/-- The command a 32-bit word stands for, or why it stands for none (R93, R94). -/
def decodeWord (word : Word) : Except DecodeError Instr :=
  if opcField word = 0x00#8 then decodeNoLen word .nop
  else if opcField word = 0x01#8 then .ok (.genSeq (lenField word))
  else if opcField word = 0x02#8 then .ok (.deriveKey (lenField word))
  else if opcField word = 0x03#8 then decodeNoLen word .clrStatus
  else if opcField word = 0x04#8 then decodeNoLen word .softReset
  else .error (.reservedOpc (opcField word))

/-- The 32-bit word of four bytes in arrival order: "byte at 0x00010 is `word[7:0]`" (R90, R64). -/
def wordOfBytes (b0 b1 b2 b3 : Byte) : Word := b3 ++ b2 ++ b1 ++ b0

/-- Decoding of a byte stream: one command and the bytes after it, or a rejection by name (R90). -/
def decode : List Byte → Except DecodeError (Instr × List Byte)
  | b0 :: b1 :: b2 :: b3 :: rest => (decodeWord (wordOfBytes b0 b1 b2 b3)).map (fun i => (i, rest))
  | _ => .error .truncated

/-- `word = (len << 8) | OPC` (R98); of a length that does not fit, the low 24 bits. -/
def commandWord (opc : Byte) (len : Nat) : Word := BitVec.ofNat 24 len ++ opc

/-- The command word of a command, from the encoding table (R93, R98). -/
def encodeWord : Instr → Word
  | .nop => commandWord 0x00#8 0
  | .genSeq n => commandWord 0x01#8 n
  | .deriveKey size => commandWord 0x02#8 size
  | .clrStatus => commandWord 0x03#8 0
  | .softReset => commandWord 0x04#8 0

/-- The four bytes of a word, least significant first (R90, R64). -/
def bytesOfWord (word : Word) : List Byte :=
  [word.extractLsb' 0 8, word.extractLsb' 8 8, word.extractLsb' 16 8, word.extractLsb' 24 8]

/-- The bytes of a command, in arrival order (R90, R98). -/
def encode (i : Instr) : List Byte := bytesOfWord (encodeWord i)

/-- The 32-bit command word whose low `nbits` bits are `w` and whose other bits are 0 (log 16). -/
def tableWord (nbits w : Nat) : Word := BitVec.ofNat 32 (w % 2 ^ nbits)

/-- What the decoder reads from the word `w` of `nbits` bits laid out in arrival order, the bits above `nbits` being 0
(log 16). -/
def decodeTableWord (nbits w : Nat) : Option Instr :=
  match decode (bytesOfWord (tableWord nbits w)) with
  | .ok (i, _) => some i
  | .error _ => none

end Sys2Proof
end

