-- ==== Sys2Proof/Machine/Float.lean ====
section
/-! DEFINITION. IEEE 754 binary64 arithmetic as the CRE uses it (40_sequence_generator.md R120 to R124; 00_scope.md R10).
Every finite binary64 number is an integer multiple of 2^-1074, so a finite value is a sign and a number of such UNITS;
each operation computes its exact result as a fraction of units and rounds it once (log 14). -/

namespace Sys2Proof.Machine

/-- What a 64-bit pattern stands for (R120). -/
inductive FVal where
  | nan
  /-- An infinity; `neg` is its sign. -/
  | inf (neg : Bool)
  /-- The number `(-1)^neg * units * 2^-1074`, a zero keeping its sign. -/
  | fin (neg : Bool) (units : Nat)
deriving DecidableEq, Repr

/-- Sign, `v[63]` (R120). -/
def fSign (v : F64) : Bool := v.getLsbD 63

/-- Biased exponent, `v[62:52]` (R120). -/
def fExp (v : F64) : Nat := (v.extractLsb' 52 11).toNat

/-- Fraction, `v[51:0]` (R120). -/
def fFrac (v : F64) : Nat := (v.extractLsb' 0 52).toNat

/-- The reading of a pattern (R120): infinity, NaN, zero or subnormal `f * 2^-1074`, else `(2^52 + f) * 2^(e - 1075)`. -/
def classify (v : F64) : FVal :=
  if fExp v = 0x7FF then (if fFrac v = 0 then .inf (fSign v) else .nan)
  else if fExp v = 0 then .fin (fSign v) (fFrac v)
  else .fin (fSign v) ((2 ^ 52 + fFrac v) * 2 ^ (fExp v - 1))

/-- `isNaN(v)`: `v[62:52] = 0x7FF` and `v[51:0] != 0` (R10). -/
def isNaN (v : F64) : Bool := fExp v = 0x7FF && fFrac v ≠ 0

/-- CNAN, the canonical NaN (R10, R122). -/
def cnan : F64 := 0x7FF8000000000000#64

/-- The literals of the pseudocode (R10). -/
def fZero : F64 := 0x0000000000000000#64
/-- 0.5 (R10). -/
def fHalf : F64 := 0x3FE0000000000000#64
/-- 1.0 (R10). -/
def fOne : F64 := 0x3FF0000000000000#64
/-- 256.0 (R10). -/
def f256 : F64 := 0x4070000000000000#64

/-- How many units make 1.0: 2^1074 (R120). -/
def unitsPerOne : Nat := 2 ^ 1074

/-- The low 63 bits of an infinity (R120). -/
def infMag : Nat := 0x7FF0000000000000

/-- A pattern from its sign and its low 63 bits (R120). -/
def packSigned (neg : Bool) (mag : Nat) : F64 := BitVec.ofNat 64 ((if neg then 2 ^ 63 else 0) + mag)

/-- The signed number of units of a finite value. -/
def signedUnits (neg : Bool) (units : Nat) : Int := if neg then -(units : Int) else units

/-- The exponent `k` of the spacing 2^k (in units) of the binary64 numbers around a value whose integer part is `whole`
units: 53 significant bits, and never finer than one unit (gradual underflow, R121). -/
def quantumExp (whole : Nat) : Nat := Nat.log2 whole - 52

/-- `num / den` rounded to the nearest integer, ties to even (R121). -/
def roundNearestEven (num den : Nat) : Nat :=
  if den < 2 * (num % den) ∨ (2 * (num % den) = den ∧ num / den % 2 = 1) then num / den + 1 else num / den

/-- The low 63 bits of the exact value `num / den` units rounded once to binary64 (R121). With the spacing 2^k and the
rounded multiple `sig` of it, `k * 2^52 + sig` is the pattern of a subnormal, of a normal number and of a carry into the next
exponent alike; what reaches 2^1024 becomes an infinity. -/
def roundMag (num den : Nat) : Nat :=
  min (quantumExp (num / den) * 2 ^ 52 + roundNearestEven num (den * 2 ^ quantumExp (num / den))) infMag

/-- `fadd(a, b)` (R121, R122). An exact zero sum is -0.0 only when both operands are negative zeros. -/
def fadd (a b : F64) : F64 :=
  match classify a, classify b with
  | .nan, _ => cnan
  | .inf _, .nan => cnan
  | .fin _ _, .nan => cnan
  | .inf s, .inf t => if s = t then packSigned s infMag else cnan
  | .inf s, .fin _ _ => packSigned s infMag
  | .fin _ _, .inf t => packSigned t infMag
  | .fin s m, .fin t n =>
    if signedUnits s m + signedUnits t n = 0 then packSigned (s && t) 0
    else packSigned (decide (signedUnits s m + signedUnits t n < 0))
      (roundMag (signedUnits s m + signedUnits t n).natAbs 1)

/-- A pattern with its sign bit inverted. -/
def fneg (v : F64) : F64 := v ^^^ 0x8000000000000000#64

/-- `fsub(a, b)`: the sum of `a` and `b` negated (R121, R122). -/
def fsub (a b : F64) : F64 := fadd a (fneg b)

/-- `fmul(a, b)` (R121, R122). -/
def fmul (a b : F64) : F64 :=
  match classify a, classify b with
  | .nan, _ => cnan
  | .inf _, .nan => cnan
  | .fin _ _, .nan => cnan
  | .inf s, .inf t => packSigned (s != t) infMag
  | .inf s, .fin t n => if n = 0 then cnan else packSigned (s != t) infMag
  | .fin s m, .inf t => if m = 0 then cnan else packSigned (s != t) infMag
  | .fin s m, .fin t n => packSigned (s != t) (roundMag (m * n) unitsPerOne)

/-- `fdiv(a, b)` (R121, R122). -/
def fdiv (a b : F64) : F64 :=
  match classify a, classify b with
  | .nan, _ => cnan
  | .inf _, .nan => cnan
  | .fin _ _, .nan => cnan
  | .inf _, .inf _ => cnan
  | .inf s, .fin t _ => packSigned (s != t) infMag
  | .fin s _, .inf t => packSigned (s != t) 0
  | .fin s m, .fin t n =>
    if n = 0 then (if m = 0 then cnan else packSigned (s != t) infMag)
    else packSigned (s != t) (roundMag (m * unitsPerOne) n)

/-- Where a value stands in the real order, in units; an infinity lies beyond every finite value, a NaN nowhere (R123). -/
def orderKey (v : F64) : Option Int :=
  match classify v with
  | .nan => none
  | .inf s => some (signedUnits s (2 ^ 2098))
  | .fin s m => some (signedUnits s m)

/-- `fle(a, b)`: both not NaN and `a <= b` (R123). -/
def fle (a b : F64) : Bool :=
  match orderKey a, orderKey b with
  | some x, some y => decide (x ≤ y)
  | some _, none => false
  | none, _ => false

/-- `fge(a, b)`: both not NaN and `a >= b` (R123). -/
def fge (a b : F64) : Bool :=
  match orderKey a, orderKey b with
  | some x, some y => decide (y ≤ x)
  | some _, none => false
  | none, _ => false

/-- `f64(k)`: a non-negative integer as a binary64 number (R124). -/
def f64 (k : Nat) : F64 := packSigned false (roundMag (k * unitsPerOne) 1)

end Sys2Proof.Machine
end

