-- ==== Sys2Proof/Config.lean ====
section
/-! DEFINITION. What an instance of the CRE fixes (the OPEN parameters of 00_scope.md R7) and the values the
spec leaves free (93_implementation_defined.md section 2). Every constant here is opaque, with no body: nothing in Lean
can evaluate one, so a proved statement holds for every choice. -/

namespace Sys2Proof.Config

/-- Which of the legal values 1..8192 the parameter SEQ_DEPTH takes (R7, R22; log 4). -/
opaque seqDepthIndex : Fin 8192

/-- The parameter SEQ_DEPTH: "integer 1 to 8192 (OPEN)" (R7; log 4). -/
def seqDepth : Nat := seqDepthIndex.val + 1

/-- Which of the legal values 1..65536 the parameter KEY_DEPTH takes (R7, R23; log 4). -/
opaque keyDepthIndex : Fin 65536

/-- The parameter KEY_DEPTH: "integer 1 to 65536 (OPEN)" (R7; log 4). -/
def keyDepth : Nat := keyDepthIndex.val + 1

/-- Which multiple of 0x40000 the parameter CRE_BASE is (R7; log 10). -/
opaque creBaseIndex : Nat

/-- The parameter CRE_BASE: "any multiple of 0x40000 (OPEN, platform)" (R7; log 10). -/
def creBase : Nat := 0x40000 * creBaseIndex

/-- FREE VALUE: the byte at a buffer's window offset that nothing has written since the hardware reset numbered
`epoch` (R38, R39: "a free draw"; log 5). -/
opaque bufferPowerUp (epoch offset : Nat) : Byte

/-- FREE VALUE: whether ENG.op is KEY (else GEN) after the hardware reset numbered `epoch` (R40; log 6). -/
opaque engPowerUpKey (epoch : Nat) : Bool

/-- FREE VALUE: ENG.n after a hardware reset, in its range 0..131072 (R40; log 6). -/
opaque engPowerUpN (epoch : Nat) : Fin 131073

/-- FREE VALUE: ENG.size after a hardware reset, in its range 0..65536 (R40; log 6). -/
opaque engPowerUpSize (epoch : Nat) : Fin 65537

/-- FREE VALUE: ENG.s after a hardware reset (R40; log 6). -/
opaque engPowerUpS (epoch : Nat) : F64

/-- FREE VALUE: ENG.r after a hardware reset (R40; log 6). -/
opaque engPowerUpR (epoch : Nat) : F64

/-- FREE VALUE: ENG.x0 after a hardware reset (R40; log 6). -/
opaque engPowerUpX0 (epoch : Nat) : F64

/-- FREE VALUE: ENG.p after a hardware reset (R40; log 6). -/
opaque engPowerUpP (epoch : Nat) : F64

/-- FREE VALUE: ENG.q after a hardware reset (R40; log 6). -/
opaque engPowerUpQ (epoch : Nat) : F64

/-- FREE VALUE: whether entry `index` of the output range of the abandoned operation numbered `draw` holds the
value the operation computes (true) or the one from before it (false) (R193: "a model must treat each such entry as
either"; log 7). -/
opaque abandonedTakesNew (draw index : Nat) : Bool

end Sys2Proof.Config
end

