-- ==== Sys2Proof/Machine/State.lean ====
section
/-! DEFINITION. The state of the CRE (10_state.md R20 to R45), what can happen at it next, the reasons it can stop, and
the state after hardware reset (70_reset_and_hazards.md R240). -/

namespace Sys2Proof.Machine

/-- Why the model stops. No command ends here: every command has a next state in every state. -/
inductive Fault where
  /-- Raised by a host access at an offset outside the window 0x00000..0x2FFFF, which "is not decoded by the CRE and is
  the platform's business" (20_memory.md R60; log 9). Safe: the model says nothing where the platform acts. -/
  | outsideWindow
deriving DecidableEq, Repr

/-- Why the model has no meaning. -/
inductive Refusal where
  /-- Raised by an arm of exec for a command that has no meaning yet (none of this model's). Safe: no claim covers it. -/
  | notModelled (mnemonic : String)
deriving DecidableEq, Repr

/-- CTRL's two writable bits (R24); bits 31:2 are not storage. -/
structure Ctrl where
  /-- Bit 0, IE_DONE. -/
  ieDone : Bool
  /-- Bit 1, IE_ERR. -/
  ieErr : Bool
deriving DecidableEq, Repr

/-- The codes STATUS.ERR can hold (60_exceptions.md R211); codes 5 to 15 are never written. -/
inductive ErrCode where
  /-- Code 0, NONE. -/
  | noError
  /-- Code 1, ILLEGAL_CMD (R212). -/
  | illegalCmd
  /-- Code 2, LEN_RANGE (R213). -/
  | lenRange
  /-- Code 3, BUSY_WRITE (R214). -/
  | busyWrite
  /-- Code 4, BUS (R215). -/
  | bus
deriving DecidableEq, Repr

/-- The stored fields of STATUS; BUSY and IRQ are derived (R26 to R31). -/
structure Status where
  /-- Bit 1, DONE (R27). -/
  done : Bool
  /-- Bits 7:4, ERR (R28). -/
  err : ErrCode
  /-- Bit 8, NAN (R29). -/
  nan : Bool
  /-- Bit 9, CLAMP (R30). -/
  clamp : Bool
deriving DecidableEq, Repr

/-- The source's ChaosParams, as binary64 patterns (R34 to R37; R11). -/
structure Params where
  r : F64
  x0 : F64
  p : F64
  q : F64
deriving DecidableEq, Repr

/-- ENG.phase (R40). -/
inductive Phase where
  | idle
  | run
deriving DecidableEq, Repr

/-- ENG.op (R40). -/
inductive EngOp where
  /-- GEN: a GEN_SEQ is running. -/
  | gen
  /-- KEY: a DERIVE_KEY is running. -/
  | key
deriving DecidableEq, Repr

/-- The hidden engine state ENG (R40, R41). -/
structure Eng where
  phase : Phase
  op : EngOp
  /-- Sequence length of the running operation. -/
  n : Nat
  /-- Key size for KEY; 0 for GEN. -/
  size : Nat
  /-- The element produced by the previous engine step. -/
  s : F64
  /-- ENG.r, ENG.x0, ENG.p, ENG.q: the parameters latched at acceptance. -/
  lat : Params
deriving DecidableEq, Repr

/-- The bytes of SEQ_BUF and KEY_BUF written since hardware reset, by window offset, offsets strictly rising. An unlisted
offset has no byte of its own: it reads as the free draw of R38 and R39 (log 5, log 8). -/
abbrev Memory := List Host.Cell

/-- The canonical form of a memory (log 8). -/
abbrev Memory.wf (m : Memory) : Prop := m.Pairwise (fun a b => a.1 < b.1)

/-- An access width: `w` in {1, 2, 4, 8} bytes (R60). -/
inductive Width where
  | w1
  | w2
  | w4
  | w8
deriving DecidableEq, Repr

/-- The response code of a host access (R60). -/
inductive Resp where
  | okay
  | error
deriving DecidableEq, Repr

/-- What the port answers to a host access (R60, R67). -/
inductive Response where
  /-- A read returns `(resp, data)`; data above the access width is 0. -/
  | read (resp : Resp) (data : BitVec 64)
  /-- A write returns `resp`. -/
  | write (resp : Resp)
deriving DecidableEq, Repr

/-- One atomic event of the total order of R74. -/
inductive Event where
  /-- `MemRead(off, w)` (R60). -/
  | read (off : Nat) (w : Width)
  /-- `MemWrite(off, w, data)`; of `data` the low `8*w` bits count (R60; log 22). -/
  | write (off : Nat) (w : Width) (data : BitVec 64)
  /-- The engine's turn: one engine step while RUN (R134, R164), nothing while IDLE (R230; log 18). -/
  | engineTurn
  /-- The reset input (R240; log 11). -/
  | hardReset
deriving DecidableEq, Repr

/-- The state of the CRE (R20) and, after `mem`, the model's own fields. -/
structure State where
  /-- Register SEQ_DEPTH, a constant of the instance (R22; log 4). -/
  seqDepth : Nat
  /-- Register KEY_DEPTH, a constant of the instance (R23; log 4). -/
  keyDepth : Nat
  /-- Register CTRL (R24). -/
  ctrl : Ctrl
  /-- Register STATUS (R26 to R32). -/
  status : Status
  /-- Register PROG, the engine's position (R33, R44; log 15). -/
  prog : Nat
  /-- Registers PARAM_R, PARAM_X0, PARAM_P, PARAM_Q (R34 to R37). -/
  params : Params
  /-- The hidden engine state (R40). -/
  eng : Eng
  /-- SEQ_BUF and KEY_BUF (R38, R39). -/
  mem : Memory
  /-- The model's own: the buffers when the latest operation was accepted (R193; log 7). -/
  memBefore : Memory
  /-- The model's own: the number of hardware resets, which selects the free draws of R38 to R40 (log 5, log 6). -/
  bufEpoch : Nat
  /-- The model's own: the number of operations abandoned so far, which selects the free choices of R193 (log 7). -/
  abandons : Nat
  /-- The model's own: the events still to come, in their order (R74; log 1). -/
  agenda : List Event
  /-- The model's own: the response of the latest host access (R60; log 3). -/
  resp : Option Response
deriving DecidableEq, Repr

/-- STATUS's stored fields at reset, and after every clearing of the sticky status (R27 to R30). -/
def Status.clear : Status := { done := false, err := .noError, nan := false, clamp := false }

/-- CTRL at reset (R24). -/
def Ctrl.zero : Ctrl := { ieDone := false, ieErr := false }

/-- The four parameter registers at reset, +0.0 each (R34 to R37). -/
def Params.zero : Params := { r := 0#64, x0 := 0#64, p := 0#64, q := 0#64 }

/-- ENG after the hardware reset numbered `epoch`: IDLE, every other field a free value (R40, R240; log 6). -/
def Eng.powerUp (epoch : Nat) : Eng :=
  { phase := .idle
    op := if Config.engPowerUpKey epoch then .key else .gen
    n := (Config.engPowerUpN epoch).val
    size := (Config.engPowerUpSize epoch).val
    s := Config.engPowerUpS epoch
    lat := { r := Config.engPowerUpR epoch, x0 := Config.engPowerUpX0 epoch
             p := Config.engPowerUpP epoch, q := Config.engPowerUpQ epoch } }

/-- The machine right after hardware reset (R240): idle, every register at its reset value, the buffers a free draw
(nothing listed), and no event yet to come (R241; log 12, log 20). -/
def State.reset : State :=
  { seqDepth := Config.seqDepth
    keyDepth := Config.keyDepth
    ctrl := Ctrl.zero
    status := Status.clear
    prog := 0
    params := Params.zero
    eng := Eng.powerUp 0
    mem := []
    memBefore := []
    bufEpoch := 0
    abandons := 0
    agenda := []
    resp := none }

end Sys2Proof.Machine
end

