-- ==== Sys2Proof/Machine/Operands.lean ====
section
/-! DEFINITION. The operands of host accesses: widths, byte order, the window's map and which accesses are valid
(20_memory.md R60, R63, R64, R66, R69). The operand of a command is its LEN field (Decode.lean; R92). -/

namespace Sys2Proof.Machine

/-- `w` in bytes (R60). -/
def Width.bytes : Width → Nat
  | .w1 => 1
  | .w2 => 2
  | .w4 => 4
  | .w8 => 8

/-- Direction of a host access (R60). -/
inductive Dir where
  | read
  | write
deriving DecidableEq, Repr

/-- Byte `j` of a value: its bits `[8j+7:8j]` (R64). -/
def byteOf (v : BitVec 64) (j : Nat) : Byte := v.extractLsb' (8 * j) 8

/-- The first `count` bytes of a value, least significant first (R64). -/
def bytesOf (v : BitVec 64) (count : Nat) : List Byte := (List.range count).map (byteOf v)

/-- The number whose little-endian bytes are given (R64). -/
def leNat : List Byte → Nat
  | [] => 0
  | b :: bs => b.toNat + 256 * leNat bs

/-- The value, zero-extended, whose little-endian bytes are given (R64). -/
def leValue (bs : List Byte) : BitVec 64 := BitVec.ofNat 64 (leNat bs)

/-- One of the four parameter registers (R34 to R37). -/
inductive ParamReg where
  | r
  | x0
  | p
  | q
deriving DecidableEq, Repr

/-- What the window holds (R20's register map; R38, R39). -/
inductive Region where
  | id
  | seqDepth
  | keyDepth
  | ctrl
  | cmd
  | status
  | prog
  | param (which : ParamReg)
  | seqBuf
  | keyBuf
deriving DecidableEq, Repr

/-- A row of the window's map. -/
structure MapRow where
  base : Nat
  size : Nat
  region : Region
deriving DecidableEq, Repr

/-- Offset of SEQ_BUF (R38). -/
def seqBufBase : Nat := 0x10000

/-- Offset of KEY_BUF (R39). -/
def keyBufBase : Nat := 0x20000

/-- Span of the window (R7, R60). -/
def windowSpan : Nat := 0x30000

/-- Offset of SEQ_BUF entry `k` (R38). -/
def seqAddr (k : Nat) : Nat := seqBufBase + 8 * k

/-- Offset of KEY_BUF byte `k` (R39). -/
def keyAddr (k : Nat) : Nat := keyBufBase + k

/-- The register map of R20, with the buffers as deep as the instance's depths (R38, R39). Offsets in no row are reserved
(R69). -/
def memoryMap (seqDepth keyDepth : Nat) : List MapRow :=
  [ ⟨0x00000, 4, .id⟩, ⟨0x00004, 4, .seqDepth⟩, ⟨0x00008, 4, .keyDepth⟩, ⟨0x0000C, 4, .ctrl⟩,
    ⟨0x00010, 4, .cmd⟩, ⟨0x00014, 4, .status⟩, ⟨0x00018, 4, .prog⟩,
    ⟨0x00020, 8, .param .r⟩, ⟨0x00028, 8, .param .x0⟩, ⟨0x00030, 8, .param .p⟩, ⟨0x00038, 8, .param .q⟩,
    ⟨seqBufBase, 8 * seqDepth, .seqBuf⟩, ⟨keyBufBase, keyDepth, .keyBuf⟩ ]

/-- An offset that a row of the map covers. -/
def MapRow.covers (row : MapRow) (off : Nat) : Bool := row.base ≤ off && off < row.base + row.size

/-- The row an offset lies in; none for a reserved offset (R69). -/
def rowAt (seqDepth keyDepth off : Nat) : Option MapRow :=
  (memoryMap seqDepth keyDepth).find? (fun row => row.covers off)

/-- The width and offset a region allows, in either direction (R63); each is naturally aligned (R66). -/
def MapRow.allows (row : MapRow) (off : Nat) (w : Width) : Bool :=
  match row.region with
  | .id | .seqDepth | .keyDepth | .ctrl | .cmd | .status | .prog => w = .w4 && off = row.base
  | .param _ | .seqBuf => (w = .w8 && off % 8 = 0) || (w = .w4 && off % 4 = 0)
  | .keyBuf => off % w.bytes = 0 && off - row.base + w.bytes ≤ row.size

/-- The regions with valid writes: CTRL, CMD and the parameter registers (R63). -/
def Region.writable : Region → Bool
  | .ctrl | .cmd | .param _ => true
  | .id | .seqDepth | .keyDepth | .status | .prog | .seqBuf | .keyBuf => false

/-- The access table of R63: the row a valid access falls in; none for an invalid access. -/
def validRow (seqDepth keyDepth off : Nat) (w : Width) (dir : Dir) : Option MapRow :=
  match rowAt seqDepth keyDepth off with
  | none => none
  | some row => if row.allows off w && (dir = .read || row.region.writable) then some row else none

/-- The window offset of a host address, `off = address - CRE_BASE`; none outside the window (R60; log 10). -/
def windowOffset (address : Nat) : Option Nat :=
  if Config.creBase ≤ address ∧ address < Config.creBase + windowSpan then some (address - Config.creBase) else none

/-- A 64-bit register with the written half or whole replaced: `pos` is the byte offset within the register (R65). -/
def mergeWrite (old : BitVec 64) (pos : Nat) (w : Width) (data : BitVec 64) : BitVec 64 :=
  if w = .w8 then data
  else if pos = 0 then old.extractLsb' 32 32 ++ data.extractLsb' 0 32
  else data.extractLsb' 0 32 ++ old.extractLsb' 0 32

end Sys2Proof.Machine
end

