-- ==== Sys2Proof/Machine/Ops.lean ====
section
/-! DEFINITION. The named operations over the buffers, the registers and the port, and the CRE's one way of reporting an
error (10_state.md R34 to R42; 20_memory.md R64, R70; 60_exceptions.md R210, R216, R222, R223). -/

namespace Sys2Proof.Machine

/-- The byte written at an offset, if any was (log 8). -/
def Memory.read : Memory → Nat → Option Byte
  | [], _ => none
  | (a, b) :: m, off => if off = a then some b else Memory.read m off

/-- One byte written, the offsets kept strictly rising (log 8). -/
def Memory.write : Memory → Nat → Byte → Memory
  | [], off, v => [(off, v)]
  | (a, b) :: m, off, v =>
    if off < a then (off, v) :: (a, b) :: m
    else if off = a then (off, v) :: m
    else (a, b) :: Memory.write m off v

/-- An offset made unlisted again: it reads as the free draw (log 7, log 8). -/
def Memory.unlist (m : Memory) (off : Nat) : Memory := m.filter (fun cell => cell.1 ≠ off)

/-- Bytes written from an offset upwards (R64). -/
def Memory.writeBytes : Memory → Nat → List Byte → Memory
  | m, _, [] => m
  | m, off, b :: bs => Memory.writeBytes (Memory.write m off b) (off + 1) bs

/-- SEQ_BUF[k] <- v: the entry's eight bytes, little-endian (R38, R64). -/
def Memory.putSeq (m : Memory) (k : Nat) (v : F64) : Memory := Memory.writeBytes m (seqAddr k) (bytesOf v 8)

/-- KEY_BUF[k] <- b (R39, R64). -/
def Memory.putKey (m : Memory) (k : Nat) (b : Byte) : Memory := Memory.write m (keyAddr k) b

/-- One offset put back as it is in `before`. -/
def Memory.restoreByte (m before : Memory) (off : Nat) : Memory :=
  match Memory.read before off with
  | some b => Memory.write m off b
  | none => Memory.unlist m off

/-- `count` offsets from `off` put back as they are in `before`. -/
def Memory.restore (m before : Memory) (off : Nat) : Nat → Memory
  | 0 => m
  | count + 1 => Memory.restoreByte (Memory.restore m before off count) before (off + count)

/-- THE MODEL'S READ OF ONE BUFFER BYTE, at a window offset: the byte written last, else the free draw of the latest
hardware reset (R38, R39, R72; log 5). -/
def State.bufByte (s : State) (off : Nat) : Byte :=
  (Memory.read s.mem off).getD (Config.bufferPowerUp s.bufEpoch off)

/-- The same of the buffers as they stood before the latest operation (R193; log 7). -/
def State.bufByteBefore (s : State) (off : Nat) : Byte :=
  (Memory.read s.memBefore off).getD (Config.bufferPowerUp s.bufEpoch off)

/-- SEQ_BUF[k] as a 64-bit entry (R38, R64). -/
def State.seqEntry (s : State) (k : Nat) : F64 :=
  leValue ((List.range 8).map (fun j => s.bufByte (seqAddr k + j)))

/-- KEY_BUF[k] (R39). -/
def State.keyByteAt (s : State) (k : Nat) : Byte := s.bufByte (keyAddr k)

/-- STATUS.BUSY: exactly ENG.phase = RUN (R26). -/
def State.busy (s : State) : Bool := s.eng.phase = .run

/-- TAKING AN ERROR: `raise ERR(code)`. The CRE has no trap (R210, R222): the code replaces any earlier one and nothing
else changes (R216). -/
def State.raiseErr (code : ErrCode) (s : State) : State := { s with status := { s.status with err := code } }

/-- THE RETURN FROM AN ERROR: there is no return instruction (R223); the sticky status is cleared as a whole, by CLR_STATUS
(R191), by an acceptance (R133, R163) and by SOFT_RESET (R192). -/
def State.clearStatus (s : State) : State := { s with status := Status.clear }

/-- A parameter register's contents (R34 to R37). -/
def Params.get (ps : Params) : ParamReg → F64
  | .r => ps.r
  | .x0 => ps.x0
  | .p => ps.p
  | .q => ps.q

/-- A parameter register written (R34 to R37). -/
def Params.set (ps : Params) (which : ParamReg) (v : F64) : Params :=
  match which with
  | .r => { ps with r := v }
  | .x0 => { ps with x0 := v }
  | .p => { ps with p := v }
  | .q => { ps with q := v }

/-- `respond` to a read (R67). -/
def State.respondRead (resp : Resp) (data : BitVec 64) (s : State) : State := { s with resp := some (.read resp data) }

/-- `respond` to a write (R67). -/
def State.respondWrite (resp : Resp) (s : State) : State := { s with resp := some (.write resp) }

/-- The events still to come, replaced (log 1). -/
def State.withAgenda (rest : List Event) (s : State) : State := { s with agenda := rest }

/-- A command that is accepted only while STATUS.BUSY = 0; while busy it raises BUSY_WRITE and changes nothing else
(30_encoding.md R95, R214). -/
def State.whenIdle (s : State) (accepted : State → State) : State :=
  if s.busy then s.raiseErr .busyWrite else accepted s

/-- What every acceptance of GEN_SEQ and DERIVE_KEY does (R133, R163): the sticky status cleared, PROG <- 0, the parameters
latched (R41), ENG.op, ENG.n and ENG.size written; a zero length sets DONE and leaves the phase, any other starts the engine.
The model keeps the buffers as they stand (log 7). -/
def State.beginOperation (op : EngOp) (n size : Nat) (s : State) : State :=
  { s with
    status := { Status.clear with done := decide (n = 0) }
    prog := 0
    eng := { s.eng with
      phase := if n = 0 then s.eng.phase else .run
      op := op
      n := n
      size := size
      lat := s.params }
    memBefore := s.mem }

/-- Hardware reset (R240): every register at its reset value, ENG idle with free values, the buffers a free draw. The
instance's depths stay; the events still to come, the latest response and the count of abandoned operations are the model's
own and stay (log 11). -/
def State.hardReset (s : State) : State :=
  { s with
    ctrl := Ctrl.zero
    status := Status.clear
    prog := 0
    params := Params.zero
    eng := Eng.powerUp (s.bufEpoch + 1)
    mem := []
    memBefore := []
    bufEpoch := s.bufEpoch + 1 }

end Sys2Proof.Machine
end

