-- ==== Sys2Proof/Machine/Flags.lean ====
section
/-! DEFINITION. STATUS, CTRL and IRQ as words and levels, and the flags an engine step sets (10_state.md R24, R26 to R32, R42;
40_sequence_generator.md R137; 60_exceptions.md R211). -/

namespace Sys2Proof.Machine

/-- The code of an error in STATUS.ERR (R211). -/
def ErrCode.code : ErrCode → BitVec 4
  | .noError => 0#4
  | .illegalCmd => 1#4
  | .lenRange => 2#4
  | .busyWrite => 3#4
  | .bus => 4#4

/-- The level of the interrupt output (R42, R219). -/
def State.irq (s : State) : Bool :=
  (s.ctrl.ieDone && s.status.done) || (s.ctrl.ieErr && s.status.err ≠ .noError)

/-- STATUS as the host reads it: bits 31:11 and 3:2 read 0 (R26 to R32). -/
def State.statusWord (s : State) : Word :=
  0#21 ++ BitVec.ofBool s.irq ++ BitVec.ofBool s.status.clamp ++ BitVec.ofBool s.status.nan
    ++ s.status.err.code ++ 0#2 ++ BitVec.ofBool s.status.done ++ BitVec.ofBool s.busy

/-- CTRL as the host reads it: bits 31:2 read 0 (R24). -/
def State.ctrlWord (s : State) : Word :=
  0#30 ++ BitVec.ofBool s.ctrl.ieErr ++ BitVec.ofBool s.ctrl.ieDone

/-- A 4-byte write to CTRL: bits 0 and 1 taken, the others ignored, busy or not (R24). -/
def State.writeCtrl (data : BitVec 64) (s : State) : State :=
  { s with ctrl := { ieDone := data.getLsbD 0, ieErr := data.getLsbD 1 } }

/-- The flags of an engine step that produced `v`, the guard having replaced the raw value or not: NAN and CLAMP are set,
never cleared (R137). -/
def Status.noteElement (st : Status) (v : F64) (clamped : Bool) : Status :=
  { st with nan := st.nan || isNaN v, clamp := st.clamp || clamped }

end Sys2Proof.Machine
end

