-- ==== Sys2Proof/Machine/Generator.lean ====
section
/-! DEFINITION. The chaotic sequence generator and GEN_SEQ (40_sequence_generator.md R125 to R137). Each expression is
written in the nesting of its rule, one rounded operation a call (R125). -/

namespace Sys2Proof.Machine

/-- The reflection `(p - d0) + q` (R127). -/
def reflect (d0 p q : F64) : F64 := fadd (fsub p d0) q

/-- `frac = (i+1)/n`, a binary64 division (R126). -/
def envFrac (i n : Nat) : F64 := fdiv (f64 (i + 1)) (f64 n)

/-- `d0 = q + frac * (p - q)` (R126). -/
def envLinear (i n : Nat) (p q : F64) : F64 := fadd q (fmul (envFrac i n) (fsub p q))

/-- `Env(i, n, p, q)`: the envelope, reflected when `i + 1` is odd (R126, R127). -/
def env (i n : Nat) (p q : F64) : F64 :=
  if (i + 1) % 2 = 1 then reflect (envLinear i n p q) p q else envLinear i n p q

/-- `Raw(s, i, n, r, p, q)` (R128). -/
def rawValue (s : F64) (i n : Nat) (r p q : F64) : F64 :=
  fmul (fmul (fmul r s) (fsub fOne s)) (env i n p q)

/-- `v <= 0.0` or `v >= 1.0`: the values the guard replaces (R129). -/
def degenerate (v : F64) : Bool := fle v fZero || fge v fOne

/-- `Guard(v)`: the value and whether it was replaced by 0.5 (R129). -/
def guardValue (v : F64) : F64 × Bool := if degenerate v then (fHalf, true) else (v, false)

/-- The element after `s` in a sequence of length `n`, and whether the guard replaced it (R128, R129). -/
def nextElem (ps : Params) (n i : Nat) (s : F64) : F64 × Bool := guardValue (rawValue s i n ps.r ps.p ps.q)

/-- `Elem(k)`: element 0 is the latched `x0`, bit for bit (R130). -/
def Eng.elem (e : Eng) (k : Nat) : F64 × Bool :=
  if k = 0 then (e.lat.x0, false) else nextElem e.lat e.n k e.s

/-- `Seq(n, P)[i]` (R131). -/
def seqElem (n : Nat) (ps : Params) : Nat → F64
  | 0 => ps.x0
  | i + 1 => (nextElem ps n (i + 1) (seqElem n ps i)).1

/-- `Seq(n, P)` (R131). -/
def seqList (n : Nat) (ps : Params) : List F64 := (List.range n).map (seqElem n ps)

/-- What every engine step does once its element is produced: the flags of R137, ENG.s, PROG, and completion in the step of
the last element (R134, R135; R164, R165). -/
def State.advanceEngine (v : F64) (clamped : Bool) (s : State) : State :=
  { s with
    status := { s.status.noteElement v clamped with
      done := if s.prog + 1 = s.eng.n then true else s.status.done }
    prog := s.prog + 1
    eng := { s.eng with
      s := v
      phase := if s.prog + 1 = s.eng.n then .idle else s.eng.phase } }

/-- `GenStep()`: the element with index PROG written to SEQ_BUF[PROG] (R134). -/
def State.genStep (s : State) : State :=
  State.advanceEngine (s.eng.elem s.prog).1 (s.eng.elem s.prog).2
    { s with mem := s.mem.putSeq s.prog (s.eng.elem s.prog).1 }

/-- `StartGen(n)` (R133). -/
def State.startGen (n : Nat) (s : State) : State := s.beginOperation .gen n 0

/-- GEN_SEQ n (R133): BUSY_WRITE while busy, LEN_RANGE above SEQ_DEPTH, else accepted (R95). -/
def execGenSeq (n : Nat) (s : State) : Host.Outcome State Fault Refusal :=
  .next (s.whenIdle (fun t => if n > t.seqDepth then t.raiseErr .lenRange else t.startGen n))

end Sys2Proof.Machine
end

