-- ==== Sys2Proof/Machine/KeyDerivation.lean ====
section
/-! DEFINITION. Key byte derivation and DERIVE_KEY (41_key_derivation.md R160 to R166). -/

namespace Sys2Proof.Machine

/-- `floor(t) mod 256` of a finite `t`, given by its sign and units: the floor of the real value, Euclidean mod (R160). -/
def floorByte (neg : Bool) (units : Nat) : Byte :=
  BitVec.ofInt 8 (signedUnits neg units / (unitsPerOne : Int) % 256)

/-- `KeyByte(v)`: 0x00 for a NaN and for an infinite product, else `floor(v * 256) mod 256` (R160). -/
def keyByte (v : F64) : Byte :=
  if isNaN v then 0x00#8
  else match classify (fmul v f256) with
    | .nan => 0x00#8
    | .inf _ => 0x00#8
    | .fin neg units => floorByte neg units

/-- `KeyBytes(size, P)` (R162). -/
def keyList (size : Nat) (ps : Params) : List Byte :=
  (List.range size).map (fun j => keyByte (seqElem (2 * size) ps (size + j)))

/-- `KeyStep()`: the element with index PROG; in the second half its key byte goes to KEY_BUF[PROG - size] (R164). -/
def State.keyStep (s : State) : State :=
  State.advanceEngine (s.eng.elem s.prog).1 (s.eng.elem s.prog).2
    { s with mem := if s.eng.size ≤ s.prog then s.mem.putKey (s.prog - s.eng.size) (keyByte (s.eng.elem s.prog).1)
                    else s.mem }

/-- `StartKey(size)`: the engine's sequence length is `2 * size` (R163, R92). -/
def State.startKey (size : Nat) (s : State) : State := s.beginOperation .key (2 * size) size

/-- DERIVE_KEY size (R163): BUSY_WRITE while busy, LEN_RANGE above KEY_DEPTH, else accepted (R95). -/
def execDeriveKey (size : Nat) (s : State) : Host.Outcome State Fault Refusal :=
  .next (s.whenIdle (fun t => if size > t.keyDepth then t.raiseErr .lenRange else t.startKey size))

end Sys2Proof.Machine
end

