-- ==== Sys2Proof/Machine/Control.lean ====
section
/-! DEFINITION. The control commands NOP, CLR_STATUS and SOFT_RESET (42_control_commands.md R190 to R193), and the rejection
of a word that is no command (30_encoding.md R94, R95). -/

namespace Sys2Proof.Machine

/-- NOP (R190): accepted only while idle, changes no state. -/
def execNop (s : State) : Host.Outcome State Fault Refusal := .next (s.whenIdle (fun t => t))

/-- CLR_STATUS (R191): accepted only while idle, clears DONE, ERR, NAN and CLAMP. -/
def execClrStatus (s : State) : Host.Outcome State Fault Refusal := .next (s.whenIdle State.clearStatus)

/-- SEQ_BUF entry `k` of an abandoned GEN: the value the operation computes for it, or the one from before (R193; log 7). -/
def State.settleSeq (s : State) (m : Memory) (k : Nat) : Memory :=
  if Config.abandonedTakesNew s.abandons k then m.putSeq k (seqElem s.eng.n s.eng.lat k)
  else m.restore s.memBefore (seqAddr k) 8

/-- KEY_BUF byte `k` of an abandoned KEY: the byte the operation computes for it, or the one from before (R193; log 7). -/
def State.settleKey (s : State) (m : Memory) (k : Nat) : Memory :=
  if Config.abandonedTakesNew s.abandons k then
    m.putKey k (keyByte (seqElem s.eng.n s.eng.lat (s.eng.size + k)))
  else m.restore s.memBefore (keyAddr k) 1

/-- The buffers after SOFT_RESET (R193): unchanged when no operation was running; else every entry or byte of the running
operation's output range is old or new, a free choice each, and the rest unchanged (log 7). -/
def State.settleBuffers (s : State) : Memory :=
  match s.eng.phase, s.eng.op with
  | .idle, _ => s.mem
  | .run, .gen => (List.range s.eng.n).foldl s.settleSeq s.mem
  | .run, .key => (List.range s.eng.size).foldl s.settleKey s.mem

/-- `SoftReset()` (R192, R193): taken whether or not the engine is running. -/
def State.softReset (s : State) : State :=
  { s with
    eng := { s.eng with phase := .idle }
    ctrl := Ctrl.zero
    status := Status.clear
    prog := 0
    params := Params.zero
    mem := s.settleBuffers
    abandons := if s.busy then s.abandons + 1 else s.abandons }

/-- SOFT_RESET (R192): the one command accepted while busy (R95). -/
def execSoftReset (s : State) : Host.Outcome State Fault Refusal := .next s.softReset

/-- A command word that is no command: BUSY_WRITE while busy, else ILLEGAL_CMD, and no other effect (R94, R95, R212, R221). -/
def State.rejectWord (s : State) : State := s.whenIdle (State.raiseErr .illegalCmd)

/-- The engine's turn (R134, R164): while RUN, exactly one enabled step, that of ENG.op; while IDLE, none (R230; log 18). -/
def State.engineTurn (s : State) : State :=
  match s.eng.phase, s.eng.op with
  | .idle, _ => s
  | .run, .gen => s.genStep
  | .run, .key => s.keyStep

end Sys2Proof.Machine
end

