-- ==== Sys2Proof/Machine/Dispatch.lean ====
section
/-! DEFINITION. One arm per command (30_encoding.md R93, R95): what the acceptance procedure does with it. -/

namespace Sys2Proof.Machine

/-- The effect of presenting a command to the acceptance procedure (R95). -/
def exec (i : Instr) (s : State) : Host.Outcome State Fault Refusal :=
  match i with
  | .nop => Sys2Proof.Machine.execNop s
  | .genSeq n => Sys2Proof.Machine.execGenSeq n s
  | .deriveKey size => Sys2Proof.Machine.execDeriveKey size s
  | .clrStatus => Sys2Proof.Machine.execClrStatus s
  | .softReset => Sys2Proof.Machine.execSoftReset s

end Sys2Proof.Machine
end

