-- ==== Sys2Proof/Machine/Port.lean ====
section
/-! DEFINITION. The host port: what each event of the total order does (20_memory.md R60 to R72; 30_encoding.md R90, R95, R97). -/

namespace Sys2Proof.Machine

/-- ID, "at all times" (10_state.md R21). -/
def idWord : Word := 0x43524531#32

/-- A register's contents as the host reads them, zero-extended; CMD reads 0 (R21 to R37). The buffers are read byte by
byte. -/
def State.regValue (s : State) : Region → BitVec 64
  | .id => idWord.setWidth 64
  | .seqDepth => (BitVec.ofNat 32 s.seqDepth).setWidth 64
  | .keyDepth => (BitVec.ofNat 32 s.keyDepth).setWidth 64
  | .ctrl => s.ctrlWord.setWidth 64
  | .cmd => 0#64
  | .status => s.statusWord.setWidth 64
  | .prog => (BitVec.ofNat 32 s.prog).setWidth 64
  | .param which => s.params.get which
  | .seqBuf => 0#64
  | .keyBuf => 0#64

/-- The byte a valid read finds at an offset of the row `row` (R64). -/
def State.rowByte (s : State) (row : MapRow) (off : Nat) : Byte :=
  match row.region with
  | .seqBuf | .keyBuf => s.bufByte off
  | reg => byteOf (s.regValue reg) (off - row.base)

/-- The data of a valid read of `w` bytes: `data[8j+7:8j]` is the byte at `off + j` (R64). -/
def State.readData (s : State) (row : MapRow) (off : Nat) (w : Width) : BitVec 64 :=
  leValue ((List.range w.bytes).map (fun j => s.rowByte row (off + j)))

/-- `MemRead(off, w)` (R67): only the response changes (R68). -/
def State.memRead (off : Nat) (w : Width) (s : State) : State :=
  match validRow s.seqDepth s.keyDepth off w .read with
  | some row => s.respondRead .okay (s.readData row off w)
  | none => s.respondRead .error 0#64

/-- A valid write to a parameter register (R65): dropped with BUSY_WRITE while busy (R214). -/
def State.writeParam (which : ParamReg) (pos : Nat) (w : Width) (data : BitVec 64) (s : State) : State :=
  s.whenIdle (fun t => { t with params := t.params.set which (mergeWrite (t.params.get which) pos w data) })

/-- `Accept(word)` (R95): a command word is decoded and run; a word that is no command is rejected. -/
def acceptWord (word : Word) (s : State) : Host.Outcome State Fault Refusal :=
  match decodeWord word with
  | .ok i => exec i s
  | .error _ => .next s.rejectWord

/-- An outcome with a write's response, which a command always gets once its write is valid (R95). -/
def withWriteResponse (resp : Resp) : Host.Outcome State Fault Refusal → Host.Outcome State Fault Refusal
  | .next s => .next (s.respondWrite resp)
  | .fault f => .fault f
  | .refused r => .refused r

/-- What a valid write does to its region (R67); no other region is writable (R63). -/
def State.writeRegion (row : MapRow) (off : Nat) (w : Width) (data : BitVec 64) (s : State) :
    Host.Outcome State Fault Refusal :=
  match row.region with
  | .ctrl => .next (s.writeCtrl data)
  | .cmd => acceptWord (data.extractLsb' 0 32) s
  | .param which => .next (s.writeParam which (off - row.base) w data)
  | .id | .seqDepth | .keyDepth | .status | .prog | .seqBuf | .keyBuf => .next s

/-- `MemWrite(off, w, data)` (R67): an invalid write raises BUS and responds ERROR (R215). -/
def State.memWrite (off : Nat) (w : Width) (data : BitVec 64) (s : State) : Host.Outcome State Fault Refusal :=
  match validRow s.seqDepth s.keyDepth off w .write with
  | some row => withWriteResponse .okay (s.writeRegion row off w data)
  | none => .next ((s.raiseErr .bus).respondWrite .error)

/-- One event of the total order of R74, in the state that remains once it is taken off the agenda. A host access outside
the window is not the CRE's (R60; log 9). -/
def State.handle (ev : Event) (s : State) : Host.Outcome State Fault Refusal :=
  match ev with
  | .read off w => if windowSpan ≤ off then .fault .outsideWindow else .next (s.memRead off w)
  | .write off w data => if windowSpan ≤ off then .fault .outsideWindow else s.memWrite off w data
  | .engineTurn => .next s.engineTurn
  | .hardReset => .next s.hardReset

/-- The write that carries a command word: 4 bytes to CMD, offset 0x00010 (R25, R90). -/
def cmdWrite (word : Word) : Event := .write 0x00010 .w4 (word.setWidth 64)

end Sys2Proof.Machine
end

