-- ==== Sys2Proof/Machine/Step.lean ====
section
/-! DEFINITION. One step of the machine: the next event of the total order of 20_memory.md R74. -/

namespace Sys2Proof.Machine

/-- The next event: the head of the agenda; when nothing else is to come, the engine goes on (weak fairness, R74, R250), and
an idle machine waits (R230, R241; log 1, log 2). -/
def step (s : State) : Host.Outcome State Fault Refusal :=
  match s.agenda with
  | [] => .next s.engineTurn
  | ev :: rest => State.handle ev (s.withAgenda rest)

/-- `s` with the command word that holds `w` in its low `nbits` bits (0 above) presented next: a 4-byte write to CMD at the
head of the agenda (R25, R90; log 12). -/
def State.withFetchWord (s : State) (nbits w : Nat) : State :=
  s.withAgenda (cmdWrite (tableWord nbits w) :: s.agenda)

end Sys2Proof.Machine
end

