-- ==== Sys2Proof/Safety.lean ====
section
/-! DEFINITION. The terms claims are stated in: what a safe state is, what the engine has done so far, and readings of the
spec's words that do not go through the model's own functions (real values of patterns, correct rounding, the access table,
the acceptance procedure on the word's numbers). -/

namespace Sys2Proof.Machine

/-- An offset of a SEQ_BUF entry or a KEY_BUF byte of this instance (10_state.md R38, R39). -/
def State.InBuffers (s : State) (off : Nat) : Prop :=
  (seqAddr 0 ≤ off ∧ off < seqAddr s.seqDepth) ∨ (keyAddr 0 ≤ off ∧ off < keyAddr s.keyDepth)

/-- What every state from reset on satisfies; each field names the rule it comes from. -/
structure State.Inv (s : State) : Prop where
  /-- R7, R22, R23: the depths are legal parameters. -/
  depths : 1 ≤ s.seqDepth ∧ s.seqDepth ≤ 8192 ∧ 1 ≤ s.keyDepth ∧ s.keyDepth ≤ 65536
  /-- The buffers' memory is in canonical form (log 8). -/
  mem_wf : Memory.wf s.mem
  memBefore_wf : Memory.wf s.memBefore
  /-- R38, R39: only buffer bytes are stored. -/
  mem_inBuffers : ∀ cell ∈ s.mem, s.InBuffers cell.1
  memBefore_inBuffers : ∀ cell ∈ s.memBefore, s.InBuffers cell.1
  /-- R33: "PROG never exceeds `max(SEQ_DEPTH, 2 * KEY_DEPTH)`". -/
  prog_le : s.prog ≤ max s.seqDepth (2 * s.keyDepth)
  /-- R44, R27, R41: while RUN, PROG is below ENG.n, DONE is 0, the latches and the registers agree. -/
  running : s.eng.phase = .run → s.prog < s.eng.n ∧ s.status.done = false ∧ s.eng.lat = s.params
  /-- R40, R133: a running GEN fits SEQ_BUF. -/
  gen_fits : s.eng.phase = .run → s.eng.op = .gen → s.eng.n ≤ s.seqDepth ∧ s.eng.size = 0
  /-- R40, R163: a running KEY fits KEY_BUF. -/
  key_fits : s.eng.phase = .run → s.eng.op = .key → s.eng.n = 2 * s.eng.size ∧ s.eng.size ≤ s.keyDepth

/-- What the running operation has done so far (R72, R134, R164): the elements produced are those of the sequence function,
each at its place, and nothing else has changed since the acceptance. -/
structure State.Tracks (s : State) : Prop where
  /-- R40: ENG.s is `seq[PROG-1]`. -/
  latch : s.eng.phase = .run → 0 < s.prog → s.eng.s = seqElem s.eng.n s.eng.lat (s.prog - 1)
  /-- R72: SEQ_BUF entry `k` with `k < PROG` holds its new value. -/
  gen_new : s.eng.phase = .run → s.eng.op = .gen → ∀ k < s.prog, s.seqEntry k = seqElem s.eng.n s.eng.lat k
  /-- R72, R136: everything else holds the value from before the operation. -/
  gen_old : s.eng.phase = .run → s.eng.op = .gen →
    ∀ off, ¬ (seqAddr 0 ≤ off ∧ off < seqAddr s.prog) → s.bufByte off = s.bufByteBefore off
  /-- R72: KEY_BUF byte `k` with `size + k < PROG` holds its new value. -/
  key_new : s.eng.phase = .run → s.eng.op = .key →
    ∀ k, s.eng.size + k < s.prog → s.keyByteAt k = keyByte (seqElem s.eng.n s.eng.lat (s.eng.size + k))
  /-- R72, R166: everything else holds the value from before the operation. -/
  key_old : s.eng.phase = .run → s.eng.op = .key →
    ∀ off, ¬ (keyAddr 0 ≤ off ∧ off < keyAddr (s.prog - s.eng.size)) → s.bufByte off = s.bufByteBefore off

/-- A host access of the event lies inside the window (R60). -/
def Event.inWindow : Event → Prop
  | .read off _ => off < 0x30000
  | .write off _ _ => off < 0x30000
  | .engineTurn => True
  | .hardReset => True

/-- `k` steps answer the state `t`. -/
def Reaches (k : Nat) (s t : State) : Prop := Sys2Proof.core.run k s = .next t

/-- A run of `k` steps from an accepted command in which the operation is under way until the last step and that step leaves
the engine idle with DONE = 1: "has finished (STATUS.DONE = 1 and no SOFT_RESET or hardware reset since its acceptance)"
(R136, R166). -/
def FinishesAt (k : Nat) (s t : State) : Prop :=
  (∀ j < k, ∃ u, Reaches j s u ∧ u.busy = true) ∧ Reaches k s t ∧ t.busy = false ∧ t.status.done = true

end Sys2Proof.Machine

namespace Sys2Proof.Spec

open Sys2Proof.Machine

/-- A pattern that is neither an infinity nor a NaN (40_sequence_generator.md R120). -/
abbrev Finite (v : F64) : Prop := fExp v ≠ 0x7FF

/-- An infinity of the given sign (R120). -/
abbrev IsInf (v : F64) (neg : Bool) : Prop := fExp v = 0x7FF ∧ fFrac v = 0 ∧ fSign v = neg

/-- A NaN (R10, R120). -/
abbrev IsNaN (v : F64) : Prop := fExp v = 0x7FF ∧ fFrac v ≠ 0

/-- The real value of a finite pattern, as R120 writes it. -/
def value (v : F64) : ℚ :=
  (if fSign v then -1 else 1) *
    (if fExp v = 0 then (fFrac v : ℚ) * 2 ^ (-1074 : ℤ) else ((2 : ℚ) ^ 52 + fFrac v) * 2 ^ ((fExp v : ℤ) - 1075))

/-- `v` is the exact real result `x` rounded once to binary64 with roundTiesToEven (R121): beyond the last finite number by
half a unit or more an infinity of the right sign; else the nearest finite number, the one with an even significand when two
are equally near; a result rounded from a nonzero `x` keeps the sign of `x`. -/
def RoundsTo (x : ℚ) (v : F64) : Prop :=
  if 2 ^ 1024 - 2 ^ 970 ≤ |x| then IsInf v (decide (x < 0))
  else Finite v ∧ (x ≠ 0 → fSign v = decide (x < 0)) ∧
    (∀ y, Finite y → |value v - x| ≤ |value y - x|) ∧
    (∀ y, Finite y → |value y - x| = |value v - x| → value y ≠ value v → fFrac v % 2 = 0)

/-- The access table of 20_memory.md R63, row by row. -/
def ValidAccess (seqDepth keyDepth off : Nat) (w : Width) (dir : Dir) : Prop :=
  (dir = .read ∧ w = .w4 ∧ (off = 0x00000 ∨ off = 0x00004 ∨ off = 0x00008 ∨ off = 0x00014 ∨ off = 0x00018)) ∨
  (w = .w4 ∧ (off = 0x0000C ∨ off = 0x00010)) ∨
  (∃ base, (base = 0x00020 ∨ base = 0x00028 ∨ base = 0x00030 ∨ base = 0x00038) ∧
    ((w = .w8 ∧ off = base) ∨ (w = .w4 ∧ (off = base ∨ off = base + 4)))) ∨
  (dir = .read ∧ ∃ k, k < seqDepth ∧
    ((w = .w8 ∧ off = 0x10000 + 8 * k) ∨ (w = .w4 ∧ (off = 0x10000 + 8 * k ∨ off = 0x10000 + 8 * k + 4)))) ∨
  (dir = .read ∧ 0x20000 ≤ off ∧ off % w.bytes = 0 ∧ off - 0x20000 + w.bytes ≤ keyDepth)

/-- `raise ERR(code)` (R9, R216). -/
def raise (code : ErrCode) (s : State) : State := { s with status := { s.status with err := code } }

/-- The acceptance procedure of 30_encoding.md R95, on the numbers `word[7:0]` and `word[31:8]`, its checks in the order
written. -/
def accept (word : Word) (s : State) : State :=
  if word.toNat % 256 = 4 ∧ word.toNat / 256 = 0 then s.softReset
  else if s.eng.phase = .run then raise .busyWrite s
  else if 5 ≤ word.toNat % 256 ∨ word.toNat % 256 = 4 then raise .illegalCmd s
  else if (word.toNat % 256 = 0 ∨ word.toNat % 256 = 3) ∧ word.toNat / 256 ≠ 0 then raise .illegalCmd s
  else if word.toNat % 256 = 1 ∧ word.toNat / 256 > s.seqDepth then raise .lenRange s
  else if word.toNat % 256 = 2 ∧ word.toNat / 256 > s.keyDepth then raise .lenRange s
  else if word.toNat % 256 = 0 then s
  else if word.toNat % 256 = 1 then s.startGen (word.toNat / 256)
  else if word.toNat % 256 = 2 then s.startKey (word.toNat / 256)
  else s.clearStatus

end Sys2Proof.Spec
end

