-- ==== Sys2Proof/Certificates/Slice0/Obligations.lean ====
section
/-! DEFINITION. The statements about the CRE, each formalising the rules of spec/ its docstring names. -/

open Sys2Proof Sys2Proof.Machine

/-! ### Encoding -/

/-- R93, R98: command words written out from the encoding table decode to the commands they stand for. -/
def Obligations.TableWordsDecode : Prop :=
  decodeWord 0x00000000#32 = .ok .nop ∧ decodeWord 0x00000501#32 = .ok (.genSeq 5) ∧
  decodeWord 0x00000402#32 = .ok (.deriveKey 4) ∧ decodeWord 0x00000003#32 = .ok .clrStatus ∧
  decodeWord 0x00000004#32 = .ok .softReset ∧ decodeWord 0xFFFFFF01#32 = .ok (.genSeq 16777215) ∧
  decodeWord 0x00000100#32 = .error (.reservedLen 0x00#8 1) ∧ decodeWord 0x00000005#32 = .error (.reservedOpc 0x05#8)

/-- R90 to R93, R98: decoding the bytes of any well-formed command, whatever bytes follow, gives the command and leaves the
bytes that follow. -/
def Obligations.DecodeOfEncode : Prop :=
  ∀ (i : Instr) (rest : List Byte), i.wf = true → decode (encode i ++ rest) = .ok (i, rest)

/-- R91 to R93, R98: a word that decodes is the encoding of the command it decodes to, which is well-formed: no word is
read as another's command. -/
def Obligations.EncodeOfDecode : Prop :=
  ∀ (word : Word) (i : Instr), decodeWord word = .ok i → encodeWord i = word ∧ i.wf = true

/-- R93, R94: the words that are no command are exactly those with a reserved OPC and those of NOP, CLR_STATUS and SOFT_RESET
with a nonzero LEN. -/
def Obligations.UndecodableWords : Prop :=
  ∀ word : Word, (∃ e, decodeWord word = .error e) ↔
    (5 ≤ word.toNat % 256 ∨
      ((word.toNat % 256 = 0 ∨ word.toNat % 256 = 3 ∨ word.toNat % 256 = 4) ∧ word.toNat / 256 ≠ 0))

/-! ### The step and the acceptance of commands -/

/-- R90, R95: when the next event is the 4-byte write to CMD of a word whose bytes decode to a command, the step is that
command's `exec` in the state without the event, with the write answered OKAY. -/
def Obligations.StepRunsDecodedCommand : Prop :=
  ∀ (s : State) (rest : List Event) (data : BitVec 64) (i : Instr) (after : List Byte),
    s.agenda = .write 0x00010 .w4 data :: rest →
    decode (bytesOfWord (data.extractLsb' 0 32)) = .ok (i, after) →
    i.wf = true ∧ after = [] ∧
      step s = withWriteResponse .okay (exec i { s with agenda := rest })

/-- R90, R98 (log 12): `withFetchWord` presents exactly the command whose word it is given. -/
def Obligations.FetchWordRunsCommand : Prop :=
  ∀ (s : State) (i : Instr), i.wf = true →
    step (s.withFetchWord 32 (encodeWord i).toNat) = withWriteResponse .okay (exec i s)

/-- R95: a valid 4-byte write of `word` to CMD runs the acceptance procedure as written, its checks in order, and always
responds OKAY. -/
def Obligations.AcceptanceProcedure : Prop :=
  ∀ (s : State) (rest : List Event) (word : Word), s.agenda = cmdWrite word :: rest →
    step s = .next { Spec.accept word { s with agenda := rest } with resp := some (.write .okay) }

/-- R94: a word with a reserved OPC, taken while idle, is rejected with ILLEGAL_CMD and has no other effect; none is a
no-op. -/
def Obligations.ReservedOpcodeIllegal : Prop :=
  ∀ (s : State) (rest : List Event) (word : Word), s.agenda = cmdWrite word :: rest → s.eng.phase = .idle →
    5 ≤ word.toNat % 256 →
    step s = .next { Spec.raise .illegalCmd { s with agenda := rest } with resp := some (.write .okay) }

/-- R214: while BUSY, a valid CMD write other than SOFT_RESET with LEN = 0 and a valid parameter write of either width respond
OKAY, raise BUSY_WRITE and change nothing else; a valid write to CTRL leaves ERR alone; and the running operation goes on with
the ERR it finds, its last step setting DONE beside it. -/
def Obligations.BusyWritesDropped : Prop :=
  ∀ (s : State) (rest : List Event), s.eng.phase = .run →
    (∀ data : BitVec 64, s.agenda = .write 0x00010 .w4 data :: rest → (data.toNat % 2 ^ 32 ≠ 4) →
      step s = .next { Spec.raise .busyWrite { s with agenda := rest } with resp := some (.write .okay) }) ∧
    (∀ (off : Nat) (w : Width) (data : BitVec 64), s.agenda = .write off w data :: rest →
      0x20 ≤ off → off < 0x40 → (w = .w8 ∧ off % 8 = 0) ∨ (w = .w4 ∧ off % 4 = 0) →
      step s = .next { Spec.raise .busyWrite { s with agenda := rest } with resp := some (.write .okay) }) ∧
    (∀ data : BitVec 64, s.agenda = .write 0x0000C .w4 data :: rest →
      ∃ t, step s = .next t ∧ t.status = s.status ∧ t.eng = s.eng ∧ t.resp = some (.write .okay)) ∧
    (s.agenda = .engineTurn :: rest → ∃ t, step s = .next t ∧ t.prog = s.prog + 1 ∧ t.status.err = s.status.err ∧
      (s.prog + 1 = s.eng.n → t.busy = false ∧ t.status.done = true))

/-! ### The commands, one by one: where each completes and what its next state is -/

/-- R190: NOP, accepted while idle, changes no state; while busy it raises BUSY_WRITE only; with LEN != 0 (idle) its word
raises ILLEGAL_CMD only; its encoding is the zero word. -/
def Obligations.NopCompletes : Prop :=
  encodeWord .nop = 0x00000000#32 ∧
  (∀ s : State, s.eng.phase = .idle → exec .nop s = .next s) ∧
  (∀ s : State, s.eng.phase = .run → exec .nop s = .next (Spec.raise .busyWrite s)) ∧
  (∀ (s : State) (word : Word), s.eng.phase = .idle → word.toNat % 256 = 0 → word.toNat / 256 ≠ 0 →
    acceptWord word s = .next (Spec.raise .illegalCmd s))

/-- R191: CLR_STATUS, accepted while idle, clears DONE, ERR, NAN and CLAMP and nothing else, so that IRQ is 0; while busy it
raises BUSY_WRITE only; with LEN != 0 (idle) its word raises ILLEGAL_CMD only; its encoding is 0x00000003. -/
def Obligations.ClrStatusCompletes : Prop :=
  encodeWord .clrStatus = 0x00000003#32 ∧
  (∀ s : State, s.eng.phase = .idle →
    exec .clrStatus s =
      .next { s with status := { done := false, err := .noError, nan := false, clamp := false } } ∧
    State.irq { s with status := { done := false, err := .noError, nan := false, clamp := false } } = false) ∧
  (∀ s : State, s.eng.phase = .run → exec .clrStatus s = .next (Spec.raise .busyWrite s)) ∧
  (∀ (s : State) (word : Word), s.eng.phase = .idle → word.toNat % 256 = 3 → word.toNat / 256 ≠ 0 →
    acceptWord word s = .next (Spec.raise .illegalCmd s))

/-- R192: SOFT_RESET is taken in every state, busy or not; it leaves the engine idle, CTRL, STATUS and PROG 0 and the four
parameter registers +0.0 and IRQ 0; with LEN != 0 its word is no soft reset: BUSY_WRITE while busy, ILLEGAL_CMD otherwise; its
encoding is 0x00000004. That the engine fields other than the phase stay as they were is the model's choice (log 6): R242 with R240
leaves them unspecified. -/
def Obligations.SoftResetCompletes : Prop :=
  encodeWord .softReset = 0x00000004#32 ∧
  (∀ s : State, ∃ t, exec .softReset s = .next t ∧ t.eng = { s.eng with phase := .idle } ∧
    t.ctrl = { ieDone := false, ieErr := false } ∧ t.statusWord = 0x00000000#32 ∧ t.irq = false ∧
    t.status = { done := false, err := .noError, nan := false, clamp := false } ∧ t.prog = 0 ∧
    t.params = { r := 0#64, x0 := 0#64, p := 0#64, q := 0#64 } ∧
    t.seqDepth = s.seqDepth ∧ t.keyDepth = s.keyDepth) ∧
  (∀ (s : State) (word : Word), word.toNat % 256 = 4 → word.toNat / 256 ≠ 0 →
    acceptWord word s = .next (Spec.raise (if s.eng.phase = .run then .busyWrite else .illegalCmd) s))

/-- R193: a SOFT_RESET taken while idle leaves both buffers as they are; one taken while an operation runs leaves in every
entry (GEN) or byte (KEY) of its output range the value from before the operation or the value the operation computes, and
every other byte unchanged. Which of the two is the free choice of log 7: nothing here rests on it. -/
def Obligations.SoftResetBuffers : Prop :=
  ∀ s t : State, exec .softReset s = .next t →
    (s.eng.phase = .idle → ∀ off, t.bufByte off = s.bufByte off) ∧
    (s.eng.phase = .run → s.eng.op = .gen →
      (∀ k < s.eng.n, (∀ j < 8, t.bufByte (seqAddr k + j) = s.bufByteBefore (seqAddr k + j)) ∨
        t.seqEntry k = seqElem s.eng.n s.eng.lat k) ∧
      (∀ off, ¬ (seqAddr 0 ≤ off ∧ off < seqAddr s.eng.n) → t.bufByte off = s.bufByte off)) ∧
    (s.eng.phase = .run → s.eng.op = .key →
      (∀ k < s.eng.size, t.keyByteAt k = s.bufByteBefore (keyAddr k) ∨
        t.keyByteAt k = keyByte (seqElem s.eng.n s.eng.lat (s.eng.size + k))) ∧
      (∀ off, ¬ (keyAddr 0 ≤ off ∧ off < keyAddr s.eng.size) → t.bufByte off = s.bufByte off))

/-- R133, R41, R96: GEN_SEQ n with n <= SEQ_DEPTH, while idle, is accepted: DONE, ERR, NAN, CLAMP and PROG are cleared, the
parameters latched, ENG.op, ENG.n and ENG.size written; with n = 0 it is done at once and stays idle, else the engine runs.
Above SEQ_DEPTH it raises LEN_RANGE only; while busy BUSY_WRITE only. The model's own snapshot of the buffers is taken (log 7);
nothing else changes. Its word is (n << 8) | 0x01. -/
def Obligations.GenSeqCompletes : Prop :=
  (∀ n : Nat, n < 2 ^ 24 → (encodeWord (.genSeq n)).toNat = n * 256 + 1) ∧
  (∀ (s : State) (n : Nat), s.eng.phase = .idle → n ≤ s.seqDepth →
    exec (.genSeq n) s = .next { s with
      status := { done := decide (n = 0), err := .noError, nan := false, clamp := false }
      prog := 0
      eng := { phase := if n = 0 then .idle else .run, op := .gen, n := n, size := 0, s := s.eng.s, lat := s.params }
      memBefore := s.mem }) ∧
  (∀ (s : State) (n : Nat), s.eng.phase = .idle → s.seqDepth < n →
    exec (.genSeq n) s = .next (Spec.raise .lenRange s)) ∧
  (∀ (s : State) (n : Nat), s.eng.phase = .run → exec (.genSeq n) s = .next (Spec.raise .busyWrite s))

/-- R163, R92, R41, R96: DERIVE_KEY size with size <= KEY_DEPTH, while idle, is accepted: as GEN_SEQ, with ENG.op = KEY,
ENG.size = size and ENG.n = 2 * size. Above KEY_DEPTH it raises LEN_RANGE only; while busy BUSY_WRITE only. Its word is
(size << 8) | 0x02. -/
def Obligations.DeriveKeyCompletes : Prop :=
  (∀ size : Nat, size < 2 ^ 24 → (encodeWord (.deriveKey size)).toNat = size * 256 + 2) ∧
  (∀ (s : State) (size : Nat), s.eng.phase = .idle → size ≤ s.keyDepth →
    exec (.deriveKey size) s = .next { s with
      status := { done := decide (size = 0), err := .noError, nan := false, clamp := false }
      prog := 0
      eng := { phase := if size = 0 then .idle else .run, op := .key, n := 2 * size, size := size, s := s.eng.s,
               lat := s.params }
      memBefore := s.mem }) ∧
  (∀ (s : State) (size : Nat), s.eng.phase = .idle → s.keyDepth < size →
    exec (.deriveKey size) s = .next (Spec.raise .lenRange s)) ∧
  (∀ (s : State) (size : Nat), s.eng.phase = .run → exec (.deriveKey size) s = .next (Spec.raise .busyWrite s))

/-- The frame of the five commands (R133, R163, R190 to R193, R70): no command changes the depths, what is still to come, the
latest response or ENG.s; the parameter registers, CTRL and the model's count change only by SOFT_RESET; NOP and CLR_STATUS leave
PROG, the whole engine state and the parameters; and every buffer byte is unchanged but those of an operation that SOFT_RESET
abandons. That SOFT_RESET keeps ENG.s and changes of the engine only the phase is the model's choice (log 6): R242 with R240 leaves
the engine fields other than the phase unspecified. -/
def Obligations.CommandFrame : Prop :=
  ∀ (i : Instr) (s t : State), exec i s = .next t →
    t.seqDepth = s.seqDepth ∧ t.keyDepth = s.keyDepth ∧ t.agenda = s.agenda ∧ t.resp = s.resp ∧
    t.bufEpoch = s.bufEpoch ∧ t.eng.s = s.eng.s ∧
    (i ≠ .softReset → t.params = s.params ∧ t.ctrl = s.ctrl ∧ t.abandons = s.abandons) ∧
    (i = .nop ∨ i = .clrStatus → t.prog = s.prog ∧ t.eng = s.eng ∧ t.memBefore = s.memBefore) ∧
    (i = .softReset → t.memBefore = s.memBefore ∧ t.eng = { s.eng with phase := .idle }) ∧
    (i ≠ .softReset ∨ s.eng.phase = .idle → ∀ off, t.bufByte off = s.bufByte off)

/-! ### The engine -/

/-- R134, R135, R137: one engine step of a running GEN, whether it is the engine's turn or nothing else is to come: the element
with index PROG goes to SEQ_BUF[PROG] and nowhere else, NAN and CLAMP are set by it and never cleared, ENG.s is the element, PROG
advances by 1, and in the step of the last element the phase becomes IDLE and DONE 1; everything else is unchanged. -/
def Obligations.GenStepEffect : Prop :=
  ∀ (s : State) (rest : List Event), s.eng.phase = .run → s.eng.op = .gen →
    (s.agenda = .engineTurn :: rest ∨ (s.agenda = [] ∧ rest = [])) →
    ∃ t, step s = .next t ∧
      t.seqEntry s.prog = (s.eng.elem s.prog).1 ∧
      (∀ off, ¬ (seqAddr s.prog ≤ off ∧ off < seqAddr s.prog + 8) → t.bufByte off = s.bufByte off) ∧
      t.status = { done := decide (s.status.done = true ∨ s.prog + 1 = s.eng.n), err := s.status.err,
                   nan := decide (s.status.nan = true ∨ Spec.IsNaN (s.eng.elem s.prog).1),
                   clamp := decide (s.status.clamp = true ∨ (s.eng.elem s.prog).2 = true) } ∧
      t.eng = { s.eng with s := (s.eng.elem s.prog).1, phase := if s.prog + 1 = s.eng.n then .idle else .run } ∧
      t.prog = s.prog + 1 ∧ t.agenda = rest ∧ t.ctrl = s.ctrl ∧ t.params = s.params ∧ t.seqDepth = s.seqDepth ∧
      t.keyDepth = s.keyDepth ∧ t.memBefore = s.memBefore ∧ t.bufEpoch = s.bufEpoch ∧ t.abandons = s.abandons ∧
      t.resp = s.resp

/-- R164, R165, R137: one engine step of a running KEY: below index ENG.size (warm-up) no buffer byte changes; from there on the
element's key byte goes to KEY_BUF[PROG - size] and nowhere else; SEQ_BUF is never written; flags, ENG.s, PROG and completion
as for GEN; everything else is unchanged. -/
def Obligations.KeyStepEffect : Prop :=
  ∀ (s : State) (rest : List Event), s.eng.phase = .run → s.eng.op = .key →
    (s.agenda = .engineTurn :: rest ∨ (s.agenda = [] ∧ rest = [])) →
    ∃ t, step s = .next t ∧
      (s.prog < s.eng.size → ∀ off, t.bufByte off = s.bufByte off) ∧
      (s.eng.size ≤ s.prog → t.keyByteAt (s.prog - s.eng.size) = keyByte (s.eng.elem s.prog).1 ∧
        ∀ off, off ≠ keyAddr (s.prog - s.eng.size) → t.bufByte off = s.bufByte off) ∧
      t.status = { done := decide (s.status.done = true ∨ s.prog + 1 = s.eng.n), err := s.status.err,
                   nan := decide (s.status.nan = true ∨ Spec.IsNaN (s.eng.elem s.prog).1),
                   clamp := decide (s.status.clamp = true ∨ (s.eng.elem s.prog).2 = true) } ∧
      t.eng = { s.eng with s := (s.eng.elem s.prog).1, phase := if s.prog + 1 = s.eng.n then .idle else .run } ∧
      t.prog = s.prog + 1 ∧ t.agenda = rest ∧ t.ctrl = s.ctrl ∧ t.params = s.params ∧ t.seqDepth = s.seqDepth ∧
      t.keyDepth = s.keyDepth ∧ t.memBefore = s.memBefore ∧ t.bufEpoch = s.bufEpoch ∧ t.abandons = s.abandons ∧
      t.resp = s.resp

/-- R230, R241: an idle engine takes no step: with nothing to come the machine waits unchanged, and an engine turn only passes. -/
def Obligations.IdleEngineWaits : Prop :=
  ∀ s : State, s.eng.phase = .idle →
    (s.agenda = [] → step s = .next s) ∧
    (∀ rest, s.agenda = .engineTurn :: rest → step s = .next { s with agenda := rest })

/-- R136 (with R130, R131, R134): however host accesses and engine steps interleave, when an accepted GEN_SEQ n has finished,
SEQ_BUF[k] = Seq(n, P)[k] for k < n with P the parameters at acceptance, and every other byte of both buffers holds what it held
before the acceptance. -/
def Obligations.GenSeqResult : Prop :=
  ∀ (s t u : State) (n k : Nat), s.eng.phase = .idle → n ≤ s.seqDepth →
    exec (.genSeq n) s = .next t → FinishesAt k t u →
    (∀ j < n, u.seqEntry j = seqElem n s.params j) ∧
    (∀ off, ¬ (seqAddr 0 ≤ off ∧ off < seqAddr n) → u.bufByte off = s.bufByte off) ∧
    u.prog = n

/-- R166 (with R162, R164): when an accepted DERIVE_KEY has finished, KEY_BUF[j] = KeyBytes(size, P)[j] for j < size, and every
other KEY_BUF byte and every SEQ_BUF entry holds what it held before the acceptance. -/
def Obligations.DeriveKeyResult : Prop :=
  ∀ (s t u : State) (size k : Nat), s.eng.phase = .idle → size ≤ s.keyDepth →
    exec (.deriveKey size) s = .next t → FinishesAt k t u →
    (∀ j < size, (keyList size s.params)[j]? = some (u.keyByteAt j)) ∧
    (∀ off, ¬ (keyAddr 0 ≤ off ∧ off < keyAddr size) → u.bufByte off = s.bufByte off) ∧
    u.prog = 2 * size

/-- R138, R168, R73: two accepted GEN_SEQ commands with the same n and the same parameter patterns leave the same entries, and two
accepted DERIVE_KEY commands with the same size and parameters the same key bytes, whatever else differs between the two machines
(CTRL, STATUS, buffers, depths, power-up draws) and whatever the interleavings. -/
def Obligations.ResultsDeterministic : Prop :=
  (∀ (s s' t t' u u' : State) (n k k' : Nat), s.eng.phase = .idle → s'.eng.phase = .idle →
    s.params = s'.params → n ≤ s.seqDepth → n ≤ s'.seqDepth →
    exec (.genSeq n) s = .next t → exec (.genSeq n) s' = .next t' → FinishesAt k t u → FinishesAt k' t' u' →
    ∀ j < n, u.seqEntry j = u'.seqEntry j) ∧
  (∀ (s s' t t' u u' : State) (size k k' : Nat), s.eng.phase = .idle → s'.eng.phase = .idle →
    s.params = s'.params → size ≤ s.keyDepth → size ≤ s'.keyDepth →
    exec (.deriveKey size) s = .next t → exec (.deriveKey size) s' = .next t' → FinishesAt k t u → FinishesAt k' t' u' →
    ∀ j < size, u.keyByteAt j = u'.keyByteAt j)

/-- R169: the sequence behind a key: GEN_SEQ (2 * size) with the same parameters, where it fits SEQ_BUF, leaves entries whose
second half has the key's bytes as its key bytes. -/
def Obligations.KeyIsOfItsSequence : Prop :=
  ∀ (s s' t t' u u' : State) (size k k' : Nat), s.eng.phase = .idle → s'.eng.phase = .idle →
    s.params = s'.params → size ≤ s.keyDepth → 2 * size ≤ s'.seqDepth →
    exec (.deriveKey size) s = .next t → exec (.genSeq (2 * size)) s' = .next t' →
    FinishesAt k t u → FinishesAt k' t' u' →
    ∀ j < size, u.keyByteAt j = keyByte (u'.seqEntry (size + j))

/-- R250, R135, R165: an operation that finishes has taken exactly n engine steps (GEN_SEQ n) or 2 * size (DERIVE_KEY size),
whatever host accesses come between them: of its steps, those that took an event other than an engine turn off the agenda are all
the others. Left to itself, with nothing to come, it does finish, after exactly those engine steps, with DONE = 1; that the engine
goes on when nothing is to come is the model's rendering of weak fairness (log 2). -/
def Obligations.ExactStepCount : Prop :=
  (∀ (s t u : State) (n k : Nat), s.eng.phase = .idle → n ≤ s.seqDepth → exec (.genSeq n) s = .next t →
    FinishesAt k t u → k = n + ((t.agenda.take k).filter (fun ev => ev ≠ .engineTurn)).length) ∧
  (∀ (s t u : State) (size k : Nat), s.eng.phase = .idle → size ≤ s.keyDepth → exec (.deriveKey size) s = .next t →
    FinishesAt k t u → k = 2 * size + ((t.agenda.take k).filter (fun ev => ev ≠ .engineTurn)).length) ∧
  (∀ (s t : State) (n : Nat), s.eng.phase = .idle → s.agenda = [] → n ≤ s.seqDepth → exec (.genSeq n) s = .next t →
    ∃ u, FinishesAt n t u ∧ u.prog = n) ∧
  (∀ (s t : State) (size : Nat), s.eng.phase = .idle → s.agenda = [] → size ≤ s.keyDepth →
    exec (.deriveKey size) s = .next t → ∃ u, FinishesAt (2 * size) t u ∧ u.prog = 2 * size)

/-- R74, R250: from every safe state whose coming host accesses lie in the window, whatever they are, the machine is idle again
after at most as many steps as there are events to come and elements still to produce. That the engine goes on when nothing is to
come is the model's rendering of weak fairness (log 2). -/
def Obligations.EveryOperationEnds : Prop :=
  ∀ s : State, s.Inv → (∀ ev ∈ s.agenda, ev.inWindow) →
    ∃ k ≤ s.agenda.length + (s.eng.n - s.prog), ∃ t, Reaches k s t ∧ t.busy = false

/-! ### Numerics -/

/-- R121: the sum, difference, product and quotient of finite numbers are the exact real result rounded once to binary64, ties to
even, with gradual underflow and overflow to an infinity of the right sign. The overflow threshold 2^1024 - 2^970 is IEEE 754's,
which the spec names and does not write out (log 14). -/
def Obligations.OperationsRoundOnce : Prop :=
  ∀ a b : F64, Spec.Finite a → Spec.Finite b →
    Spec.RoundsTo (Spec.value a + Spec.value b) (fadd a b) ∧
    Spec.RoundsTo (Spec.value a - Spec.value b) (fsub a b) ∧
    Spec.RoundsTo (Spec.value a * Spec.value b) (fmul a b) ∧
    (Spec.value b ≠ 0 → Spec.RoundsTo (Spec.value a / Spec.value b) (fdiv a b))

/-- R121, R122: the special cases: what each operation gives on infinities and zeros, and the sign of every zero that is an exact
result: a zero sum, difference, product and quotient. The cases are IEEE 754's, which the spec names and does not write out
(log 14). -/
def Obligations.SpecialOperands : Prop :=
  (∀ a b : F64, Spec.Finite a → Spec.Finite b → Spec.value a + Spec.value b = 0 →
    fadd a b = if fSign a = true ∧ fSign b = true then 0x8000000000000000#64 else 0x0000000000000000#64) ∧
  (∀ a b : F64, Spec.Finite a → Spec.Finite b → Spec.value a - Spec.value b = 0 →
    fsub a b = if fSign a = true ∧ fSign b = false then 0x8000000000000000#64 else 0x0000000000000000#64) ∧
  (∀ (a b : F64) (sa : Bool), Spec.IsInf a sa → Spec.Finite b →
    Spec.IsInf (fadd a b) sa ∧ Spec.IsInf (fadd b a) sa ∧ Spec.IsInf (fsub a b) sa ∧ Spec.IsInf (fsub b a) (!sa) ∧
    Spec.IsInf (fdiv a b) (sa != fSign b) ∧ Spec.value (fdiv b a) = 0 ∧ Spec.Finite (fdiv b a) ∧
    fSign (fdiv b a) = (sa != fSign b) ∧
    (Spec.value b ≠ 0 → Spec.IsInf (fmul a b) (sa != fSign b) ∧ Spec.IsInf (fmul b a) (sa != fSign b)) ∧
    (Spec.value b = 0 → fmul a b = cnan ∧ fmul b a = cnan)) ∧
  (∀ (a b : F64) (sa sb : Bool), Spec.IsInf a sa → Spec.IsInf b sb →
    (sa = sb → Spec.IsInf (fadd a b) sa ∧ fsub a b = cnan) ∧
    (sa ≠ sb → fadd a b = cnan ∧ Spec.IsInf (fsub a b) sa) ∧
    Spec.IsInf (fmul a b) (sa != sb) ∧ fdiv a b = cnan) ∧
  (∀ a b : F64, Spec.Finite a → Spec.Finite b → Spec.value b = 0 →
    (Spec.value a ≠ 0 → Spec.IsInf (fdiv a b) (fSign a != fSign b)) ∧ (Spec.value a = 0 → fdiv a b = cnan)) ∧
  (∀ a b : F64, Spec.Finite a → Spec.Finite b → Spec.value a = 0 → Spec.value b ≠ 0 →
    Spec.Finite (fdiv a b) ∧ Spec.value (fdiv a b) = 0 ∧ fSign (fdiv a b) = (fSign a != fSign b)) ∧
  (∀ a b : F64, Spec.Finite a → Spec.Finite b → Spec.value a * Spec.value b = 0 →
    Spec.Finite (fmul a b) ∧ Spec.value (fmul a b) = 0 ∧ fSign (fmul a b) = (fSign a != fSign b))

/-- R122: a NaN operand makes every operation deliver CNAN, and an operation that delivers a NaN delivers CNAN; element 0 keeps
the latched `x0` pattern unchanged, even when it is a NaN. -/
def Obligations.NanResultsCanonical : Prop :=
  (∀ a b : F64, Spec.IsNaN a ∨ Spec.IsNaN b →
    fadd a b = 0x7FF8000000000000#64 ∧ fsub a b = 0x7FF8000000000000#64 ∧ fmul a b = 0x7FF8000000000000#64 ∧
    fdiv a b = 0x7FF8000000000000#64) ∧
  (∀ a b : F64, (Spec.IsNaN (fadd a b) → fadd a b = 0x7FF8000000000000#64) ∧
    (Spec.IsNaN (fsub a b) → fsub a b = 0x7FF8000000000000#64) ∧
    (Spec.IsNaN (fmul a b) → fmul a b = 0x7FF8000000000000#64) ∧
    (Spec.IsNaN (fdiv a b) → fdiv a b = 0x7FF8000000000000#64)) ∧
  (∀ e : Eng, (e.elem 0).1 = e.lat.x0)

/-- R123: the comparisons are those of the real values, an infinity beyond every finite number, -0.0 equal to +0.0, and false
with a NaN operand. -/
def Obligations.ComparisonsAreRealOrder : Prop :=
  (∀ a b : F64, Spec.Finite a → Spec.Finite b →
    (fle a b = true ↔ Spec.value a ≤ Spec.value b) ∧ (fge a b = true ↔ Spec.value a ≥ Spec.value b)) ∧
  (∀ (a b : F64) (neg : Bool), Spec.IsInf a neg → Spec.Finite b →
    fle a b = neg ∧ fge a b = !neg ∧ fle b a = !neg ∧ fge b a = neg) ∧
  (∀ (a b : F64) (na nb : Bool), Spec.IsInf a na → Spec.IsInf b nb →
    fle a b = (na || !nb) ∧ fge a b = (nb || !na)) ∧
  (∀ a b : F64, Spec.IsNaN a ∨ Spec.IsNaN b → fle a b = false ∧ fge a b = false) ∧
  fle 0x8000000000000000#64 0x0000000000000000#64 = true ∧ fge 0x8000000000000000#64 0x0000000000000000#64 = true

/-- R124: every integer the CRE converts, at most 131072, is converted exactly. -/
def Obligations.IntegersConvertExactly : Prop :=
  ∀ k : Nat, k ≤ 131072 → Spec.Finite (f64 k) ∧ fSign (f64 k) = false ∧ Spec.value (f64 k) = k

/-- R126: `frac` is `(i+1)/n` as a real quotient, correctly rounded, is never 0, and is exactly 1.0 at i = n - 1. -/
def Obligations.EnvelopeFraction : Prop :=
  ∀ i n : Nat, 1 ≤ i → i + 1 ≤ n → n ≤ 131072 →
    Spec.RoundsTo (((i : ℚ) + 1) / n) (envFrac i n) ∧ Spec.value (envFrac i n) ≠ 0 ∧
    (i + 1 = n → envFrac i n = 0x3FF0000000000000#64)

/-- R125, R126, R127: the envelope is `q + frac * (p - q)` and, at odd `i + 1`, its reflection `(p - d0) + q`, each operation
rounded once in the nesting of the rules; at the spec's own example, where a fused multiply-add gives another pattern, it gives
the unfused one. -/
def Obligations.EnvelopeUnfused : Prop :=
  (∀ (i n : Nat) (p q : F64),
    env i n p q =
      if (i + 1) % 2 = 1 then
        fadd (fsub p (fadd q (fmul (fdiv (f64 (i + 1)) (f64 n)) (fsub p q)))) q
      else fadd q (fmul (fdiv (f64 (i + 1)) (f64 n)) (fsub p q))) ∧
  env 4 6 0x3FE999999999999A#64 0x3FC999999999999A#64 = 0x3FD3333333333331#64

/-- R129: the guard on real values: an infinity, a value <= 0 (either zero included) or >= 1 becomes 0.5 and is marked clamped;
every other value, a positive subnormal among them, and a NaN are kept and not marked. -/
def Obligations.GuardOnRealValues : Prop :=
  (∀ v : F64, Spec.Finite v → (Spec.value v ≤ 0 ∨ 1 ≤ Spec.value v) → guardValue v = (0x3FE0000000000000#64, true)) ∧
  (∀ (v : F64) (neg : Bool), Spec.IsInf v neg → guardValue v = (0x3FE0000000000000#64, true)) ∧
  (∀ v : F64, Spec.Finite v → 0 < Spec.value v → Spec.value v < 1 → guardValue v = (v, false)) ∧
  (∀ v : F64, Spec.IsNaN v → guardValue v = (v, false))

/-- R132: for every length and every parameters, NaN, infinite or finite, element 0 is `x0` and each later element is CNAN or a
finite number strictly between 0 and 1; once an element with index >= 1 is NaN, every later one is CNAN. -/
def Obligations.ElementRange : Prop :=
  ∀ (n : Nat) (ps : Params),
    seqElem n ps 0 = ps.x0 ∧
    (∀ i, 1 ≤ i → seqElem n ps i = 0x7FF8000000000000#64 ∨
      (Spec.Finite (seqElem n ps i) ∧ 0 < Spec.value (seqElem n ps i) ∧ Spec.value (seqElem n ps i) < 1)) ∧
    (∀ i j, 1 ≤ i → i ≤ j → Spec.IsNaN (seqElem n ps i) → seqElem n ps j = 0x7FF8000000000000#64)

/-- R160: the key byte: 0x00 for a NaN, 0x00 when the product with 256.0 is an infinity, else the floor of the rounded product's
real value, modulo 256. -/
def Obligations.KeyByteRule : Prop :=
  (∀ v : F64, Spec.IsNaN v → keyByte v = 0x00#8) ∧
  (∀ (v : F64) (neg : Bool), Spec.IsInf (fmul v 0x4070000000000000#64) neg → keyByte v = 0x00#8) ∧
  (∀ v : F64, ¬ Spec.IsNaN v → Spec.Finite (fmul v 0x4070000000000000#64) →
    ((keyByte v).toNat : ℤ) = ⌊Spec.value (fmul v 0x4070000000000000#64)⌋ % 256)

/-- R161: on every element in (0, 1) the product with 256.0 is exact and lies in (0, 256), so the key byte is `b` exactly when
`b/256 <= v < (b+1)/256`. -/
def Obligations.KeyByteExact : Prop :=
  ∀ v : F64, Spec.Finite v → 0 < Spec.value v → Spec.value v < 1 →
    Spec.Finite (fmul v 0x4070000000000000#64) ∧
    Spec.value (fmul v 0x4070000000000000#64) = Spec.value v * 256 ∧
    ∀ b : Nat, b < 256 → ((keyByte v).toNat = b ↔ (b : ℚ) / 256 ≤ Spec.value v ∧ Spec.value v < ((b : ℚ) + 1) / 256)

/-! ### Registers and the port -/

/-- R63, R66, R69: with legal depths the model's valid accesses are exactly those of the access table, every one is naturally
aligned, and every access to a reserved offset is invalid. -/
def Obligations.AccessTable : Prop :=
  ∀ (seqDepth keyDepth off : Nat) (w : Width) (dir : Dir), seqDepth ≤ 8192 → keyDepth ≤ 65536 →
    ((∃ row, validRow seqDepth keyDepth off w dir = some row) ↔ Spec.ValidAccess seqDepth keyDepth off w dir) ∧
    (Spec.ValidAccess seqDepth keyDepth off w dir → off % w.bytes = 0) ∧
    ((0x0001C ≤ off ∧ off < 0x00020) ∨ (0x00040 ≤ off ∧ off < 0x10000) ∨ (0x10000 + 8 * seqDepth ≤ off ∧ off < 0x20000) ∨
      0x20000 + keyDepth ≤ off → ¬ Spec.ValidAccess seqDepth keyDepth off w dir)

/-- R67, R215: an access that the access table does not allow responds ERROR; a read returns 0 and changes nothing; a write
raises BUS and changes nothing else. -/
def Obligations.InvalidAccess : Prop :=
  ∀ (s : State) (rest : List Event) (off : Nat) (w : Width), s.seqDepth ≤ 8192 → s.keyDepth ≤ 65536 → off < 0x30000 →
    (s.agenda = .read off w :: rest → ¬ Spec.ValidAccess s.seqDepth s.keyDepth off w .read →
      step s = .next { s with agenda := rest, resp := some (.read .error 0#64) }) ∧
    (∀ data, s.agenda = .write off w data :: rest → ¬ Spec.ValidAccess s.seqDepth s.keyDepth off w .write →
      step s = .next { Spec.raise .bus { s with agenda := rest } with resp := some (.write .error) })

/-- R67: a valid access responds OKAY, a valid write whatever its effect. -/
def Obligations.ValidAccessOkay : Prop :=
  ∀ (s : State) (rest : List Event) (off : Nat) (w : Width), s.seqDepth ≤ 8192 → s.keyDepth ≤ 65536 →
    (s.agenda = .read off w :: rest → Spec.ValidAccess s.seqDepth s.keyDepth off w .read →
      ∃ data, step s = .next { s with agenda := rest, resp := some (.read .okay data) }) ∧
    (∀ data, s.agenda = .write off w data :: rest → Spec.ValidAccess s.seqDepth s.keyDepth off w .write →
      ∃ t, step s = .next t ∧ t.resp = some (.write .okay))

/-- R68: a read of any offset of the window, valid or invalid, of any width, changes no state: only the port's answer, which
depends on the state alone. -/
def Obligations.ReadsHaveNoSideEffect : Prop :=
  ∀ (s : State) (rest : List Event) (off : Nat) (w : Width), s.agenda = .read off w :: rest → off < 0x30000 →
    ∃ answer, step s = .next { s with agenda := rest, resp := some answer } ∧
      ∀ s' rest', s'.agenda = .read off w :: rest' → { s' with agenda := [], resp := none } = { s with agenda := [], resp := none } →
        step s' = .next { s' with agenda := rest', resp := some answer }

/-- R60 (log 9): a host access outside the window is not the block's: the model stops there, and nowhere else. -/
def Obligations.OnlyOutsideWindowStops : Prop :=
  ∀ s : State, (∀ t, step s ≠ .next t) ↔
    ∃ off rest, 0x30000 ≤ off ∧ ((∃ w, s.agenda = .read off w :: rest) ∨ ∃ w data, s.agenda = .write off w data :: rest)

/-- R64 (with R34 to R39, R63): reads are little-endian: a parameter register or SEQ_BUF entry read whole, or by halves, low
half at the lower offset; a KEY_BUF read of w bytes has byte k + j as its byte j, and zeros above. -/
def Obligations.ReadsAreLittleEndian : Prop :=
  ∀ (s : State) (rest : List Event), s.seqDepth ≤ 8192 → s.keyDepth ≤ 65536 →
    (∀ (base : Nat) (v : F64),
      (base, v) ∈ [(0x20, s.params.r), (0x28, s.params.x0), (0x30, s.params.p), (0x38, s.params.q)] ∨
        (∃ k < s.seqDepth, base = 0x10000 + 8 * k ∧ v = s.seqEntry k) →
      (s.agenda = .read base .w8 :: rest → step s = .next { s with agenda := rest, resp := some (.read .okay v) }) ∧
      (s.agenda = .read base .w4 :: rest →
        step s = .next { s with agenda := rest, resp := some (.read .okay ((v.extractLsb' 0 32).setWidth 64)) }) ∧
      (s.agenda = .read (base + 4) .w4 :: rest →
        step s = .next { s with agenda := rest, resp := some (.read .okay ((v.extractLsb' 32 32).setWidth 64)) })) ∧
    (∀ (k : Nat) (w : Width), s.agenda = .read (0x20000 + k) w :: rest → k % w.bytes = 0 → k + w.bytes ≤ s.keyDepth →
      ∃ data : BitVec 64, step s = .next { s with agenda := rest, resp := some (.read .okay data) } ∧
        (∀ j < w.bytes, data.extractLsb' (8 * j) 8 = s.keyByteAt (k + j)) ∧ data.toNat < 2 ^ (8 * w.bytes))

/-- R65, R34 to R37: while idle a valid 8-byte write to a parameter register sets it, a 4-byte write at its base its low half, a
4-byte write at base + 4 its high half; the other half, the other registers and everything else keep their values; the response is
OKAY. While busy each of them responds OKAY, changes no register bit and raises BUSY_WRITE. -/
def Obligations.ParamWrites : Prop :=
  ∀ (s : State) (rest : List Event) (data : BitVec 64) (which : ParamReg) (base : Nat),
    (which, base) ∈ [(ParamReg.r, 0x20), (ParamReg.x0, 0x28), (ParamReg.p, 0x30), (ParamReg.q, 0x38)] →
    (s.eng.phase = .idle → s.agenda = .write base .w8 data :: rest →
      step s = .next { s with agenda := rest, resp := some (.write .okay), params := s.params.set which data }) ∧
    (s.eng.phase = .idle → s.agenda = .write base .w4 data :: rest →
      step s = .next { s with
        agenda := rest
        resp := some (.write .okay)
        params := s.params.set which ((s.params.get which).extractLsb' 32 32 ++ data.extractLsb' 0 32) }) ∧
    (s.eng.phase = .idle → s.agenda = .write (base + 4) .w4 data :: rest →
      step s = .next { s with
        agenda := rest
        resp := some (.write .okay)
        params := s.params.set which (data.extractLsb' 0 32 ++ (s.params.get which).extractLsb' 0 32) }) ∧
    (s.eng.phase = .run →
      (s.agenda = .write base .w8 data :: rest ∨ s.agenda = .write base .w4 data :: rest ∨
        s.agenda = .write (base + 4) .w4 data :: rest) →
      step s = .next { Spec.raise .busyWrite { s with agenda := rest } with resp := some (.write .okay) }) ∧
    (∀ v, (s.params.set which v).get which = v ∧ ∀ other, other ≠ which → (s.params.set which v).get other = s.params.get other)

/-- R21: ID reads 0x43524531 in every state; a write to it of any width raises BUS, responds ERROR and changes nothing else;
its value is a constant of the block, so it is that at reset. -/
def Obligations.IdRegister : Prop :=
  ∀ (s : State) (rest : List Event),
    (s.agenda = .read 0x00000 .w4 :: rest →
      step s = .next { s with agenda := rest, resp := some (.read .okay 0x43524531#64) }) ∧
    (∀ w data, s.agenda = .write 0x00000 w data :: rest →
      step s = .next { Spec.raise .bus { s with agenda := rest } with resp := some (.write .error) })

/-- R22, R23: SEQ_DEPTH and KEY_DEPTH read the instance's depths, in 1..8192 and 1..65536 (bits above 13 and 16 read 0), hold the
parameters at reset, never change, and are the largest lengths GEN_SEQ and DERIVE_KEY accept; a write to either raises BUS and
changes nothing else. -/
def Obligations.DepthRegisters : Prop :=
  (∀ (s : State) (rest : List Event), s.Inv →
    (s.agenda = .read 0x00004 .w4 :: rest → ∃ data : BitVec 64,
      step s = .next { s with agenda := rest, resp := some (.read .okay data) } ∧ data.toNat = s.seqDepth ∧
      1 ≤ data.toNat ∧ data.toNat ≤ 8192) ∧
    (s.agenda = .read 0x00008 .w4 :: rest → ∃ data : BitVec 64,
      step s = .next { s with agenda := rest, resp := some (.read .okay data) } ∧ data.toNat = s.keyDepth ∧
      1 ≤ data.toNat ∧ data.toNat ≤ 65536)) ∧
  (∀ (s : State) (rest : List Event) (off : Nat) (w : Width) (data : BitVec 64), off = 0x00004 ∨ off = 0x00008 →
    s.agenda = .write off w data :: rest →
    step s = .next { Spec.raise .bus { s with agenda := rest } with resp := some (.write .error) }) ∧
  (∀ s t : State, step s = .next t → t.seqDepth = s.seqDepth ∧ t.keyDepth = s.keyDepth) ∧
  (∀ (s : State) (len : Nat), s.eng.phase = .idle →
    (exec (.genSeq len) s = .next (Spec.raise .lenRange s) ↔ s.seqDepth < len) ∧
    (exec (.deriveKey len) s = .next (Spec.raise .lenRange s) ↔ s.keyDepth < len)) ∧
  State.reset.seqDepth = Config.seqDepth ∧ State.reset.keyDepth = Config.keyDepth

/-- R24: a 4-byte write `v` to CTRL sets IE_DONE to v[0] and IE_ERR to v[1], ignores v[31:2], responds OKAY, busy or not, and
changes nothing else; a 4-byte read returns the two bits and zeros; IE_DONE enables IRQ when DONE is set and IE_ERR when ERR is
not 0; what the engine computes does not depend on CTRL; CTRL is 0 at reset. -/
def Obligations.CtrlRegister : Prop :=
  (∀ (s : State) (rest : List Event) (data : BitVec 64), s.agenda = .write 0x0000C .w4 data :: rest →
    step s = .next { s with agenda := rest, resp := some (.write .okay), ctrl := ⟨data.getLsbD 0, data.getLsbD 1⟩ }) ∧
  (∀ (s : State) (rest : List Event), s.agenda = .read 0x0000C .w4 :: rest → ∃ data : BitVec 64,
    step s = .next { s with agenda := rest, resp := some (.read .okay data) } ∧
    data.getLsbD 0 = s.ctrl.ieDone ∧ data.getLsbD 1 = s.ctrl.ieErr ∧ ∀ j, 2 ≤ j → data.getLsbD j = false) ∧
  (∀ s : State, s.irq = true ↔ (s.ctrl.ieDone = true ∧ s.status.done = true) ∨
    (s.ctrl.ieErr = true ∧ s.status.err ≠ .noError)) ∧
  (∀ (s : State) (c : Ctrl), State.engineTurn { s with ctrl := c } = { s.engineTurn with ctrl := c }) ∧
  State.reset.ctrl = { ieDone := false, ieErr := false }

/-- R25: a 4-byte read of CMD responds OKAY with 0 and has no effect. -/
def Obligations.CmdReadsZero : Prop :=
  ∀ (s : State) (rest : List Event), s.agenda = .read 0x00010 .w4 :: rest →
    step s = .next { s with agenda := rest, resp := some (.read .okay 0#64) }

/-- R26 to R32, R42: the host reads STATUS with each field at its bits, BUSY exactly while RUN, IRQ the level
(IE_DONE and DONE) or (IE_ERR and ERR != 0), and 0 in every reserved bit; IRQ is 0 at reset; a write raises BUS and changes no
other field. -/
def Obligations.StatusRegister : Prop :=
  (∀ (s : State) (rest : List Event), s.agenda = .read 0x00014 .w4 :: rest → ∃ data : BitVec 64,
    step s = .next { s with agenda := rest, resp := some (.read .okay data) } ∧
    data.getLsbD 0 = decide (s.eng.phase = .run) ∧ data.getLsbD 1 = s.status.done ∧
    data.extractLsb' 4 4 = s.status.err.code ∧ data.getLsbD 8 = s.status.nan ∧ data.getLsbD 9 = s.status.clamp ∧
    data.getLsbD 10 = ((s.ctrl.ieDone && s.status.done) || (s.ctrl.ieErr && decide (s.status.err.code ≠ 0#4))) ∧
    data.getLsbD 10 = s.irq ∧
    ∀ j, j = 2 ∨ j = 3 ∨ 11 ≤ j → data.getLsbD j = false) ∧
  State.reset.irq = false ∧
  (∀ (s : State) (rest : List Event) (w : Width) (data : BitVec 64), s.agenda = .write 0x00014 w data :: rest →
    step s = .next { Spec.raise .bus { s with agenda := rest } with resp := some (.write .error) })

/-- R33: the host reads PROG's count at 0x00018 in every safe state; a write raises BUS and changes nothing else. -/
def Obligations.ProgRegister : Prop :=
  (∀ (s : State) (rest : List Event), s.Inv → s.agenda = .read 0x00018 .w4 :: rest → ∃ data : BitVec 64,
    step s = .next { s with agenda := rest, resp := some (.read .okay data) } ∧ data.toNat = s.prog ∧ s.prog ≤ 131072) ∧
  (∀ (s : State) (rest : List Event) (w : Width) (data : BitVec 64), s.agenda = .write 0x00018 w data :: rest →
    step s = .next { Spec.raise .bus { s with agenda := rest } with resp := some (.write .error) })

/-! ### Rules of the whole machine -/

/-- R70, with the exception of R193: a host access other than a SOFT_RESET that abandons an operation (log 7: that one may put the
old or the new value into entries of the abandoned output range) changes no buffer byte, and the free draw behind the unwritten ones
changes only at hardware reset. -/
def Obligations.BuffersWrittenByEngineOnly : Prop :=
  ∀ (s t : State) (ev : Event) (rest : List Event), s.agenda = ev :: rest → step s = .next t →
    ev ≠ .engineTurn → ev ≠ .hardReset →
    (s.eng.phase = .idle ∨ ∀ data, ev = .write 0x00010 .w4 data → data.toNat % 2 ^ 32 ≠ 4) →
    ∀ off, t.bufByte off = s.bufByte off

/-- R26: BUSY goes from 0 to 1 only by the acceptance of a GEN_SEQ or DERIVE_KEY of nonzero length, and from 1 to 0 only by the
engine step of the last element, by SOFT_RESET or by hardware reset. -/
def Obligations.BusyChangesOnlyBy : Prop :=
  ∀ (s t : State), step s = .next t →
    (s.busy = false → t.busy = true →
      ∃ data rest i, s.agenda = .write 0x00010 .w4 data :: rest ∧ decodeWord (data.extractLsb' 0 32) = .ok i ∧
        ((∃ n, i = .genSeq n ∧ 1 ≤ n ∧ n ≤ s.seqDepth) ∨ (∃ size, i = .deriveKey size ∧ 1 ≤ size ∧ size ≤ s.keyDepth))) ∧
    (s.busy = true → t.busy = false →
      (t.prog = s.prog + 1 ∧ t.prog = s.eng.n ∧ t.status.done = true) ∨
      (∃ data rest, s.agenda = .write 0x00010 .w4 data :: rest ∧ data.toNat % 2 ^ 32 = 4) ∨
      (∃ rest, s.agenda = .hardReset :: rest))

/-- R28, R212 to R216: ERR changes only to the code of the error event that raises it (an invalid write BUS; a CMD or parameter
write while busy BUSY_WRITE; an undecodable word while idle ILLEGAL_CMD; a length above the depth while idle LEN_RANGE), or to NONE by
a command other than NOP or by hardware reset. An engine step, a read, a CTRL write and a NOP leave it. -/
def Obligations.ErrChangesOnlyBy : Prop :=
  ∀ (s t : State), step s = .next t → t.status.err ≠ s.status.err →
    (t.status.err = .noError ∧ ∃ rest, s.agenda = .hardReset :: rest) ∨
    ∃ off w data rest, s.agenda = .write off w data :: rest ∧
      ((t.status.err = .bus ∧ t.resp = some (.write .error)) ∨
       (t.resp = some (.write .okay) ∧
        ((t.status.err = .busyWrite ∧ s.busy = true ∧ (off = 0x10 ∨ (0x20 ≤ off ∧ off < 0x40))) ∨
         (off = 0x10 ∧ w = .w4 ∧
          ((t.status.err = .illegalCmd ∧ s.busy = false ∧ ∃ e, decodeWord (data.extractLsb' 0 32) = .error e) ∨
           (t.status.err = .lenRange ∧ s.busy = false ∧
            ∃ n, (decodeWord (data.extractLsb' 0 32) = .ok (.genSeq n) ∧ s.seqDepth < n) ∨
              (decodeWord (data.extractLsb' 0 32) = .ok (.deriveKey n) ∧ s.keyDepth < n)) ∨
           (t.status.err = .noError ∧ ∃ i, decodeWord (data.extractLsb' 0 32) = .ok i ∧ i ≠ .nop))))))

/-- R29, R30, R137: NAN is set only by an engine step of a running operation whose element is a NaN, CLAMP only by one whose
raw value the guard replaced; either is cleared only by hardware reset or by a CMD write that is a SOFT_RESET, a CLR_STATUS taken
while idle, or the acceptance of a GEN_SEQ or DERIVE_KEY, and then together with the other, ERR and DONE (but the DONE of a zero
length accepted). -/
def Obligations.NumericFlagsChangeOnlyBy : Prop :=
  ∀ (s t : State), step s = .next t →
    (s.status.nan = false → t.status.nan = true → s.busy = true ∧ t.prog = s.prog + 1 ∧
      (s.agenda = [] ∨ ∃ rest, s.agenda = .engineTurn :: rest) ∧ Spec.IsNaN (s.eng.elem s.prog).1) ∧
    (s.status.clamp = false → t.status.clamp = true → s.busy = true ∧ t.prog = s.prog + 1 ∧
      (s.agenda = [] ∨ ∃ rest, s.agenda = .engineTurn :: rest) ∧ (s.eng.elem s.prog).2 = true) ∧
    ((s.status.nan = true ∧ t.status.nan = false) ∨ (s.status.clamp = true ∧ t.status.clamp = false) →
      (t.status.err = .noError ∧ t.status.nan = false ∧ t.status.clamp = false ∧ (t.status.done = true → t.eng.n = 0)) ∧
      ((∃ rest, s.agenda = .hardReset :: rest) ∨
       ∃ data rest i, s.agenda = .write 0x00010 .w4 data :: rest ∧ decodeWord (data.extractLsb' 0 32) = .ok i ∧
        (i = .softReset ∨ (s.busy = false ∧ (i = .clrStatus ∨ (∃ n, i = .genSeq n ∧ n ≤ s.seqDepth) ∨
          ∃ size, i = .deriveKey size ∧ size ≤ s.keyDepth)))))

/-- R33, R44: PROG advances by 1, by an engine step alone, or is set to 0; nothing else changes it. -/
def Obligations.ProgMovesByOneOrToZero : Prop :=
  ∀ (s t : State), step s = .next t →
    t.prog = s.prog ∨ t.prog = 0 ∨
    (t.prog = s.prog + 1 ∧ s.busy = true ∧ (s.agenda = [] ∨ ∃ rest, s.agenda = .engineTurn :: rest))

/-- R240, R241: the state after hardware reset: the depths the parameters, CTRL, STATUS, PROG and the parameter registers 0, the
engine idle, IRQ 0, ID its constant; it takes no engine step; and the reset input gives the same registers from every state,
abandoning a running operation. The model's choices in it: that nothing is to come at reset, so that the machine waits (log 12,
log 20), the free draw of every buffer byte and its number (log 5, log 20), the reset input as an event (log 11). -/
def Obligations.HardwareReset : Prop :=
  (State.reset.ctrlWord = 0#32 ∧ State.reset.statusWord = 0#32 ∧ State.reset.irq = false ∧ State.reset.prog = 0 ∧
    State.reset.params = { r := 0#64, x0 := 0#64, p := 0#64, q := 0#64 } ∧ State.reset.eng.phase = .idle ∧
    State.reset.seqDepth = Config.seqDepth ∧ State.reset.keyDepth = Config.keyDepth ∧
    (∀ off, State.reset.bufByte off = Config.bufferPowerUp 0 off) ∧ step State.reset = .next State.reset ∧
    (∀ rest, step { State.reset with agenda := .read 0x00000 .w4 :: rest } =
      .next { State.reset with agenda := rest, resp := some (.read .okay 0x43524531#64) })) ∧
  (∀ (s : State) (rest : List Event), s.agenda = .hardReset :: rest → ∃ t, step s = .next t ∧
    t.ctrlWord = 0#32 ∧ t.statusWord = 0#32 ∧ t.irq = false ∧ t.prog = 0 ∧
    t.params = { r := 0#64, x0 := 0#64, p := 0#64, q := 0#64 } ∧ t.eng.phase = .idle ∧
    t.seqDepth = s.seqDepth ∧ t.keyDepth = s.keyDepth ∧
    (∀ off, t.bufByte off = Config.bufferPowerUp (s.bufEpoch + 1) off) ∧ t.agenda = rest)

/-- R242: SOFT_RESET and hardware reset leave the same registers and the engine idle. -/
def Obligations.SoftResetMatchesHardReset : Prop :=
  ∀ (s t : State), exec .softReset s = .next t →
    t.ctrl = s.hardReset.ctrl ∧ t.status = s.hardReset.status ∧ t.prog = s.hardReset.prog ∧
    t.params = s.hardReset.params ∧ t.eng.phase = s.hardReset.eng.phase ∧ t.seqDepth = s.hardReset.seqDepth ∧
    t.keyDepth = s.hardReset.keyDepth ∧ t.statusWord = s.hardReset.statusWord ∧ t.irq = s.hardReset.irq

/-! ### Invariants -/

/-- The state after reset is safe and has nothing under way. -/
def Obligations.ResetIsSafe : Prop := State.reset.Inv ∧ State.reset.Tracks

/-- Every step keeps the invariant: legal depths, buffers in canonical form and inside the windows, PROG bounded and below ENG.n
while RUN, DONE 0 while RUN, latches equal to the registers while RUN, the running operation within its buffer (R22, R23, R26,
R27, R33, R38 to R41, R44). -/
def Obligations.StepKeepsInv : Prop := ∀ s t : State, s.Inv → step s = .next t → t.Inv

/-- Every step, whatever the event, keeps what the running operation has done so far: the elements produced are those of the
sequence function at their places and everything else is as before the acceptance (R72, R130, R134, R164). -/
def Obligations.StepKeepsTracks : Prop := ∀ s t : State, s.Tracks → step s = .next t → t.Tracks

/-! ### The recurrence -/

/-- R128, R130, R131: element 0 is the latched `x0`, never clamped; for k >= 1 the engine's element is the guard of
`((r * s) * (1.0 - s)) * Env(k, n, p, q)`, one rounded operation each, on the latched parameters and the previous element; `Seq(n, P)`
has n elements, `x0` first and each later one from the one before it by the same formula; at the source's own scenario (V-G1) it is
the spec's five values. -/
def Obligations.ElementRecurrence : Prop :=
  (∀ e : Eng, e.elem 0 = (e.lat.x0, false)) ∧
  (∀ (e : Eng) (k : Nat), 1 ≤ k →
    e.elem k = guardValue (fmul (fmul (fmul e.lat.r e.s) (fsub 0x3FF0000000000000#64 e.s)) (env k e.n e.lat.p e.lat.q))) ∧
  (∀ (n : Nat) (ps : Params), (seqList n ps).length = n ∧ (∀ i < n, (seqList n ps)[i]? = some (seqElem n ps i)) ∧
    seqElem n ps 0 = ps.x0 ∧
    ∀ i, 1 ≤ i → seqElem n ps i = (guardValue (fmul (fmul (fmul ps.r (seqElem n ps (i - 1)))
      (fsub 0x3FF0000000000000#64 (seqElem n ps (i - 1)))) (env i n ps.p ps.q))).1) ∧
  seqList 5 ⟨0x400F333333333333#64, 0x3FE0000000000000#64, 0x3FE999999999999A#64, 0x3FC999999999999A#64⟩ =
    [0x3FE0000000000000#64, 0x3FDB74BC6A7EF9DC#64, 0x3FDAE70231776023#64, 0x3FE4AD77B0A80DB0#64, 0x3FC6D3A287CEBC5D#64]
end

