-- ==== Sys2Proof/Laws/Memory.lean ====
section
/-! SUPPORT. The buffers' memory: reading after a write, the canonical form kept by every operation, and that two canonical
memories which read alike are the same data. None of the reading lemmas needs the canonical form. -/

namespace Sys2Proof.Machine

theorem Memory.read_nil (off : Nat) : Memory.read [] off = none := rfl

/-- Reading after one write (R72). -/
theorem Memory.read_write (m : Memory) (a : Nat) (v : Byte) (x : Nat) :
    (Memory.write m a v).read x = if x = a then some v else Memory.read m x := by
  induction m with
  | nil => by_cases h : x = a <;> simp [Memory.write, Memory.read, h]
  | cons cell m ih =>
    obtain ⟨c, b⟩ := cell
    simp only [Memory.write]
    split
    · by_cases h : x = a <;> simp [Memory.read, h]
    · split
      · next h => subst h; by_cases h : x = a <;> simp [Memory.read, h]
      · next h₁ h₂ =>
        simp only [Memory.read, ih]
        by_cases hc : x = c
        · subst hc; simp [Ne.symm h₂]
        · simp [hc]

theorem Memory.read_write_same (m : Memory) (a : Nat) (v : Byte) : (Memory.write m a v).read a = some v := by
  simp [Memory.read_write]

theorem Memory.read_write_other {m : Memory} {a x : Nat} {v : Byte} (h : x ≠ a) :
    (Memory.write m a v).read x = Memory.read m x := by simp [Memory.read_write, h]

theorem Memory.read_unlist (m : Memory) (a x : Nat) :
    (Memory.unlist m a).read x = if x = a then none else Memory.read m x := by
  induction m with
  | nil => simp [Memory.unlist, Memory.read]
  | cons cell m ih =>
    obtain ⟨c, b⟩ := cell
    simp only [Memory.unlist, List.filter_cons] at ih ⊢
    by_cases hc : c = a
    · subst hc; by_cases h : x = c <;> simp_all [Memory.read]
    · by_cases h : x = c
      · subst h; simp [Memory.read, hc]
      · simp_all [Memory.read]

/-- Reading after a run of bytes is written. -/
theorem Memory.read_writeBytes (bs : List Byte) (m : Memory) (a x : Nat) :
    (Memory.writeBytes m a bs).read x =
      if a ≤ x ∧ x < a + bs.length then bs[x - a]? else Memory.read m x := by
  induction bs generalizing m a with
  | nil => simp only [Memory.writeBytes, List.length_nil]; rw [if_neg (by omega)]
  | cons b bs ih =>
    simp only [Memory.writeBytes, ih, Memory.read_write, List.length_cons]
    by_cases h : x = a
    · subst h; rw [if_neg (by omega), if_pos rfl, if_pos (by omega)]; simp
    · by_cases h' : a + 1 ≤ x ∧ x < a + 1 + bs.length
      · rw [if_pos h', if_pos (by omega), show x - a = (x - (a + 1)) + 1 by omega]; simp
      · rw [if_neg h', if_neg h, if_neg (by omega)]

/-- Reading after some bytes were put back as they are in `before`. -/
theorem Memory.read_restore (m before : Memory) (a count x : Nat) :
    (Memory.restore m before a count).read x =
      if a ≤ x ∧ x < a + count then Memory.read before x else Memory.read m x := by
  induction count with
  | zero => simp only [Memory.restore]; rw [if_neg (by omega)]
  | succ count ih =>
    have one (m' : Memory) (off : Nat) :
        (Memory.restoreByte m' before off).read x = if x = off then Memory.read before x else Memory.read m' x := by
      unfold Memory.restoreByte
      split
      · next h => rw [Memory.read_write]; by_cases e : x = off <;> simp [e, h]
      · next h => rw [Memory.read_unlist]; by_cases e : x = off <;> simp [e, h]
    simp only [Memory.restore, one, ih]
    by_cases h : x = a + count
    · rw [if_pos h, if_pos (by omega)]
    · rw [if_neg h]
      by_cases h' : a ≤ x ∧ x < a + count
      · rw [if_pos h', if_pos (by omega)]
      · rw [if_neg h', if_neg (by omega)]

/-- Every listed offset of a memory satisfies `P`. -/
def Memory.Within (P : Nat → Prop) (m : Memory) : Prop := ∀ cell ∈ m, P cell.1

theorem Memory.Within.write {P : Nat → Prop} {m : Memory} {a : Nat} {v : Byte} (hm : m.Within P) (ha : P a) :
    (Memory.write m a v).Within P := by
  induction m with
  | nil => simpa [Memory.write, Memory.Within] using ha
  | cons cell m ih =>
    obtain ⟨c, b⟩ := cell
    simp only [Memory.Within, List.mem_cons, forall_eq_or_imp] at hm
    simp only [Memory.write]
    split
    · simp only [Memory.Within, List.mem_cons, forall_eq_or_imp]; exact ⟨ha, hm.1, hm.2⟩
    · split
      · simp only [Memory.Within, List.mem_cons, forall_eq_or_imp]; exact ⟨ha, hm.2⟩
      · simp only [Memory.Within, List.mem_cons, forall_eq_or_imp]; exact ⟨hm.1, ih hm.2⟩

theorem Memory.Within.unlist {P : Nat → Prop} {m : Memory} {a : Nat} (hm : m.Within P) :
    (Memory.unlist m a).Within P := fun cell hc => hm cell (List.mem_filter.mp hc).1

/-- A write keeps the canonical form (log 8). -/
theorem Memory.write_wf {m : Memory} (hm : Memory.wf m) (a : Nat) (v : Byte) : Memory.wf (Memory.write m a v) := by
  induction m with
  | nil => simp [Memory.write, Memory.wf]
  | cons cell m ih =>
    obtain ⟨c, b⟩ := cell
    have hm' := List.pairwise_cons.mp hm
    simp only [Memory.write]
    split
    · next h =>
      refine List.pairwise_cons.mpr ⟨fun d hd => ?_, hm⟩
      rcases List.mem_cons.mp hd with rfl | hd
      · exact h
      · exact Nat.lt_trans h (hm'.1 d hd)
    · split
      · next h => subst h; exact List.pairwise_cons.mpr ⟨hm'.1, hm'.2⟩
      · next h₁ h₂ =>
        exact List.pairwise_cons.mpr ⟨Memory.Within.write (P := (c < ·)) hm'.1 (by omega), ih hm'.2⟩

/-- Unlisting keeps the canonical form (log 8). -/
theorem Memory.unlist_wf {m : Memory} (hm : Memory.wf m) (a : Nat) : Memory.wf (Memory.unlist m a) := hm.filter _

/-- What one write of a byte run keeps, whatever property of memories single writes keep. -/
theorem Memory.writeBytes_induct {Q : Memory → Prop} {P : Nat → Prop}
    (hw : ∀ m a v, Q m → P a → Q (Memory.write m a v)) (bs : List Byte) {m : Memory} {a : Nat} (hm : Q m)
    (ha : ∀ j < bs.length, P (a + j)) : Q (Memory.writeBytes m a bs) := by
  induction bs generalizing m a with
  | nil => exact hm
  | cons b bs ih =>
    refine ih (hw _ _ _ hm (ha 0 (by simp))) (fun j hj => ?_)
    have := ha (j + 1) (by simpa using hj)
    rwa [show a + 1 + j = a + (j + 1) by omega]

theorem Memory.restore_induct {Q : Memory → Prop} {P : Nat → Prop}
    (hw : ∀ m a v, Q m → P a → Q (Memory.write m a v)) (hu : ∀ m a, Q m → Q (Memory.unlist m a))
    {m : Memory} (before : Memory) {a : Nat} (count : Nat) (hm : Q m) (ha : ∀ j < count, P (a + j)) :
    Q (Memory.restore m before a count) := by
  induction count with
  | zero => exact hm
  | succ count ih =>
    have h := ih (fun j hj => ha j (by omega))
    simp only [Memory.restore, Memory.restoreByte]
    split
    · exact hw _ _ _ h (ha count (by omega))
    · exact hu _ _ h

theorem Memory.writeBytes_wf {m : Memory} (hm : Memory.wf m) (a : Nat) (bs : List Byte) :
    Memory.wf (Memory.writeBytes m a bs) :=
  Memory.writeBytes_induct (Q := Memory.wf) (P := fun _ => True) (fun _ a v h _ => Memory.write_wf h a v) bs hm (fun _ _ => trivial)

theorem Memory.restore_wf {m : Memory} (hm : Memory.wf m) (before : Memory) (a count : Nat) :
    Memory.wf (Memory.restore m before a count) :=
  Memory.restore_induct (Q := Memory.wf) (P := fun _ => True) (fun _ a v h _ => Memory.write_wf h a v) (fun _ a h => Memory.unlist_wf h a)
    before count hm (fun _ _ => trivial)

theorem Memory.putSeq_wf {m : Memory} (hm : Memory.wf m) (k : Nat) (v : F64) : Memory.wf (m.putSeq k v) :=
  Memory.writeBytes_wf hm _ _

theorem Memory.putKey_wf {m : Memory} (hm : Memory.wf m) (k : Nat) (b : Byte) : Memory.wf (m.putKey k b) :=
  Memory.write_wf hm _ _

theorem Memory.read_none_of_lt {m : Memory} {x : Nat} (h : ∀ cell ∈ m, x < cell.1) : Memory.read m x = none := by
  induction m with
  | nil => rfl
  | cons cell m ih =>
    obtain ⟨c, b⟩ := cell
    simp only [List.mem_cons, forall_eq_or_imp] at h
    simp only [Memory.read]
    rw [if_neg (by have := h.1; omega)]
    exact ih h.2

/-- Equal memories are equal data: two canonical memories that read alike are the same list (log 8). -/
theorem Memory.ext_of_read {m m' : Memory} (hm : Memory.wf m) (hm' : Memory.wf m')
    (h : ∀ x, Memory.read m x = Memory.read m' x) : m = m' := by
  induction m generalizing m' with
  | nil =>
    cases m' with
    | nil => rfl
    | cons cell m' => obtain ⟨c, b⟩ := cell; have := h c; simp [Memory.read] at this
  | cons cell m ih =>
    obtain ⟨c, b⟩ := cell
    cases m' with
    | nil => have := h c; simp [Memory.read] at this
    | cons cell' m' =>
      obtain ⟨c', b'⟩ := cell'
      have p := List.pairwise_cons.mp hm
      have p' := List.pairwise_cons.mp hm'
      have hc : c = c' := by
        rcases Nat.lt_trichotomy c c' with hlt | heq | hgt
        · have e := h c
          rw [Memory.read_none_of_lt (m := (c', b') :: m')] at e
          · simp [Memory.read] at e
          · intro d hd
            rcases List.mem_cons.mp hd with rfl | hd
            · exact hlt
            · exact Nat.lt_trans hlt (p'.1 d hd)
        · exact heq
        · have e := h c'
          rw [Memory.read_none_of_lt (m := (c, b) :: m)] at e
          · simp [Memory.read] at e
          · intro d hd
            rcases List.mem_cons.mp hd with rfl | hd
            · exact hgt
            · exact Nat.lt_trans hgt (p.1 d hd)
      subst hc
      have hb : b = b' := by have := h c; simpa [Memory.read] using this
      subst hb
      rw [ih p.2 p'.2 (fun x => ?_)]
      by_cases hx : x = c
      · subst hx
        rw [Memory.read_none_of_lt p.1, Memory.read_none_of_lt p'.1]
      · have := h x; simpa [Memory.read, hx] using this

end Sys2Proof.Machine
end

