-- ==== Sys2Proof/Laws/Bytes.lean ====
section
/-! SUPPORT. Byte order: taking a value apart into little-endian bytes and putting it together again (20_memory.md R64), and
what reading the buffers gives after one entry or byte was written. -/

namespace Sys2Proof.Machine

@[simp] theorem bytesOf_length (v : BitVec 64) (count : Nat) : (bytesOf v count).length = count := by simp [bytesOf]

theorem byteOf_toNat (v : BitVec 64) (j : Nat) : (byteOf v j).toNat = v.toNat / 2 ^ (8 * j) % 256 := by
  simp [byteOf, BitVec.extractLsb', Nat.shiftRight_eq_div_pow]

theorem leNat_append (bs : List Byte) (b : Byte) : leNat (bs ++ [b]) = leNat bs + 256 ^ bs.length * b.toNat := by
  induction bs with
  | nil => simp [leNat]
  | cons c bs ih => simp only [List.cons_append, leNat, ih, List.length_cons, Nat.pow_succ]; ring

/-- The first `count` bytes of a value hold it modulo 256^count. -/
theorem leNat_bytesOf (v : BitVec 64) (count : Nat) : leNat (bytesOf v count) = v.toNat % 256 ^ count := by
  induction count with
  | zero => simp [bytesOf, leNat, Nat.mod_one]
  | succ count ih =>
    have : bytesOf v (count + 1) = bytesOf v count ++ [byteOf v count] := by simp [bytesOf, List.range_succ]
    rw [this, leNat_append, ih, bytesOf_length, byteOf_toNat, show (2 : Nat) ^ (8 * count) = 256 ^ count by
      rw [Nat.pow_mul], Nat.pow_succ, Nat.mod_mul]

/-- Eight bytes hold the whole value. -/
theorem leValue_bytesOf (v : BitVec 64) : leValue (bytesOf v 8) = v := by
  have h := v.isLt
  apply BitVec.eq_of_toNat_eq
  rw [leValue, leNat_bytesOf, BitVec.toNat_ofNat]
  omega

theorem Memory.read_putSeq (m : Memory) (k : Nat) (v : F64) (x : Nat) :
    (m.putSeq k v).read x =
      if seqAddr k ≤ x ∧ x < seqAddr k + 8 then some (byteOf v (x - seqAddr k)) else Memory.read m x := by
  rw [Memory.putSeq, Memory.read_writeBytes, bytesOf_length]
  split
  · next h => simp [bytesOf, show x - seqAddr k < 8 by omega]
  · rfl

theorem Memory.read_putKey (m : Memory) (k : Nat) (b : Byte) (x : Nat) :
    (m.putKey k b).read x = if x = keyAddr k then some b else Memory.read m x := Memory.read_write m _ b x

/-- An entry reads as the entry just written, or as before (R38, R72). -/
theorem State.seqEntry_putSeq (s : State) (m : Memory) (k k' : Nat) (v : F64) :
    State.seqEntry { s with mem := m.putSeq k v } k' = if k' = k then v else State.seqEntry { s with mem :=
        m } k' := by
  simp only [State.seqEntry, State.bufByte, Memory.read_putSeq]
  split
  · next h =>
    subst h
    conv_rhs => rw [← leValue_bytesOf v]
    congr 1
    simp only [bytesOf]
    refine List.map_congr_left (fun j hj => ?_)
    have := List.mem_range.mp hj
    rw [if_pos (by omega)]
    simp [show seqAddr k' + j - seqAddr k' = j by omega]
  · next h =>
    congr 1
    refine List.map_congr_left (fun j hj => ?_)
    have := List.mem_range.mp hj
    rw [if_neg (by simp only [seqAddr]; omega)]

/-- An entry depends on its eight bytes alone. -/
theorem State.seqEntry_congr {s t : State} {k : Nat} (h : ∀ j < 8, s.bufByte (seqAddr k + j) =
    t.bufByte (seqAddr k + j)) :
    s.seqEntry k = t.seqEntry k := by
  simp only [State.seqEntry]
  congr 1
  exact List.map_congr_left (fun j hj => h j (List.mem_range.mp hj))

theorem leNat_lt (bs : List Byte) : leNat bs < 2 ^ (8 * bs.length) := by
  induction bs with
  | nil => simp [leNat]
  | cons b bs ih => 
    have := b.isLt
    simp only [leNat, List.length_cons, Nat.mul_add, pow_add]; omega

/-- Byte `j` of an assembled number is the `j`-th byte it was assembled from (R64). -/
theorem leNat_byte (bs : List Byte) (j : Nat) (h : j < bs.length) : BitVec.ofNat 8 (leNat bs / 2 ^ (8 * j)) =
    bs[j] := by
  induction bs generalizing j with
  | nil => simp at h
  | cons b bs ih =>
    cases j with
    | zero => apply BitVec.eq_of_toNat_eq; have := b.isLt; simp [leNat]; omega
    | succ j =>
      have := b.isLt
      have e : leNat (b :: bs) / 2 ^ (8 * (j+1)) = leNat bs / 2 ^ (8*j) := by
        rw [show 8 * (j+1) = 8 + 8*j by ring, pow_add, ← Nat.div_div_eq_div_mul]
        congr 1; simp only [leNat]; omega
      rw [e, ih j (by simpa using h)]; rfl

/-- Byte `j` of a SEQ_BUF entry is the buffer byte at its offset plus `j` (R64). -/
theorem byteOf_seqEntry (s : State) (k j : Nat) (hj : j < 8) :
    byteOf (s.seqEntry k) j = s.bufByte (seqAddr k + j) := by
  unfold State.seqEntry
  have hb := leNat_lt ((List.range 8).map (fun j => s.bufByte (seqAddr k + j)))
  have := leNat_byte ((List.range 8).map (fun j => s.bufByte (seqAddr k + j))) j (by simpa)
  simp only [List.length_map, List.length_range] at hb
  simp only [byteOf, leValue, BitVec.extractLsb', BitVec.toNat_ofNat, Nat.shiftRight_eq_div_pow]
  rw [Nat.mod_eq_of_lt (by simpa using hb), this]; simp

end Sys2Proof.Machine
end

