-- ==== Sys2Proof/Laws/State.lean ====
section
/-! SUPPORT. One lemma per field per state update, true by rfl, so that no proof unfolds a record update. -/

namespace Sys2Proof.Machine

@[simp] theorem State.raiseErr_seqDepth (s : State) (code : ErrCode) : (s.raiseErr code).seqDepth = s.seqDepth := rfl
@[simp] theorem State.raiseErr_keyDepth (s : State) (code : ErrCode) : (s.raiseErr code).keyDepth = s.keyDepth := rfl
@[simp] theorem State.raiseErr_ctrl (s : State) (code : ErrCode) : (s.raiseErr code).ctrl = s.ctrl := rfl
@[simp] theorem State.raiseErr_status (s : State) (code : ErrCode) : (s.raiseErr code).status = { s.status with err := code } := rfl
@[simp] theorem State.raiseErr_prog (s : State) (code : ErrCode) : (s.raiseErr code).prog = s.prog := rfl
@[simp] theorem State.raiseErr_params (s : State) (code : ErrCode) : (s.raiseErr code).params = s.params := rfl
@[simp] theorem State.raiseErr_eng (s : State) (code : ErrCode) : (s.raiseErr code).eng = s.eng := rfl
@[simp] theorem State.raiseErr_mem (s : State) (code : ErrCode) : (s.raiseErr code).mem = s.mem := rfl
@[simp] theorem State.raiseErr_memBefore (s : State) (code : ErrCode) : (s.raiseErr code).memBefore = s.memBefore := rfl
@[simp] theorem State.raiseErr_bufEpoch (s : State) (code : ErrCode) : (s.raiseErr code).bufEpoch = s.bufEpoch := rfl
@[simp] theorem State.raiseErr_abandons (s : State) (code : ErrCode) : (s.raiseErr code).abandons = s.abandons := rfl
@[simp] theorem State.raiseErr_agenda (s : State) (code : ErrCode) : (s.raiseErr code).agenda = s.agenda := rfl
@[simp] theorem State.raiseErr_resp (s : State) (code : ErrCode) : (s.raiseErr code).resp = s.resp := rfl

@[simp] theorem State.clearStatus_seqDepth (s : State) : (s.clearStatus).seqDepth = s.seqDepth := rfl
@[simp] theorem State.clearStatus_keyDepth (s : State) : (s.clearStatus).keyDepth = s.keyDepth := rfl
@[simp] theorem State.clearStatus_ctrl (s : State) : (s.clearStatus).ctrl = s.ctrl := rfl
@[simp] theorem State.clearStatus_status (s : State) : (s.clearStatus).status = Status.clear := rfl
@[simp] theorem State.clearStatus_prog (s : State) : (s.clearStatus).prog = s.prog := rfl
@[simp] theorem State.clearStatus_params (s : State) : (s.clearStatus).params = s.params := rfl
@[simp] theorem State.clearStatus_eng (s : State) : (s.clearStatus).eng = s.eng := rfl
@[simp] theorem State.clearStatus_mem (s : State) : (s.clearStatus).mem = s.mem := rfl
@[simp] theorem State.clearStatus_memBefore (s : State) : (s.clearStatus).memBefore = s.memBefore := rfl
@[simp] theorem State.clearStatus_bufEpoch (s : State) : (s.clearStatus).bufEpoch = s.bufEpoch := rfl
@[simp] theorem State.clearStatus_abandons (s : State) : (s.clearStatus).abandons = s.abandons := rfl
@[simp] theorem State.clearStatus_agenda (s : State) : (s.clearStatus).agenda = s.agenda := rfl
@[simp] theorem State.clearStatus_resp (s : State) : (s.clearStatus).resp = s.resp := rfl

@[simp] theorem State.respondRead_seqDepth (s : State) (resp : Resp) (data : BitVec 64) : (s.respondRead resp data).seqDepth = s.seqDepth := rfl
@[simp] theorem State.respondRead_keyDepth (s : State) (resp : Resp) (data : BitVec 64) : (s.respondRead resp data).keyDepth = s.keyDepth := rfl
@[simp] theorem State.respondRead_ctrl (s : State) (resp : Resp) (data : BitVec 64) : (s.respondRead resp data).ctrl = s.ctrl := rfl
@[simp] theorem State.respondRead_status (s : State) (resp : Resp) (data : BitVec 64) : (s.respondRead resp data).status = s.status := rfl
@[simp] theorem State.respondRead_prog (s : State) (resp : Resp) (data : BitVec 64) : (s.respondRead resp data).prog = s.prog := rfl
@[simp] theorem State.respondRead_params (s : State) (resp : Resp) (data : BitVec 64) : (s.respondRead resp data).params = s.params := rfl
@[simp] theorem State.respondRead_eng (s : State) (resp : Resp) (data : BitVec 64) : (s.respondRead resp data).eng = s.eng := rfl
@[simp] theorem State.respondRead_mem (s : State) (resp : Resp) (data : BitVec 64) : (s.respondRead resp data).mem = s.mem := rfl
@[simp] theorem State.respondRead_memBefore (s : State) (resp : Resp) (data : BitVec 64) : (s.respondRead resp data).memBefore = s.memBefore := rfl
@[simp] theorem State.respondRead_bufEpoch (s : State) (resp : Resp) (data : BitVec 64) : (s.respondRead resp data).bufEpoch = s.bufEpoch := rfl
@[simp] theorem State.respondRead_abandons (s : State) (resp : Resp) (data : BitVec 64) : (s.respondRead resp data).abandons = s.abandons := rfl
@[simp] theorem State.respondRead_agenda (s : State) (resp : Resp) (data : BitVec 64) : (s.respondRead resp data).agenda = s.agenda := rfl
@[simp] theorem State.respondRead_resp (s : State) (resp : Resp) (data : BitVec 64) : (s.respondRead resp data).resp = some (.read resp data) := rfl

@[simp] theorem State.respondWrite_seqDepth (s : State) (resp : Resp) : (s.respondWrite resp).seqDepth = s.seqDepth := rfl
@[simp] theorem State.respondWrite_keyDepth (s : State) (resp : Resp) : (s.respondWrite resp).keyDepth = s.keyDepth := rfl
@[simp] theorem State.respondWrite_ctrl (s : State) (resp : Resp) : (s.respondWrite resp).ctrl = s.ctrl := rfl
@[simp] theorem State.respondWrite_status (s : State) (resp : Resp) : (s.respondWrite resp).status = s.status := rfl
@[simp] theorem State.respondWrite_prog (s : State) (resp : Resp) : (s.respondWrite resp).prog = s.prog := rfl
@[simp] theorem State.respondWrite_params (s : State) (resp : Resp) : (s.respondWrite resp).params = s.params := rfl
@[simp] theorem State.respondWrite_eng (s : State) (resp : Resp) : (s.respondWrite resp).eng = s.eng := rfl
@[simp] theorem State.respondWrite_mem (s : State) (resp : Resp) : (s.respondWrite resp).mem = s.mem := rfl
@[simp] theorem State.respondWrite_memBefore (s : State) (resp : Resp) : (s.respondWrite resp).memBefore = s.memBefore := rfl
@[simp] theorem State.respondWrite_bufEpoch (s : State) (resp : Resp) : (s.respondWrite resp).bufEpoch = s.bufEpoch := rfl
@[simp] theorem State.respondWrite_abandons (s : State) (resp : Resp) : (s.respondWrite resp).abandons = s.abandons := rfl
@[simp] theorem State.respondWrite_agenda (s : State) (resp : Resp) : (s.respondWrite resp).agenda = s.agenda := rfl
@[simp] theorem State.respondWrite_resp (s : State) (resp : Resp) : (s.respondWrite resp).resp = some (.write resp) := rfl

@[simp] theorem State.withAgenda_seqDepth (s : State) (rest : List Event) : (s.withAgenda rest).seqDepth = s.seqDepth := rfl
@[simp] theorem State.withAgenda_keyDepth (s : State) (rest : List Event) : (s.withAgenda rest).keyDepth = s.keyDepth := rfl
@[simp] theorem State.withAgenda_ctrl (s : State) (rest : List Event) : (s.withAgenda rest).ctrl = s.ctrl := rfl
@[simp] theorem State.withAgenda_status (s : State) (rest : List Event) : (s.withAgenda rest).status = s.status := rfl
@[simp] theorem State.withAgenda_prog (s : State) (rest : List Event) : (s.withAgenda rest).prog = s.prog := rfl
@[simp] theorem State.withAgenda_params (s : State) (rest : List Event) : (s.withAgenda rest).params = s.params := rfl
@[simp] theorem State.withAgenda_eng (s : State) (rest : List Event) : (s.withAgenda rest).eng = s.eng := rfl
@[simp] theorem State.withAgenda_mem (s : State) (rest : List Event) : (s.withAgenda rest).mem = s.mem := rfl
@[simp] theorem State.withAgenda_memBefore (s : State) (rest : List Event) : (s.withAgenda rest).memBefore = s.memBefore := rfl
@[simp] theorem State.withAgenda_bufEpoch (s : State) (rest : List Event) : (s.withAgenda rest).bufEpoch = s.bufEpoch := rfl
@[simp] theorem State.withAgenda_abandons (s : State) (rest : List Event) : (s.withAgenda rest).abandons = s.abandons := rfl
@[simp] theorem State.withAgenda_agenda (s : State) (rest : List Event) : (s.withAgenda rest).agenda = rest := rfl
@[simp] theorem State.withAgenda_resp (s : State) (rest : List Event) : (s.withAgenda rest).resp = s.resp := rfl

@[simp] theorem State.writeCtrl_seqDepth (s : State) (data : BitVec 64) : (s.writeCtrl data).seqDepth = s.seqDepth := rfl
@[simp] theorem State.writeCtrl_keyDepth (s : State) (data : BitVec 64) : (s.writeCtrl data).keyDepth = s.keyDepth := rfl
@[simp] theorem State.writeCtrl_ctrl (s : State) (data : BitVec 64) :
    (s.writeCtrl data).ctrl =
      { ieDone := data.getLsbD 0, ieErr := data.getLsbD 1 } := rfl
@[simp] theorem State.writeCtrl_status (s : State) (data : BitVec 64) : (s.writeCtrl data).status = s.status := rfl
@[simp] theorem State.writeCtrl_prog (s : State) (data : BitVec 64) : (s.writeCtrl data).prog = s.prog := rfl
@[simp] theorem State.writeCtrl_params (s : State) (data : BitVec 64) : (s.writeCtrl data).params = s.params := rfl
@[simp] theorem State.writeCtrl_eng (s : State) (data : BitVec 64) : (s.writeCtrl data).eng = s.eng := rfl
@[simp] theorem State.writeCtrl_mem (s : State) (data : BitVec 64) : (s.writeCtrl data).mem = s.mem := rfl
@[simp] theorem State.writeCtrl_memBefore (s : State) (data : BitVec 64) : (s.writeCtrl data).memBefore = s.memBefore := rfl
@[simp] theorem State.writeCtrl_bufEpoch (s : State) (data : BitVec 64) : (s.writeCtrl data).bufEpoch = s.bufEpoch := rfl
@[simp] theorem State.writeCtrl_abandons (s : State) (data : BitVec 64) : (s.writeCtrl data).abandons = s.abandons := rfl
@[simp] theorem State.writeCtrl_agenda (s : State) (data : BitVec 64) : (s.writeCtrl data).agenda = s.agenda := rfl
@[simp] theorem State.writeCtrl_resp (s : State) (data : BitVec 64) : (s.writeCtrl data).resp = s.resp := rfl

@[simp] theorem State.beginOperation_seqDepth (s : State) (op : EngOp) (n size : Nat) : (s.beginOperation op n size).seqDepth = s.seqDepth := rfl
@[simp] theorem State.beginOperation_keyDepth (s : State) (op : EngOp) (n size : Nat) : (s.beginOperation op n size).keyDepth = s.keyDepth := rfl
@[simp] theorem State.beginOperation_ctrl (s : State) (op : EngOp) (n size : Nat) : (s.beginOperation op n size).ctrl = s.ctrl := rfl
@[simp] theorem State.beginOperation_status (s : State) (op : EngOp) (n size : Nat) :
    (s.beginOperation op n size).status =
      { Status.clear with done := decide (n = 0) } := rfl
@[simp] theorem State.beginOperation_prog (s : State) (op : EngOp) (n size : Nat) : (s.beginOperation op n size).prog = 0 := rfl
@[simp] theorem State.beginOperation_params (s : State) (op : EngOp) (n size : Nat) : (s.beginOperation op n size).params = s.params := rfl
@[simp] theorem State.beginOperation_eng (s : State) (op : EngOp) (n size : Nat) :
    (s.beginOperation op n size).eng =
      { s.eng with phase := if n = 0 then s.eng.phase else .run, op := op, n := n, size := size, lat := s.params } := rfl
@[simp] theorem State.beginOperation_mem (s : State) (op : EngOp) (n size : Nat) : (s.beginOperation op n size).mem = s.mem := rfl
@[simp] theorem State.beginOperation_memBefore (s : State) (op : EngOp) (n size : Nat) : (s.beginOperation op n size).memBefore = s.mem := rfl
@[simp] theorem State.beginOperation_bufEpoch (s : State) (op : EngOp) (n size : Nat) : (s.beginOperation op n size).bufEpoch = s.bufEpoch := rfl
@[simp] theorem State.beginOperation_abandons (s : State) (op : EngOp) (n size : Nat) : (s.beginOperation op n size).abandons = s.abandons := rfl
@[simp] theorem State.beginOperation_agenda (s : State) (op : EngOp) (n size : Nat) : (s.beginOperation op n size).agenda = s.agenda := rfl
@[simp] theorem State.beginOperation_resp (s : State) (op : EngOp) (n size : Nat) : (s.beginOperation op n size).resp = s.resp := rfl

@[simp] theorem State.advanceEngine_seqDepth (s : State) (v : F64) (c : Bool) : (s.advanceEngine v c).seqDepth = s.seqDepth := rfl
@[simp] theorem State.advanceEngine_keyDepth (s : State) (v : F64) (c : Bool) : (s.advanceEngine v c).keyDepth = s.keyDepth := rfl
@[simp] theorem State.advanceEngine_ctrl (s : State) (v : F64) (c : Bool) : (s.advanceEngine v c).ctrl = s.ctrl := rfl
@[simp] theorem State.advanceEngine_status (s : State) (v : F64) (c : Bool) :
    (s.advanceEngine v c).status =
      { s.status.noteElement v c with done := if s.prog + 1 = s.eng.n then true else s.status.done } := rfl
@[simp] theorem State.advanceEngine_prog (s : State) (v : F64) (c : Bool) : (s.advanceEngine v c).prog = s.prog + 1 := rfl
@[simp] theorem State.advanceEngine_params (s : State) (v : F64) (c : Bool) : (s.advanceEngine v c).params = s.params := rfl
@[simp] theorem State.advanceEngine_eng (s : State) (v : F64) (c : Bool) :
    (s.advanceEngine v c).eng =
      { s.eng with s := v, phase := if s.prog + 1 = s.eng.n then .idle else s.eng.phase } := rfl
@[simp] theorem State.advanceEngine_mem (s : State) (v : F64) (c : Bool) : (s.advanceEngine v c).mem = s.mem := rfl
@[simp] theorem State.advanceEngine_memBefore (s : State) (v : F64) (c : Bool) : (s.advanceEngine v c).memBefore = s.memBefore := rfl
@[simp] theorem State.advanceEngine_bufEpoch (s : State) (v : F64) (c : Bool) : (s.advanceEngine v c).bufEpoch = s.bufEpoch := rfl
@[simp] theorem State.advanceEngine_abandons (s : State) (v : F64) (c : Bool) : (s.advanceEngine v c).abandons = s.abandons := rfl
@[simp] theorem State.advanceEngine_agenda (s : State) (v : F64) (c : Bool) : (s.advanceEngine v c).agenda = s.agenda := rfl
@[simp] theorem State.advanceEngine_resp (s : State) (v : F64) (c : Bool) : (s.advanceEngine v c).resp = s.resp := rfl

@[simp] theorem State.softReset_seqDepth (s : State) : (s.softReset).seqDepth = s.seqDepth := rfl
@[simp] theorem State.softReset_keyDepth (s : State) : (s.softReset).keyDepth = s.keyDepth := rfl
@[simp] theorem State.softReset_ctrl (s : State) : (s.softReset).ctrl = Ctrl.zero := rfl
@[simp] theorem State.softReset_status (s : State) : (s.softReset).status = Status.clear := rfl
@[simp] theorem State.softReset_prog (s : State) : (s.softReset).prog = 0 := rfl
@[simp] theorem State.softReset_params (s : State) : (s.softReset).params = Params.zero := rfl
@[simp] theorem State.softReset_eng (s : State) : (s.softReset).eng = { s.eng with phase := .idle } := rfl
@[simp] theorem State.softReset_mem (s : State) : (s.softReset).mem = s.settleBuffers := rfl
@[simp] theorem State.softReset_memBefore (s : State) : (s.softReset).memBefore = s.memBefore := rfl
@[simp] theorem State.softReset_bufEpoch (s : State) : (s.softReset).bufEpoch = s.bufEpoch := rfl
@[simp] theorem State.softReset_abandons (s : State) : (s.softReset).abandons = if s.busy then s.abandons + 1 else s.abandons := rfl
@[simp] theorem State.softReset_agenda (s : State) : (s.softReset).agenda = s.agenda := rfl
@[simp] theorem State.softReset_resp (s : State) : (s.softReset).resp = s.resp := rfl

@[simp] theorem State.hardReset_seqDepth (s : State) : (s.hardReset).seqDepth = s.seqDepth := rfl
@[simp] theorem State.hardReset_keyDepth (s : State) : (s.hardReset).keyDepth = s.keyDepth := rfl
@[simp] theorem State.hardReset_ctrl (s : State) : (s.hardReset).ctrl = Ctrl.zero := rfl
@[simp] theorem State.hardReset_status (s : State) : (s.hardReset).status = Status.clear := rfl
@[simp] theorem State.hardReset_prog (s : State) : (s.hardReset).prog = 0 := rfl
@[simp] theorem State.hardReset_params (s : State) : (s.hardReset).params = Params.zero := rfl
@[simp] theorem State.hardReset_eng (s : State) : (s.hardReset).eng = Eng.powerUp (s.bufEpoch + 1) := rfl
@[simp] theorem State.hardReset_mem (s : State) : (s.hardReset).mem = [] := rfl
@[simp] theorem State.hardReset_memBefore (s : State) : (s.hardReset).memBefore = [] := rfl
@[simp] theorem State.hardReset_bufEpoch (s : State) : (s.hardReset).bufEpoch = s.bufEpoch + 1 := rfl
@[simp] theorem State.hardReset_abandons (s : State) : (s.hardReset).abandons = s.abandons := rfl
@[simp] theorem State.hardReset_agenda (s : State) : (s.hardReset).agenda = s.agenda := rfl
@[simp] theorem State.hardReset_resp (s : State) : (s.hardReset).resp = s.resp := rfl

@[simp] theorem State.withFetchWord_seqDepth (s : State) (nbits w : Nat) : (s.withFetchWord nbits w).seqDepth = s.seqDepth := rfl
@[simp] theorem State.withFetchWord_keyDepth (s : State) (nbits w : Nat) : (s.withFetchWord nbits w).keyDepth = s.keyDepth := rfl
@[simp] theorem State.withFetchWord_ctrl (s : State) (nbits w : Nat) : (s.withFetchWord nbits w).ctrl = s.ctrl := rfl
@[simp] theorem State.withFetchWord_status (s : State) (nbits w : Nat) : (s.withFetchWord nbits w).status = s.status := rfl
@[simp] theorem State.withFetchWord_prog (s : State) (nbits w : Nat) : (s.withFetchWord nbits w).prog = s.prog := rfl
@[simp] theorem State.withFetchWord_params (s : State) (nbits w : Nat) : (s.withFetchWord nbits w).params = s.params := rfl
@[simp] theorem State.withFetchWord_eng (s : State) (nbits w : Nat) : (s.withFetchWord nbits w).eng = s.eng := rfl
@[simp] theorem State.withFetchWord_mem (s : State) (nbits w : Nat) : (s.withFetchWord nbits w).mem = s.mem := rfl
@[simp] theorem State.withFetchWord_memBefore (s : State) (nbits w : Nat) : (s.withFetchWord nbits w).memBefore = s.memBefore := rfl
@[simp] theorem State.withFetchWord_bufEpoch (s : State) (nbits w : Nat) : (s.withFetchWord nbits w).bufEpoch = s.bufEpoch := rfl
@[simp] theorem State.withFetchWord_abandons (s : State) (nbits w : Nat) : (s.withFetchWord nbits w).abandons = s.abandons := rfl
@[simp] theorem State.withFetchWord_agenda (s : State) (nbits w : Nat) :
    (s.withFetchWord nbits w).agenda =
      cmdWrite (tableWord nbits w) :: s.agenda := rfl
@[simp] theorem State.withFetchWord_resp (s : State) (nbits w : Nat) : (s.withFetchWord nbits w).resp = s.resp := rfl

@[simp] theorem State.genStep_seqDepth (s : State) : (s.genStep).seqDepth = s.seqDepth := rfl
@[simp] theorem State.genStep_keyDepth (s : State) : (s.genStep).keyDepth = s.keyDepth := rfl
@[simp] theorem State.genStep_ctrl (s : State) : (s.genStep).ctrl = s.ctrl := rfl
@[simp] theorem State.genStep_status (s : State) :
    (s.genStep).status =
      { s.status.noteElement (s.eng.elem s.prog).1 (s.eng.elem s.prog).2 with done := if s.prog + 1 = s.eng.n then true else s.status.done } := rfl
@[simp] theorem State.genStep_prog (s : State) : (s.genStep).prog = s.prog + 1 := rfl
@[simp] theorem State.genStep_params (s : State) : (s.genStep).params = s.params := rfl
@[simp] theorem State.genStep_eng (s : State) :
    (s.genStep).eng =
      { s.eng with s := (s.eng.elem s.prog).1, phase := if s.prog + 1 = s.eng.n then .idle else s.eng.phase } := rfl
@[simp] theorem State.genStep_mem (s : State) : (s.genStep).mem = s.mem.putSeq s.prog (s.eng.elem s.prog).1 := rfl
@[simp] theorem State.genStep_memBefore (s : State) : (s.genStep).memBefore = s.memBefore := rfl
@[simp] theorem State.genStep_bufEpoch (s : State) : (s.genStep).bufEpoch = s.bufEpoch := rfl
@[simp] theorem State.genStep_abandons (s : State) : (s.genStep).abandons = s.abandons := rfl
@[simp] theorem State.genStep_agenda (s : State) : (s.genStep).agenda = s.agenda := rfl
@[simp] theorem State.genStep_resp (s : State) : (s.genStep).resp = s.resp := rfl

@[simp] theorem State.keyStep_seqDepth (s : State) : (s.keyStep).seqDepth = s.seqDepth := rfl
@[simp] theorem State.keyStep_keyDepth (s : State) : (s.keyStep).keyDepth = s.keyDepth := rfl
@[simp] theorem State.keyStep_ctrl (s : State) : (s.keyStep).ctrl = s.ctrl := rfl
@[simp] theorem State.keyStep_status (s : State) :
    (s.keyStep).status =
      { s.status.noteElement (s.eng.elem s.prog).1 (s.eng.elem s.prog).2 with done := if s.prog + 1 = s.eng.n then true else s.status.done } := rfl
@[simp] theorem State.keyStep_prog (s : State) : (s.keyStep).prog = s.prog + 1 := rfl
@[simp] theorem State.keyStep_params (s : State) : (s.keyStep).params = s.params := rfl
@[simp] theorem State.keyStep_eng (s : State) :
    (s.keyStep).eng =
      { s.eng with s := (s.eng.elem s.prog).1, phase := if s.prog + 1 = s.eng.n then .idle else s.eng.phase } := rfl
@[simp] theorem State.keyStep_mem (s : State) :
    (s.keyStep).mem =
      if s.eng.size ≤ s.prog then s.mem.putKey (s.prog - s.eng.size) (keyByte (s.eng.elem s.prog).1) else s.mem := rfl
@[simp] theorem State.keyStep_memBefore (s : State) : (s.keyStep).memBefore = s.memBefore := rfl
@[simp] theorem State.keyStep_bufEpoch (s : State) : (s.keyStep).bufEpoch = s.bufEpoch := rfl
@[simp] theorem State.keyStep_abandons (s : State) : (s.keyStep).abandons = s.abandons := rfl
@[simp] theorem State.keyStep_agenda (s : State) : (s.keyStep).agenda = s.agenda := rfl
@[simp] theorem State.keyStep_resp (s : State) : (s.keyStep).resp = s.resp := rfl

end Sys2Proof.Machine
end

