-- ==== Sys2Proof/Laws/Command.lean ====
section
/-! SUPPORT. The decoder on the word's numbers (30_encoding.md R91), and what presenting a command can do (R95). -/

namespace Sys2Proof

theorem opcField_toNat (word : Word) : (opcField word).toNat = word.toNat % 256 := by
  simp [opcField, BitVec.extractLsb']

theorem lenField_eq (word : Word) : lenField word = word.toNat / 256 := by
  have := word.isLt
  simp only [lenField, BitVec.extractLsb', BitVec.toNat_ofNat, Nat.shiftRight_eq_div_pow]
  exact Nat.mod_eq_of_lt (by omega)

theorem opcField_eq_iff (word : Word) (opc : Nat) (h : opc < 256) :
    opcField word = BitVec.ofNat 8 opc ↔ word.toNat % 256 = opc := by
  rw [← BitVec.toNat_inj, opcField_toNat, BitVec.toNat_ofNat]
  omega

/-- The four bytes of a word put together again are the word (R90, R64). -/
theorem wordOfBytes_bytesOfWord (word : Word) :
    wordOfBytes (word.extractLsb' 0 8) (word.extractLsb' 8 8) (word.extractLsb' 16 8) (word.extractLsb' 24 8) = word := by
  have := word.isLt
  apply BitVec.eq_of_toNat_eq
  simp only [wordOfBytes, BitVec.toNat_append, BitVec.extractLsb', BitVec.toNat_ofNat, Nat.shiftRight_eq_div_pow,
    Nat.shiftLeft_eq]
  have joined (a b : Nat) (hb : b < 2 ^ 8) : a * 2 ^ 8 ||| b = a * 2 ^ 8 + b := by
    rw [Nat.mul_comm, Nat.two_pow_add_eq_or_of_lt hb]
  rw [joined _ _ (by omega), joined _ _ (by omega), joined _ _ (by omega)]
  omega

/-- The decoder on a byte stream is the decoder on its first word (R90). -/
theorem decode_bytesOfWord (word : Word) (rest : List Byte) :
    decode (bytesOfWord word ++ rest) = (decodeWord word).map (fun i => (i, rest)) := by
  simp only [bytesOfWord, List.cons_append, List.nil_append, decode, wordOfBytes_bytesOfWord]

/-- The decoder by the word's numbers OPC = word[7:0] and LEN = word[31:8] (R91, R93). -/
theorem decodeWord_eq (word : Word) :
    decodeWord word =
      if word.toNat % 256 = 0 then decodeNoLen word .nop
      else if word.toNat % 256 = 1 then .ok (.genSeq (word.toNat / 256))
      else if word.toNat % 256 = 2 then .ok (.deriveKey (word.toNat / 256))
      else if word.toNat % 256 = 3 then decodeNoLen word .clrStatus
      else if word.toNat % 256 = 4 then decodeNoLen word .softReset
      else .error (.reservedOpc (opcField word)) := by
  simp only [decodeWord, opcField_eq_iff word _ (show 0 < 256 by omega), opcField_eq_iff word _ (show 1 < 256 by omega),
    opcField_eq_iff word _ (show 2 < 256 by omega), opcField_eq_iff word _ (show 3 < 256 by omega),
    opcField_eq_iff word _ (show 4 < 256 by omega), lenField_eq]

end Sys2Proof

namespace Sys2Proof.Machine

@[simp] theorem State.busy_iff (s : State) : s.busy = true ↔ s.eng.phase = .run := by simp [State.busy]

theorem State.busy_eq_false_iff (s : State) : s.busy = false ↔ s.eng.phase = .idle := by
  cases h : s.eng.phase <;> simp [State.busy, h]

theorem State.whenIdle_idle {s : State} (h : s.eng.phase = .idle) (f : State → State) : s.whenIdle f = f s := by
  simp [State.whenIdle, State.busy, h]

theorem State.whenIdle_busy {s : State} (h : s.eng.phase = .run) (f : State → State) :
    s.whenIdle f = s.raiseErr .busyWrite := by
  simp [State.whenIdle, State.busy, h]

/-- The state a command leaves: every command has one, in every state. -/
def after (i : Instr) (s : State) : State :=
  match i with
  | .nop => s.whenIdle (fun t => t)
  | .genSeq n => s.whenIdle (fun t => if n > t.seqDepth then t.raiseErr .lenRange else t.startGen n)
  | .deriveKey size => s.whenIdle (fun t => if size > t.keyDepth then t.raiseErr .lenRange else t.startKey size)
  | .clrStatus => s.whenIdle State.clearStatus
  | .softReset => s.softReset

/-- No command stops the machine. -/
theorem exec_eq_after (i : Instr) (s : State) : exec i s = .next (after i s) := by cases i <;> rfl

/-- Everything a command can do: raise one of three errors, nothing, or its own effect (R95). -/
theorem after_cases (i : Instr) (s : State) :
    (s.eng.phase = .run ∧ i ≠ .softReset ∧ after i s = s.raiseErr .busyWrite) ∨
    (s.eng.phase = .idle ∧ i = .nop ∧ after i s = s) ∨
    (s.eng.phase = .idle ∧ ∃ n, i = .genSeq n ∧ s.seqDepth < n ∧ after i s = s.raiseErr .lenRange) ∨
    (s.eng.phase = .idle ∧ ∃ n, i = .genSeq n ∧ n ≤ s.seqDepth ∧ after i s = s.startGen n) ∨
    (s.eng.phase = .idle ∧ ∃ n, i = .deriveKey n ∧ s.keyDepth < n ∧ after i s = s.raiseErr .lenRange) ∨
    (s.eng.phase = .idle ∧ ∃ n, i = .deriveKey n ∧ n ≤ s.keyDepth ∧ after i s = s.startKey n) ∨
    (s.eng.phase = .idle ∧ i = .clrStatus ∧ after i s = s.clearStatus) ∨
    (i = .softReset ∧ after i s = s.softReset) := by
  cases h : s.eng.phase with
  | run => cases i <;> simp [after, State.whenIdle_busy h]
  | idle =>
    cases i with
    | nop => simp [after, State.whenIdle_idle h]
    | genSeq n => by_cases hn : s.seqDepth < n <;> simp [after, State.whenIdle_idle h, hn]; omega
    | deriveKey n => by_cases hn : s.keyDepth < n <;> simp [after, State.whenIdle_idle h, hn]; omega
    | clrStatus => simp [after, State.whenIdle_idle h]
    | softReset => simp [after]

end Sys2Proof.Machine
end

