-- ==== Sys2Proof/Laws/Engine.lean ====
section
/-! SUPPORT. Where buffer entries lie, what the engine's turn is, and what the buffers read after SOFT_RESET abandons an
operation (10_state.md R38, R39; 40_sequence_generator.md R134; 41_key_derivation.md R164;
    42_control_commands.md R193). -/

namespace Sys2Proof.Machine

theorem seqAddr_eq (k : Nat) : seqAddr k = seqAddr 0 + 8 * k := by simp [seqAddr]

theorem keyAddr_eq (k : Nat) : keyAddr k = keyAddr 0 + k := by simp [keyAddr]

/-- With a legal depth SEQ_BUF ends where KEY_BUF begins, or before (R38). -/
theorem seqAddr_le_keyAddr {k : Nat} (h : k ≤ 8192) : seqAddr k ≤ keyAddr 0 := by
  simp only [seqAddr, keyAddr, seqBufBase, keyBufBase]; omega

theorem State.engineTurn_idle {s : State} (h : s.eng.phase = .idle) : s.engineTurn = s := by
  simp [State.engineTurn, h]

theorem State.engineTurn_gen {s : State} (h : s.eng.phase = .run) (ho : s.eng.op = .gen) :
    s.engineTurn = s.genStep := by
  simp [State.engineTurn, h, ho]

theorem State.engineTurn_key {s : State} (h : s.eng.phase = .run) (ho : s.eng.op = .key) :
    s.engineTurn = s.keyStep := by
  simp [State.engineTurn, h, ho]

/-- The engine's turn is nothing, a GEN step or a KEY step. -/
theorem State.engineTurn_cases (s : State) :
    (s.eng.phase = .idle ∧ s.engineTurn = s) ∨
    (s.eng.phase = .run ∧ s.eng.op = .gen ∧ s.engineTurn = s.genStep) ∨
    (s.eng.phase = .run ∧ s.eng.op = .key ∧ s.engineTurn = s.keyStep) := by
  cases h : s.eng.phase with
  | idle => exact .inl ⟨rfl, State.engineTurn_idle h⟩
  | run =>
    cases ho : s.eng.op with
    | gen => exact .inr (.inl ⟨rfl, rfl, State.engineTurn_gen h ho⟩)
    | key => exact .inr (.inr ⟨rfl, rfl, State.engineTurn_key h ho⟩)

/-- What the engine's turn never touches. -/
theorem State.engineTurn_frame (s : State) :
    s.engineTurn.seqDepth = s.seqDepth ∧ s.engineTurn.keyDepth = s.keyDepth ∧ s.engineTurn.ctrl = s.ctrl ∧
    s.engineTurn.params = s.params ∧ s.engineTurn.memBefore = s.memBefore ∧ s.engineTurn.bufEpoch = s.bufEpoch ∧
    s.engineTurn.abandons = s.abandons ∧ s.engineTurn.agenda = s.agenda ∧ s.engineTurn.resp = s.resp ∧
    s.engineTurn.status.err = s.status.err := by
  rcases s.engineTurn_cases with ⟨_, e⟩ | ⟨_, _, e⟩ | ⟨_, _, e⟩ <;> rw [e] <;> simp [Status.noteElement]

/-- The byte an abandoned GEN leaves at an offset: new or old in entry `k`, otherwise what it was (R193). -/
theorem read_settleSeq (s : State) (m : Memory) (k x : Nat) :
    (s.settleSeq m k).read x =
      if seqAddr k ≤ x ∧ x < seqAddr k + 8 then
        if Config.abandonedTakesNew s.abandons k then some (byteOf (seqElem s.eng.n s.eng.lat k) (x - seqAddr k))
        else Memory.read s.memBefore x
      else Memory.read m x := by
  unfold State.settleSeq
  split
  · rw [Memory.read_putSeq]
  · rw [Memory.read_restore]

theorem read_settleKey (s : State) (m : Memory) (k x : Nat) :
    (s.settleKey m k).read x =
      if x = keyAddr k then
        if Config.abandonedTakesNew s.abandons k then
          some (keyByte (seqElem s.eng.n s.eng.lat (s.eng.size + k)))
        else Memory.read s.memBefore x
      else Memory.read m x := by
  unfold State.settleKey
  split
  · rw [Memory.read_putKey]
  · rw [Memory.read_restore]
    by_cases h : x = keyAddr k
    · rw [if_pos (by omega), if_pos h]
    · rw [if_neg (by omega), if_neg h]

/-- After every entry of an abandoned GEN is settled: entry by entry new or old in the output range, otherwise unchanged. -/
theorem read_settleSeq_range (s : State) (m : Memory) (n x : Nat) :
    ((List.range n).foldl s.settleSeq m).read x =
      if seqAddr 0 ≤ x ∧ x < seqAddr n then (s.settleSeq m ((x - seqAddr 0) / 8)).read x else Memory.read m x := by
  induction n with
  | zero => rw [if_neg (by omega)]; rfl
  | succ n ih =>
    have hn := seqAddr_eq n
    have hn' := seqAddr_eq (n + 1)
    rw [List.range_succ, List.foldl_append, List.foldl_cons, List.foldl_nil, read_settleSeq, ih]
    by_cases h : seqAddr n ≤ x ∧ x < seqAddr n + 8
    · have e : (x - seqAddr 0) / 8 = n := by omega
      rw [if_pos h, if_pos (show seqAddr 0 ≤ x ∧ x < seqAddr (n + 1) by omega), e, read_settleSeq, if_pos h]
    · rw [if_neg h]
      by_cases h' : seqAddr 0 ≤ x ∧ x < seqAddr n
      · rw [if_pos h', if_pos (by omega)]
      · rw [if_neg h', if_neg (by omega)]

theorem read_settleKey_range (s : State) (m : Memory) (n x : Nat) :
    ((List.range n).foldl s.settleKey m).read x =
      if keyAddr 0 ≤ x ∧ x < keyAddr n then (s.settleKey m (x - keyAddr 0)).read x else Memory.read m x := by
  induction n with
  | zero => rw [if_neg (by omega)]; rfl
  | succ n ih =>
    have hn := keyAddr_eq n
    have hn' := keyAddr_eq (n + 1)
    rw [List.range_succ, List.foldl_append, List.foldl_cons, List.foldl_nil, read_settleKey, ih]
    by_cases h : x = keyAddr n
    · have e : x - keyAddr 0 = n := by omega
      rw [if_pos h, if_pos (show keyAddr 0 ≤ x ∧ x < keyAddr (n + 1) by omega), e, read_settleKey, if_pos h]
    · rw [if_neg h]
      by_cases h' : keyAddr 0 ≤ x ∧ x < keyAddr n
      · rw [if_pos h', if_pos (by omega)]
      · rw [if_neg h', if_neg (by omega)]

theorem State.settleBuffers_idle {s : State} (h : s.eng.phase = .idle) : s.settleBuffers = s.mem := by
  simp [State.settleBuffers, h]

theorem State.settleBuffers_gen {s : State} (h : s.eng.phase = .run) (ho : s.eng.op = .gen) :
    s.settleBuffers = (List.range s.eng.n).foldl s.settleSeq s.mem := by simp [State.settleBuffers, h, ho]

theorem State.settleBuffers_key {s : State} (h : s.eng.phase = .run) (ho : s.eng.op = .key) :
    s.settleBuffers = (List.range s.eng.size).foldl s.settleKey s.mem := by simp [State.settleBuffers, h, ho]

/-- A property that single writes and unlistings inside `P` keep is kept by settling a range whose offsets are in `P`. -/
theorem settleSeq_induct {Q : Memory → Prop} {P : Nat → Prop} (hw : ∀ m a v, Q m → P a → Q (Memory.write m a v))
    (hu : ∀ m a, Q m → Q (Memory.unlist m a)) (s : State) {m : Memory} (n : Nat) (hm : Q m)
    (ha : ∀ x, seqAddr 0 ≤ x → x < seqAddr n → P x) : Q ((List.range n).foldl s.settleSeq m) := by
  induction n with
  | zero => exact hm
  | succ n ih =>
    have hn := seqAddr_eq n
    have hn' := seqAddr_eq (n + 1)
    have h := ih (fun x h₁ h₂ => ha x h₁ (by omega))
    rw [List.range_succ, List.foldl_append, List.foldl_cons, List.foldl_nil]
    unfold State.settleSeq
    split
    · exact Memory.writeBytes_induct hw _ h (fun j hj => ha _ (by omega) (by rw [bytesOf_length] at hj; omega))
    · exact Memory.restore_induct hw hu _ _ h (fun j hj => ha _ (by omega) (by omega))

theorem settleKey_induct {Q : Memory → Prop} {P : Nat → Prop} (hw : ∀ m a v, Q m → P a → Q (Memory.write m a v))
    (hu : ∀ m a, Q m → Q (Memory.unlist m a)) (s : State) {m : Memory} (n : Nat) (hm : Q m)
    (ha : ∀ x, keyAddr 0 ≤ x → x < keyAddr n → P x) : Q ((List.range n).foldl s.settleKey m) := by
  induction n with
  | zero => exact hm
  | succ n ih =>
    have hn := keyAddr_eq n
    have hn' := keyAddr_eq (n + 1)
    have h := ih (fun x h₁ h₂ => ha x h₁ (by omega))
    rw [List.range_succ, List.foldl_append, List.foldl_cons, List.foldl_nil]
    unfold State.settleKey
    split
    · exact hw _ _ _ h (ha _ (by omega) (by omega))
    · exact Memory.restore_induct hw hu _ _ h (fun j hj => ha _ (by omega) (by omega))

/-- A GEN step leaves its element in its entry (R134). -/
theorem genStep_new (s : State) : s.genStep.seqEntry s.prog = (s.eng.elem s.prog).1 := by
  have := State.seqEntry_putSeq s s.mem s.prog s.prog (s.eng.elem s.prog).1
  rw [if_pos rfl] at this; exact this

/-- A GEN step leaves every byte outside its entry (R134). -/
theorem genStep_old (s : State) (off : Nat) (h : ¬ (seqAddr s.prog ≤ off ∧ off < seqAddr s.prog + 8)) :
    s.genStep.bufByte off = s.bufByte off := by
  simp only [State.bufByte, State.genStep_mem]
  rw [Memory.read_putSeq, if_neg h]; rfl

theorem keyStep_warm (s : State) (h : s.prog < s.eng.size) (off : Nat) : s.keyStep.bufByte off = s.bufByte off := by
  simp only [State.bufByte, State.keyStep_mem]; rw [if_neg (by omega)]; rfl

/-- A KEY step of the second half leaves its key byte in its place (R164). -/
theorem keyStep_new (s : State) (h : s.eng.size ≤ s.prog) : s.keyStep.keyByteAt (s.prog - s.eng.size) =
    keyByte (s.eng.elem s.prog).1 := by
  simp only [State.keyByteAt, State.bufByte, State.keyStep_mem]; rw [if_pos h, Memory.read_putKey, if_pos rfl]; rfl

/-- A KEY step leaves every other byte (R164). -/
theorem keyStep_old (s : State) (off : Nat) (h : s.prog < s.eng.size ∨ off ≠ keyAddr (s.prog - s.eng.size)) :
    s.keyStep.bufByte off = s.bufByte off := by
  by_cases hl : s.prog < s.eng.size
  · exact keyStep_warm s hl off
  · simp only [State.bufByte, State.keyStep_mem]; rw [if_pos (by omega), Memory.read_putKey, if_neg (by tauto)]; rfl

end Sys2Proof.Machine
end

