-- ==== Sys2Proof/Laws/Float.lean ====
section
/-! SUPPORT. Patterns of binary64 numbers: fields, signs, real values and the order (40_sequence_generator.md R120, R123).
The constants 2^1074 and 2^2098 are kept behind names: a tactic that evaluates them in unary does not return. -/

namespace Sys2Proof.Machine

theorem fExp_lt (v : F64) : fExp v < 2048 := (v.extractLsb' 52 11).isLt

theorem fFrac_lt (v : F64) : fFrac v < 2 ^ 52 := (v.extractLsb' 0 52).isLt

theorem fExp_eq (v : F64) : fExp v = v.toNat / 2 ^ 52 % 2 ^ 11 := by
  simp [fExp, BitVec.extractLsb', Nat.shiftRight_eq_div_pow]

theorem fFrac_eq (v : F64) : fFrac v = v.toNat % 2 ^ 52 := by
  simp [fFrac, BitVec.extractLsb']

theorem fSign_eq (v : F64) : fSign v = decide (2 ^ 63 ≤ v.toNat) := by
  have := v.isLt
  rw [fSign, BitVec.getLsbD, Nat.testBit_eq_decide_div_mod_eq]
  congr 1; apply propext; omega

/-- The number of units whose pattern has the low 63 bits `m` (R120). -/
def unitsOfMag (m : Nat) : Nat := if m / 2 ^ 52 = 0 then m % 2 ^ 52 else (2 ^ 52 + m % 2 ^ 52) * 2 ^ (m / 2 ^ 52 - 1)

/-- The low 63 bits of a pattern (R120). -/
def magOf (v : F64) : Nat := fExp v * 2 ^ 52 + fFrac v

theorem magOf_div (v : F64) : magOf v / 2^52 = fExp v := by have := fFrac_lt v; unfold magOf; omega

theorem magOf_mod (v : F64) : magOf v % 2^52 = fFrac v := by have := fFrac_lt v; unfold magOf; omega

theorem magOf_lt (v : F64) : magOf v < 2^63 := by have := fExp_lt v; have := fFrac_lt v; unfold magOf; omega

theorem packSigned_toNat (neg : Bool) {m : Nat} (h : m < 2 ^ 63) :
    (packSigned neg m).toNat = (if neg then 2^63 else 0) + m := by
  unfold packSigned
  rw [BitVec.toNat_ofNat]
  cases neg <;> simp <;> omega

theorem packSigned_exp (neg : Bool) {m : Nat} (h : m < 2 ^ 63) : fExp (packSigned neg m) = m / 2^52 := by
  rw [fExp_eq, packSigned_toNat neg h]; cases neg <;> simp <;> omega

theorem packSigned_frac (neg : Bool) {m : Nat} (h : m < 2 ^ 63) : fFrac (packSigned neg m) = m % 2^52 := by
  rw [fFrac_eq, packSigned_toNat neg h]; cases neg <;> simp <;> omega

theorem packSigned_sign (neg : Bool) {m : Nat} (h : m < 2 ^ 63) : fSign (packSigned neg m) = neg := by
  rw [fSign_eq, packSigned_toNat neg h]; cases neg <;> simp <;> omega

theorem packSigned_mag (neg : Bool) {m : Nat} (h : m < 2 ^ 63) : magOf (packSigned neg m) = m := by
  unfold magOf; rw [packSigned_exp neg h, packSigned_frac neg h]; omega

theorem packSigned_finite (neg : Bool) {m : Nat} (h : m < infMag) : Spec.Finite (packSigned neg m) := by
  unfold infMag at h
  unfold Spec.Finite; rw [packSigned_exp neg (by omega)]; omega

theorem packSigned_inf (neg : Bool) : Spec.IsInf (packSigned neg infMag) neg := by
  refine ⟨?_, ?_, ?_⟩
  · rw [packSigned_exp neg (by decide)]; decide
  · rw [packSigned_frac neg (by decide)]; decide
  · rw [packSigned_sign neg (by decide)]

theorem magOf_lt_inf {v : F64} (h : Spec.Finite v) : magOf v < infMag := by
  have := fExp_lt v; have := fFrac_lt v; unfold magOf infMag; unfold Spec.Finite at h; omega

theorem fneg_eq (v : F64) : fneg v = packSigned (!fSign v) (magOf v) := by
  have hlt := v.isLt
  have hm : magOf v < 2^63 := by have := fExp_lt v; have := fFrac_lt v; unfold magOf; omega
  apply BitVec.eq_of_toNat_eq
  rw [packSigned_toNat _ hm]
  have e : magOf v = v.toNat % 2^63 := by unfold magOf; rw [fExp_eq, fFrac_eq]; omega
  rw [e, fSign_eq]
  unfold fneg
  rw [BitVec.toNat_xor]
  have : (0x8000000000000000#64).toNat = 2^63 := rfl
  rw [this]
  apply Nat.eq_of_testBit_eq
  intro j
  rw [Nat.testBit_xor, Nat.testBit_two_pow]
  by_cases h : 2^63 ≤ v.toNat
  · simp only [h, decide_true, Bool.not_true, Bool.false_eq_true, if_false, Nat.zero_add]
    rw [Nat.testBit_mod_two_pow]
    by_cases hj : j = 63
    · subst hj
      have : v.toNat.testBit 63 = true := by rw [Nat.testBit_eq_decide_div_mod_eq]; simp; omega
      simp [this]
    · by_cases hj' : j < 63
      · simp [hj', show ¬ 63 = j by omega]
      · have : v.toNat.testBit j = false :=
            Nat.testBit_lt_two_pow (lt_of_lt_of_le hlt (Nat.pow_le_pow_right (by norm_num) (by omega)))
        simp [hj', this]; omega
  · simp only [h, decide_false, Bool.not_false, if_true]
    rw [Nat.mod_eq_of_lt (by omega)]
    have hv : v.toNat < 2^63 := by omega
    by_cases hj : j = 63
    · subst hj
      have h0 : v.toNat.testBit 63 = false := Nat.testBit_lt_two_pow hv
      rw [Nat.testBit_two_pow_add_eq, h0]; simp
    · by_cases hj' : j < 63
      · rw [Nat.testBit_two_pow_add_gt hj']; simp [show ¬ 63 = j by omega]
      · have h0 : v.toNat.testBit j = false :=
            Nat.testBit_lt_two_pow (lt_of_lt_of_le hv (Nat.pow_le_pow_right (by norm_num) (by omega)))
        have h1 : (2^63 + v.toNat).testBit j = false :=
            Nat.testBit_lt_two_pow (lt_of_lt_of_le (show 2^63 + v.toNat < 2^64 by omega)
            (Nat.pow_le_pow_right (by norm_num) (by omega)))
        rw [h0, h1]; simp; omega

theorem fneg_sign (v : F64) : fSign (fneg v) = !fSign v := by rw [fneg_eq, packSigned_sign _ (magOf_lt v)]

theorem fneg_mag (v : F64) : magOf (fneg v) = magOf v := by rw [fneg_eq, packSigned_mag _ (magOf_lt v)]

theorem fneg_exp (v : F64) : fExp (fneg v) = fExp v := by rw [← magOf_div, fneg_mag, magOf_div]

theorem fneg_frac (v : F64) : fFrac (fneg v) = fFrac v := by rw [← magOf_mod, fneg_mag, magOf_mod]

theorem fneg_finite {b : F64} (h : Spec.Finite b) : Spec.Finite (fneg b) :=
    by unfold Spec.Finite; rw [fneg_exp]; exact h

theorem isInf_fneg {a : F64} {s : Bool} (h : Spec.IsInf a s) : Spec.IsInf (fneg a) (!s) :=
    ⟨by rw [fneg_exp]; exact h.1, by rw [fneg_frac]; exact h.2.1, by rw [fneg_sign, h.2.2]⟩

theorem isNaN_fneg {a : F64} (h : Spec.IsNaN a) : Spec.IsNaN (fneg a) :=
    ⟨by rw [fneg_exp]; exact h.1, by rw [fneg_frac]; exact h.2⟩

/-- A finite pattern reads as its sign and its number of units (R120). -/
theorem classify_finite {v : F64} (h : Spec.Finite v) : classify v = .fin (fSign v) (unitsOfMag (magOf v)) := by
  unfold classify unitsOfMag
  rw [magOf_div, magOf_mod, if_neg h]
  split <;> rfl

theorem classify_inf {v : F64} {neg : Bool} (h : Spec.IsInf v neg) : classify v = .inf neg := by
  unfold classify; rw [if_pos h.1, if_pos h.2.1, h.2.2]

theorem classify_nan {v : F64} (h : Spec.IsNaN v) : classify v = .nan := by
  unfold classify; rw [if_pos h.1, if_neg h.2]

/-- Every pattern is finite, an infinity or a NaN (R120). -/
theorem pattern_kinds (v : F64) : Spec.Finite v ∨ Spec.IsInf v (fSign v) ∨ Spec.IsNaN v := by
  unfold Spec.Finite Spec.IsInf Spec.IsNaN
  by_cases h : fExp v = 0x7FF <;> by_cases h' : fFrac v = 0 <;> simp [h, h']

theorem isNaN_iff (v : F64) : isNaN v = true ↔ Spec.IsNaN v := by simp [isNaN, Spec.IsNaN]

/-- The real value of a pattern is its signed number of units over 2^1074 (R120). -/
theorem value_eq (v : F64) : Spec.value v = (signedUnits (fSign v) (unitsOfMag (magOf v)) : ℚ) / 2 ^ 1074 := by
  have e : (if fExp v = 0 then (fFrac v : ℚ) * 2 ^ (-1074 : ℤ) else ((2 : ℚ) ^ 52 + fFrac v) * 2 ^ ((fExp v : ℤ) - 1075)) = (unitsOfMag (magOf v) : ℚ) / 2 ^ 1074 := by
    unfold unitsOfMag
    rw [magOf_div, magOf_mod]
    split
    · rw [zpow_neg, div_eq_mul_inv]; norm_cast
    · next h =>
      obtain ⟨k, hk⟩ := Nat.exists_eq_succ_of_ne_zero h
      rw [hk]
      push_cast
      rw [mul_div_assoc]
      congr 1
      rw [show ((k : ℤ) + 1 - 1075) = (k : ℤ) - 1074 by ring, zpow_sub₀ (by norm_num)]
      norm_cast
  unfold Spec.value
  rw [e]
  unfold signedUnits
  cases fSign v <;> simp [neg_div]

/-- The factor of a sign. -/
def signFactor (neg : Bool) : ℚ := if neg then -1 else 1

theorem abs_signFactor_mul (neg : Bool) (a : ℚ) : |signFactor neg * a| = |a| := by cases neg <;> simp [signFactor]

theorem signFactor_bne (a b : Bool) : signFactor (a != b) = signFactor a * signFactor b :=
    by cases a <;> cases b <;> simp [signFactor]

theorem signFactor_mul_self (a : Bool) : signFactor a * signFactor a = 1 := by cases a <;> simp [signFactor]

theorem value_eq_signFactor (v : F64) : Spec.value v = signFactor (fSign v) * (unitsOfMag (magOf v) :
    ℚ) / 2^1074 := by
  rw [value_eq]; unfold signedUnits signFactor; cases fSign v <;> simp

/-- The signed number of units as a rational. -/
def signedUnitsQ (v : F64) : ℚ := (signedUnits (fSign v) (unitsOfMag (magOf v)) : ℚ)

theorem signedUnitsQ_fneg (v : F64) : signedUnitsQ (fneg v) = - signedUnitsQ v := by
  unfold signedUnitsQ; rw [fneg_sign, fneg_mag]; unfold signedUnits; cases fSign v <;> simp

theorem fneg_value (b : F64) : Spec.value (fneg b) = - Spec.value b := by
  have h1 := value_eq (fneg b); have h2 := value_eq b
  rw [h1, h2]
  have := signedUnitsQ_fneg b; unfold signedUnitsQ at this; rw [this, neg_div]

theorem unitsPerOne_eq : unitsPerOne = 2 ^ 1074 := by rw [unitsPerOne]

theorem unitsPerOne_pos : 0 < unitsPerOne := Nat.pow_pos (by norm_num)

theorem unitsPerOne_cast : ((unitsPerOne : Nat) : ℚ) = 2 ^ 1074 := by unfold unitsPerOne; rw [Nat.cast_pow]; rfl

theorem value_eq_zero_iff {b : F64} : Spec.value b = 0 ↔ unitsOfMag (magOf b) = 0 := by
  rw [value_eq_signFactor]
  have : (2:ℚ)^1074 ≠ 0 := by positivity
  have h2 : signFactor (fSign b) ≠ 0 := by cases fSign b <;> simp [signFactor]
  generalize (2:ℚ)^1074 = C at *
  simp [this, h2]

/-- No finite number reaches 2^2098 units, where the order puts the infinities (R123). -/
theorem unitsOfMag_lt {m : Nat} (h : m < infMag) : unitsOfMag m < 2 ^ 2098 := by
  have hm : m % 2^52 < 2^52 := Nat.mod_lt _ (by norm_num)
  have hd : m / 2^52 < 2047 := by unfold infMag at h; omega
  have key : ∀ z, m / 2^52 - 1 ≤ z → unitsOfMag m < 2 ^ (53 + z) := by
    intro z hz
    unfold unitsOfMag
    split
    · calc _ < 2^52 := hm
        _ ≤ 2^(53 + z) := Nat.pow_le_pow_right (by norm_num) (by omega)
    · calc (2 ^ 52 + m % 2 ^ 52) * 2 ^ (m / 2 ^ 52 - 1) < 2^53 * 2 ^ (m / 2 ^ 52 - 1) :=
          Nat.mul_lt_mul_of_pos_right (by omega) (Nat.pow_pos (by norm_num))
        _ ≤ 2^53 * 2^z := Nat.mul_le_mul_left _ (Nat.pow_le_pow_right (by norm_num) hz)
        _ = 2^(53+z) := by rw [pow_add]
  exact key 2045 (by omega)

theorem orderKey_fin {a : F64} (h : Spec.Finite a) : orderKey a = some (signedUnits (fSign a)
    (unitsOfMag (magOf a))) := by unfold orderKey; rw [classify_finite h]

theorem orderKey_inf {a : F64} {s : Bool} (h : Spec.IsInf a s) : orderKey a = some (signedUnits s (2^2098)) :=
    by unfold orderKey; rw [classify_inf h]

theorem orderKey_nan {a : F64} (h : Spec.IsNaN a) : orderKey a = none := by unfold orderKey; rw [classify_nan h]

theorem fle_some {a b : F64} {x y : Int} (h1 : orderKey a = some x) (h2 : orderKey b = some y) :
    fle a b = decide (x ≤ y) := by unfold fle; rw [h1, h2]

theorem fge_some {a b : F64} {x y : Int} (h1 : orderKey a = some x) (h2 : orderKey b = some y) :
    fge a b = decide (y ≤ x) := by unfold fge; rw [h1, h2]

end Sys2Proof.Machine
end

