-- ==== Sys2Proof/Laws/PerInstr.lean ====
section
/-! SUPPORT. Statements made of every command, one lemma per constructor (30_encoding.md R91, R93, R98). -/

namespace Sys2Proof.Laws.EncodeOpcode

open Sys2Proof

/-- OPC of a command, from the table of R93. -/
def opcodeOf : Instr → Nat
  | .nop => 0x00
  | .genSeq _ => 0x01
  | .deriveKey _ => 0x02
  | .clrStatus => 0x03
  | .softReset => 0x04

/-- LEN of a command: its length operand, 0 where it has none (R91, R93). -/
def lengthOf : Instr → Nat
  | .nop => 0
  | .genSeq n => n
  | .deriveKey size => size
  | .clrStatus => 0
  | .softReset => 0

/-- The word of a well-formed command holds its OPC in bits 7:0 and its LEN in bits 31:8, and nothing else (R91, R98). -/
def Statement (i : Instr) : Prop := i.wf = true → (encodeWord i).toNat = lengthOf i * 256 + opcodeOf i

theorem commandWord_toNat (opc : Byte) (len : Nat) (h : lenFits len = true) :
    (commandWord opc len).toNat = len * 256 + opc.toNat := by
  have hlen : len < 2 ^ 24 := by simpa [lenFits] using h
  have hopc := opc.isLt
  rw [commandWord, BitVec.toNat_append, BitVec.toNat_ofNat, Nat.mod_eq_of_lt hlen, Nat.shiftLeft_eq, Nat.mul_comm len,
    ← Nat.two_pow_add_eq_or_of_lt hopc]

theorem nop : Statement .nop := fun _ => commandWord_toNat 0x00#8 0 rfl

theorem genSeq (n : Nat) : Statement (.genSeq n) := fun h => commandWord_toNat 0x01#8 n h

theorem deriveKey (size : Nat) : Statement (.deriveKey size) := fun h => commandWord_toNat 0x02#8 size h

theorem clrStatus : Statement .clrStatus := fun _ => commandWord_toNat 0x03#8 0 rfl

theorem softReset : Statement .softReset := fun _ => commandWord_toNat 0x04#8 0 rfl

end Sys2Proof.Laws.EncodeOpcode
end

