-- ==== Sys2Proof/Laws/Port.lean ====
section
/-! SUPPORT. What one step is for each next event, and the rows of the window's map that fixed offsets fall in
(20_memory.md R60, R63, R67, R74). -/

namespace Sys2Proof.Machine

theorem step_nil {s : State} (h : s.agenda = []) : step s = .next s.engineTurn := by simp [step, h]

theorem step_cons {s : State} {ev : Event} {rest : List Event} (h : s.agenda = ev :: rest) :
    step s = State.handle ev (s.withAgenda rest) := by simp [step, h]

theorem handle_read {off : Nat} (h : off < 0x30000) (w : Width) (s : State) :
    State.handle (.read off w) s = .next (s.memRead off w) := by
  rw [State.handle, if_neg (show ¬ windowSpan ≤ off by simp only [windowSpan]; omega)]

theorem handle_read_outside {off : Nat} (h : 0x30000 ≤ off) (w : Width) (s : State) :
    State.handle (.read off w) s = .fault .outsideWindow :=
        by rw [State.handle, if_pos (show windowSpan ≤ off from h)]

theorem handle_write {off : Nat} (h : off < 0x30000) (w : Width) (data : BitVec 64) (s : State) :
    State.handle (.write off w data) s = s.memWrite off w data := by
  rw [State.handle, if_neg (show ¬ windowSpan ≤ off by simp only [windowSpan]; omega)]

theorem handle_write_outside {off : Nat} (h : 0x30000 ≤ off) (w : Width) (data : BitVec 64) (s : State) :
    State.handle (.write off w data) s = .fault .outsideWindow := by
  rw [State.handle, if_pos (show windowSpan ≤ off from h)]

theorem validRow_cmd (sd kd : Nat) (dir : Dir) : validRow sd kd 0x00010 .w4 dir = some ⟨0x00010, 4, .cmd⟩ := by
  cases dir <;> rfl

theorem validRow_ctrl (sd kd : Nat) (dir : Dir) : validRow sd kd 0x0000C .w4 dir = some ⟨0x0000C, 4, .ctrl⟩ := by
  cases dir <;> rfl

/-- The row of a parameter register's eight offsets. -/
def ParamReg.row : ParamReg → MapRow
  | .r => ⟨0x00020, 8, .param .r⟩
  | .x0 => ⟨0x00028, 8, .param .x0⟩
  | .p => ⟨0x00030, 8, .param .p⟩
  | .q => ⟨0x00038, 8, .param .q⟩

theorem validRow_param (sd kd : Nat) (which : ParamReg) (dir : Dir) :
    validRow sd kd which.row.base .w8 dir = some which.row ∧ validRow sd kd which.row.base .w4 dir = some which.row ∧
    validRow sd kd (which.row.base + 4) .w4 dir = some which.row := by
  cases which <;> cases dir <;> exact ⟨rfl, rfl, rfl⟩

/-- Outside the four groups of registers and the two buffers there is no row (R69). -/
theorem rowAt_cases {sd kd off : Nat} {row : MapRow} (h : rowAt sd kd off = some row) :
    row ∈ memoryMap sd kd ∧ row.base ≤ off ∧ off < row.base + row.size := by
  unfold rowAt at h
  have := List.find?_some h
  simp only [MapRow.covers, Bool.and_eq_true, decide_eq_true_eq] at this
  exact ⟨List.mem_of_find?_eq_some h, this⟩

/-- A valid access lies in its row, is allowed there, and is writable if it writes (R63). -/
theorem validRow_cases {sd kd off : Nat} {w : Width} {dir : Dir} {row : MapRow} (h : validRow sd kd off w dir =
    some row) :
    rowAt sd kd off = some row ∧ row.allows off w = true ∧ (dir = .read ∨ row.region.writable = true) := by
  unfold validRow at h
  split at h
  · cases h
  · next r hr =>
    split at h
    · next hv =>
      cases h
      simp only [Bool.and_eq_true, Bool.or_eq_true, decide_eq_true_eq] at hv
      exact ⟨hr, hv.1, hv.2⟩
    · cases h

/-- A command always completes: a CMD write is answered OKAY whatever its word (R95). -/
theorem acceptWord_next (word : Word) (s : State) : ∃ t, acceptWord word s = .next t := by
  unfold acceptWord
  split
  · exact ⟨_, exec_eq_after _ _⟩
  · exact ⟨_, rfl⟩

/-- A rejected word raises one of two errors and does nothing else (R94, R95). -/
theorem rejectWord_cases (s : State) :
    s.rejectWord = s.raiseErr .busyWrite ∨ s.rejectWord = s.raiseErr .illegalCmd := by
  unfold State.rejectWord State.whenIdle; split <;> simp

/-- Everything one event can do (R74): the five ways a step answers a next state. -/
theorem step_cases {s t : State} (h : step s = .next t) :
    (s.agenda = [] ∧ t = s.engineTurn) ∨
    ∃ ev rest, s.agenda = ev :: rest ∧
      ((ev = .engineTurn ∧ t = (s.withAgenda rest).engineTurn) ∨
       (ev = .hardReset ∧ t = (s.withAgenda rest).hardReset) ∨
       (∃ off w answer, ev = .read off w ∧ off < 0x30000 ∧ t = { s.withAgenda rest with resp := some answer }) ∨
       (∃ off w data, ev = .write off w data ∧ off < 0x30000 ∧
          (s.withAgenda rest).memWrite off w data = .next t)) := by
  cases ha : s.agenda with
  | nil => rw [step_nil ha] at h; cases h; exact .inl ⟨rfl, rfl⟩
  | cons ev rest =>
    refine .inr ⟨ev, rest, rfl, ?_⟩
    rw [step_cons ha] at h
    cases ev with
    | engineTurn => cases h; exact .inl ⟨rfl, rfl⟩
    | hardReset => cases h; exact .inr (.inl ⟨rfl, rfl⟩)
    | read off w =>
      by_cases ho : off < 0x30000
      · rw [handle_read ho] at h
        cases h
        refine .inr (.inr (.inl ⟨off, w, ?_⟩))
        unfold State.memRead
        split <;> exact ⟨_, rfl, ho, rfl⟩
      · rw [handle_read_outside (by omega)] at h; cases h
    | write off w data =>
      by_cases ho : off < 0x30000
      · rw [handle_write ho] at h
        exact .inr (.inr (.inr ⟨off, w, data, rfl, ho, h⟩))
      · rw [handle_write_outside (by omega)] at h; cases h

/-- Everything a write inside the window can do (R67): BUS, a CTRL write, a command or a rejected word, a parameter write. -/
theorem memWrite_cases {s t : State} {off : Nat} {w : Width} {data : BitVec 64} (h : s.memWrite off w data =
    .next t) :
    (validRow s.seqDepth s.keyDepth off w .write = none ∧ t = (s.raiseErr .bus).respondWrite .error) ∨
    (off = 0x0000C ∧ w = .w4 ∧ t = (s.writeCtrl data).respondWrite .okay) ∨
    (off = 0x00010 ∧ w = .w4 ∧
      ((∃ i, decodeWord (data.extractLsb' 0 32) = .ok i ∧ t = (after i s).respondWrite .okay) ∨
       (∃ e, decodeWord (data.extractLsb' 0 32) = .error e ∧ t = s.rejectWord.respondWrite .okay))) ∨
    (∃ which : ParamReg, which.row.base ≤ off ∧ off < which.row.base + 8 ∧
      t = (s.writeParam which (off - which.row.base) w data).respondWrite .okay) := by
  unfold State.memWrite at h
  split at h
  · next row hv =>
    obtain ⟨hrow, hallow, hwr⟩ := validRow_cases hv
    obtain ⟨hmem, hlo, hhi⟩ := rowAt_cases hrow
    have hwr : row.region.writable = true := by simpa using hwr
    simp only [memoryMap, List.mem_cons, List.not_mem_nil, or_false] at hmem
    rcases hmem with rfl | rfl | rfl | rfl | rfl | rfl | rfl | rfl | rfl | rfl | rfl | rfl | rfl <;>
      first
      | (exfalso; simp [Region.writable] at hwr; done)
      | skip
    · simp only [MapRow.allows, Bool.and_eq_true, decide_eq_true_eq] at hallow
      cases h
      exact .inr (.inl ⟨hallow.2, hallow.1, rfl⟩)
    · simp only [MapRow.allows, Bool.and_eq_true, decide_eq_true_eq] at hallow
      refine .inr (.inr (.inl ⟨hallow.2, hallow.1, ?_⟩))
      simp only [State.writeRegion, acceptWord] at h
      split at h
      · next i hi => rw [exec_eq_after] at h; cases h; exact .inl ⟨i, hi, rfl⟩
      · next e he => cases h; exact .inr ⟨e, he, rfl⟩
    · cases h; exact .inr (.inr (.inr ⟨.r, hlo, hhi, rfl⟩))
    · cases h; exact .inr (.inr (.inr ⟨.x0, hlo, hhi, rfl⟩))
    · cases h; exact .inr (.inr (.inr ⟨.p, hlo, hhi, rfl⟩))
    · cases h; exact .inr (.inr (.inr ⟨.q, hlo, hhi, rfl⟩))
  · next hv => cases h; exact .inl ⟨hv, rfl⟩

theorem writeRegion_param (s : State) (which : ParamReg) (off : Nat) (w : Width) (data : BitVec 64) :
  s.writeRegion which.row off w data = .next (s.writeParam which (off - which.row.base) w data) :=
      by cases which <;> rfl

/-- The rows do not overlap: an offset that a row covers lies in that row (R20, R38). -/
theorem rowAt_of_mem {sd kd off : Nat} {row : MapRow} (hsd : sd ≤ 8192) (hm : row ∈ memoryMap sd kd)
    (h1 : row.base ≤ off) (h2 : off < row.base + row.size) : rowAt sd kd off = some row := by
  cases h : rowAt sd kd off with
  | none =>
    unfold rowAt at h
    rw [List.find?_eq_none] at h
    exact absurd (h row hm) (by simp [MapRow.covers]; omega)
  | some row' =>
    obtain ⟨hm', h3, h4⟩ := rowAt_cases h
    congr 1
    simp only [memoryMap, List.mem_cons, List.not_mem_nil, or_false] at hm hm'
    rcases hm with rfl | rfl | rfl | rfl | rfl | rfl | rfl | rfl | rfl | rfl | rfl | rfl | rfl <;>
    rcases hm' with rfl | rfl | rfl | rfl | rfl | rfl | rfl | rfl | rfl | rfl | rfl | rfl | rfl <;>
    first | rfl | (exfalso; simp only [seqBufBase, keyBufBase] at h1 h2 h3 h4; omega)

/-- A valid access, by the row it falls in (R63). -/
theorem validRow_some_iff {sd kd off : Nat} {w : Width} {dir : Dir} {row : MapRow} (hsd : sd ≤ 8192) :
  validRow sd kd off w dir = some row ↔ row ∈ memoryMap sd kd ∧ row.base ≤ off ∧ off < row.base + row.size ∧
      row.allows off w = true ∧ (dir = .read ∨ row.region.writable = true) := by
  constructor
  · intro h
    obtain ⟨h1, h2, h3⟩ := validRow_cases h
    obtain ⟨h4, h5, h6⟩ := rowAt_cases h1
    exact ⟨h4, h5, h6, h2, h3⟩
  · rintro ⟨h1, h2, h3, h4, h5⟩
    simp only [validRow, rowAt_of_mem hsd h1 h2 h3]
    rw [if_pos]
    simp [h4, h5]

/-- A write inside the window always completes (R67). -/
theorem memWrite_next (s : State) (off : Nat) (w : Width) (data : BitVec 64) :
    ∃ t, s.memWrite off w data = .next t := by
  unfold State.memWrite
  split
  · next row h =>
    have : ∃ t, s.writeRegion row off w data = .next t := by
      unfold State.writeRegion; split <;> first | exact ⟨_, rfl⟩ | exact acceptWord_next _ _
    obtain ⟨t, ht⟩ := this
    rw [ht]; exact ⟨_, rfl⟩
  · exact ⟨_, rfl⟩

/-- STATUS bit by bit (R26 to R32). -/
theorem statusWord_bits (s : State) (j : Nat) : s.statusWord.getLsbD j = 
   if j < 1 then s.busy else if j < 2 then s.status.done else if j < 4 then false else if j < 8 then s.status.err.code.getLsbD (j - 4) else if j < 9 then s.status.nan else if j < 10 then s.status.clamp else if j < 11 then s.irq else false := by
  unfold State.statusWord
  simp only [BitVec.getLsbD_append, Nat.sub_sub]
  split
  · next h => have : j = 0 := by omega
              subst this; simp
  · split
    · next h => have : j = 1 := by omega
                subst this; simp
    · split
      · have : j = 2 ∨ j = 3 := by omega
        rcases this with rfl | rfl <;> simp
      · split
        · have : j = 4 ∨ j = 5 ∨ j = 6 ∨ j = 7 := by omega
          rcases this with rfl | rfl | rfl | rfl <;> simp
        · split
          · have : j = 8 := by omega
            subst this; simp
          · split
            · have : j = 9 := by omega
              subst this; simp
            · split
              · have : j = 10 := by omega
                subst this; simp
              · repeat rw [if_neg (by omega)]
                simp

end Sys2Proof.Machine
end

