-- ==== Sys2Proof/Laws/Rounding.lean ====
section
/-! SUPPORT. Rounding an exact value once, ties to even (40_sequence_generator.md R121): what `roundMag` gives. -/

namespace Sys2Proof.Machine

/-- The rounded quotient is a nearest integer, and is even where another integer is equally near. -/
theorem roundNearestEven_nearest {num den : Nat} (hd : 0 < den) (j : ℤ) :
   |(roundNearestEven num den : ℚ) - (num : ℚ) / den| ≤ |(j : ℚ) - (num : ℚ)/den| ∧
   (|(j : ℚ) - (num : ℚ)/den| = |(roundNearestEven num den : ℚ) - (num : ℚ) / den| →
       (j : ℚ) ≠ roundNearestEven num den → roundNearestEven num den % 2 = 0) := by
  have hdq : (0 : ℚ) < den := by exact_mod_cast hd
  set q := num / den with hq
  set r := num % den with hr
  have hrd : r < den := Nat.mod_lt _ hd
  have hn : num = den * q + r := (Nat.div_add_mod num den).symm
  have hx : (num : ℚ) / den = q + (r : ℚ) / den := by
    rw [hn]; push_cast; field_simp
  have hr0 : (0 : ℚ) ≤ (r : ℚ) / den := by positivity
  have hr1 : (r : ℚ) / den < 1 := by rw [div_lt_one hdq]; exact_mod_cast hrd
  have hjc : (j ≤ q) ∨ ((q : ℤ) + 1 ≤ j) := by omega
  rw [hx]
  unfold roundNearestEven
  rw [← hq, ← hr]
  have key1 : den < 2 * r ↔ (1 : ℚ) < 2 * ((r : ℚ) / den) := by
    rw [mul_div_assoc', lt_div_iff₀ hdq]; constructor
    · intro h; have : (den : ℚ) < ((2 * r : ℕ) : ℚ) := by exact_mod_cast h
      push_cast at this; linarith
    · intro h; have : (den : ℚ) < ((2 * r : ℕ) : ℚ) := by push_cast; linarith
      exact_mod_cast this
  have key2 : 2 * r = den ↔ 2 * ((r : ℚ) / den) = 1 := by
    rw [mul_div_assoc', div_eq_one_iff_eq hdq.ne']; constructor
    · intro h; have : ((2 * r : ℕ) : ℚ) = (den : ℚ) := by exact_mod_cast h
      push_cast at this; linarith
    · intro h; have : ((2 * r : ℕ) : ℚ) = (den : ℚ) := by push_cast; linarith
      exact_mod_cast this
  simp only [key1, key2]
  generalize (r : ℚ) / den = f at *
  have hjq : (j : ℚ) ≤ q ∨ (q : ℚ) + 1 ≤ j := by
    rcases hjc with h | h
    · left; exact_mod_cast h
    · right; exact_mod_cast h
  have A : ∀ a : ℚ, a ≤ q → |a - (q + f)| = q + f - a := fun a ha => by rw [abs_of_nonpos (by linarith)]; ring
  have B : ∀ a : ℚ, (q : ℚ) + 1 ≤ a → |a - (q + f)| = a - (q + f) := fun a ha => by rw [abs_of_nonneg (by linarith)]
  split
  · next h =>
    push_cast
    rw [B _ le_rfl]
    have hf : 1 ≤ 2 * f := by rcases h with h | h; exact h.le; exact h.1.ge
    rcases hjq with hj | hj
    · rw [A _ hj]
      refine ⟨by linarith, fun he hne => ?_⟩
      rcases h with h | h
      · linarith
      · omega
    · rw [B _ hj]
      refine ⟨by linarith, fun he hne => absurd ?_ hne⟩
      linarith
  · next h =>
    rw [not_or, not_lt] at h
    rw [A _ le_rfl]
    rcases hjq with hj | hj
    · rw [A _ hj]
      refine ⟨by linarith, fun he hne => absurd ?_ hne⟩
      linarith
    · rw [B _ hj]
      refine ⟨by linarith [h.1], fun he hne => ?_⟩
      have h2 : 2 * f = 1 := by linarith [h.1]
      have := h.2
      rw [not_and] at this
      have := this h2
      omega

theorem roundNearestEven_exact {D s : Nat} (hD : 0 < D) : roundNearestEven (D * s) D = s := by
  unfold roundNearestEven; simp [hD]; omega

theorem roundNearestEven_le {num den b : Nat} (hd : 0 < den) (h : num ≤ den * b) : roundNearestEven num den ≤ b := by
  unfold roundNearestEven
  have h1 := Nat.div_add_mod num den
  have h2 := Nat.mod_lt num hd
  have h3 : num / den ≤ b := Nat.div_le_of_le_mul h
  split
  · next hc =>
    by_contra hb
    have : num / den = b := by omega
    rw [this] at h1
    omega
  · exact h3

theorem le_roundNearestEven {num den b : Nat} (hd : 0 < den) (h : den * b ≤ num) : b ≤ roundNearestEven num den := by
  unfold roundNearestEven
  have : b ≤ num / den := (Nat.le_div_iff_mul_le hd).2 (by rw [Nat.mul_comm]; exact h)
  split <;> omega

/-- Rounding reaches the top of the significand exactly from the midpoint below it on. -/
theorem roundNearestEven_top_aux {num D q0 : Nat} (hq : q0 + 1 = 2 ^ 53) (hD : 0 < D) :
    q0 + 1 ≤ roundNearestEven num D ↔ (2 * q0 + 1) * D ≤ 2 * num := by
  have hodd : q0 % 2 = 1 := by omega
  clear hq
  unfold roundNearestEven
  have h1 := Nat.div_add_mod num D
  have h2 := Nat.mod_lt num hD
  rw [Nat.add_mul, Nat.mul_assoc, Nat.one_mul]
  rcases Nat.lt_trichotomy (num / D) q0 with h | h | h
  · have : num < q0 * D := (Nat.div_lt_iff_lt_mul hD).1 h
    generalize q0 * D = P at *
    split <;> omega
  · rw [h, Nat.mul_comm] at h1
    rw [h]
    generalize q0 * D = P at *
    split <;> omega
  · have : (q0 + 1) * D ≤ num := (Nat.le_div_iff_mul_le hD).1 h
    rw [Nat.add_mul, Nat.one_mul] at this
    generalize q0 * D = P at *
    split <;> omega

theorem roundNearestEven_top {num D : Nat} (hD : 0 < D) : 2 ^ 53 ≤ roundNearestEven num D ↔
    (2 ^ 54 - 1) * D ≤ 2 * num :=
  roundNearestEven_top_aux (q0 := 9007199254740991) (by norm_num) hD

/-- The pattern `k * 2^52 + sig` stands for `sig` multiples of 2^k units: subnormal, normal and carry alike. -/
theorem unitsOfMag_round {k sig : Nat} (h1 : sig ≤ 2 ^ 53) (h2 : k = 0 ∨ 2 ^ 52 ≤ sig) :
    unitsOfMag (k * 2 ^ 52 + sig) = sig * 2 ^ k := by
  unfold unitsOfMag
  rcases Nat.lt_or_ge sig (2^52) with h | h
  · have : k = 0 := by omega
    subst this
    rw [if_pos (by omega)]; simp; omega
  · rcases Nat.lt_or_ge sig (2^53) with h' | h'
    · have e1 : (k * 2 ^ 52 + sig) / 2^52 = k + 1 := by omega
      have e2 : (k * 2 ^ 52 + sig) % 2^52 = sig - 2^52 := by omega
      rw [e1, e2, if_neg (by omega), Nat.add_sub_cancel, show 2^52 + (sig - 2^52) = sig by omega]
    · have e0 : sig = 2^52 * 2 := by omega
      have e1 : (k * 2 ^ 52 + sig) / 2^52 = k + 2 := by omega
      have e2 : (k * 2 ^ 52 + sig) % 2^52 = 0 := by omega
      rw [e1, e2, if_neg (by omega), show k + 2 - 1 = k + 1 by omega, e0, Nat.add_zero, Nat.mul_assoc,
          Nat.pow_succ' (n := k)]

/-- Above 2^(52+k) units only multiples of 2^k have a pattern. -/
theorem unitsOfMag_dvd_or_lt (m k : Nat) : 2 ^ k ∣ unitsOfMag m ∨ unitsOfMag m < 2 ^ (52 + k) := by
  unfold unitsOfMag
  have hm : m % 2^52 < 2^52 := Nat.mod_lt _ (by norm_num)
  split
  · right; calc m % 2^52 < 2^52 := hm
      _ ≤ 2^(52+k) := Nat.pow_le_pow_right (by norm_num) (by omega)
  · rcases Nat.lt_or_ge (m / 2^52 - 1) k with h | h
    · right
      calc (2 ^ 52 + m % 2 ^ 52) * 2 ^ (m / 2 ^ 52 - 1) < 2^53 * 2 ^ (m / 2 ^ 52 - 1) := by
            apply Nat.mul_lt_mul_of_pos_right (by omega) (by positivity)
        _ ≤ 2^53 * 2^(k-1) := Nat.mul_le_mul_left _ (Nat.pow_le_pow_right (by norm_num) (by omega))
        _ = 2^(52+k) := by rw [← pow_add]; congr 1; omega
    · left; exact Dvd.dvd.mul_left (pow_dvd_pow _ h) _

/-- A number with a pattern is a multiple of its own spacing. -/
theorem unitsOfMag_dvd (m : Nat) : 2 ^ quantumExp (unitsOfMag m) ∣ unitsOfMag m := by
  have hm : m % 2^52 < 2^52 := Nat.mod_lt _ (by norm_num)
  unfold unitsOfMag
  split
  · have : quantumExp (m % 2^52) = 0 := by
      unfold quantumExp
      by_cases h0 : m % 2^52 = 0
      · rw [h0]; decide
      · have := (Nat.log2_lt h0).2 hm; omega
    rw [this]; simp
  · refine Dvd.dvd.mul_left (pow_dvd_pow 2 ?_) _
    unfold quantumExp
    have h1 : (2 ^ 52 + m % 2 ^ 52) * 2 ^ (m / 2 ^ 52 - 1) < 2 ^ (53 + (m / 2 ^ 52 - 1)) := by
      rw [pow_add]; exact Nat.mul_lt_mul_of_pos_right (by omega) (Nat.pow_pos (by norm_num))
    have := (Nat.log2_lt (Nat.mul_ne_zero (by omega) (Nat.pow_pos (by norm_num)).ne')).2 h1
    omega

/-- The spacing puts the exact value between 2^52 and 2^53 multiples of it, or is one unit. -/
theorem quantumExp_bounds {num den : Nat} (hd : 0 < den) : 
   num ≤ (den * 2 ^ quantumExp (num/den)) * 2^53 ∧
       (quantumExp (num/den) = 0 ∨ (den * 2 ^ quantumExp (num/den)) * 2^52 ≤ num) := by
  unfold quantumExp
  set w := num / den with hw
  by_cases h0 : w = 0
  · have : num < den := by
      rw [hw, Nat.div_eq_zero_iff] at h0; omega
    rw [h0]; simp; omega
  · have h1 : 2 ^ w.log2 ≤ w := Nat.log2_self_le h0
    have h2 : w < 2 ^ (w.log2 + 1) := Nat.lt_log2_self
    constructor
    · have : num < den * 2 ^ (w.log2 + 1) := by
        have := (Nat.div_lt_iff_lt_mul hd).1 (hw ▸ h2); rw [Nat.mul_comm]; exact this
      refine this.le.trans ?_
      rw [Nat.mul_assoc, ← pow_add]
      exact Nat.mul_le_mul_left _ (Nat.pow_le_pow_right (by norm_num) (by omega))
    · by_cases h : w.log2 ≤ 52
      · left; omega
      · right
        rw [Nat.mul_assoc, ← pow_add, show w.log2 - 52 + 52 = w.log2 by omega]
        calc den * 2 ^ w.log2 ≤ den * w := Nat.mul_le_mul_left _ h1
          _ ≤ num := Nat.mul_div_le num den

/-- The rounded magnitude is a nearest binary64 number, with an even significand where another is equally near (R121). -/
theorem roundMag_spec {num den : Nat} (hd : 0 < den) (hlt : roundMag num den < infMag) (y : F64) :
   |(unitsOfMag (roundMag num den) : ℚ) - (num : ℚ)/den| ≤ |(signedUnits (fSign y) (unitsOfMag (magOf y)) :
       ℚ) - (num : ℚ)/den| ∧
   (|(signedUnits (fSign y) (unitsOfMag (magOf y)) : ℚ) - (num : ℚ)/den| = |(unitsOfMag (roundMag num den) :
       ℚ) - (num : ℚ)/den| → 
      (signedUnits (fSign y) (unitsOfMag (magOf y)) : ℚ) ≠ unitsOfMag (roundMag num den) →
          roundMag num den % 2 = 0) := by
  obtain ⟨b1, b2⟩ := quantumExp_bounds (num := num) hd
  have e : roundMag num den = quantumExp (num / den) * 2 ^ 52 + roundNearestEven num (den * 2 ^ quantumExp (num / den)) := by
    unfold roundMag at *; omega
  rw [e]
  generalize quantumExp (num / den) = k at *
  have hd' : 0 < den * 2 ^ k := by positivity
  have s1 := roundNearestEven_le hd' b1
  have s2 : k = 0 ∨ 2^52 ≤ roundNearestEven num (den * 2^k) := by
    rcases b2 with h | h
    · exact .inl h
    · exact .inr (le_roundNearestEven hd' h)
  rw [unitsOfMag_round s1 s2]
  have near := roundNearestEven_nearest (num := num) hd'
  have hp : (0 : ℚ) < 2 ^ k := by positivity
  have hdq : (0 : ℚ) < den := by exact_mod_cast hd
  have scale : ∀ a : ℚ, |a * 2 ^ k - (num : ℚ)/den| = 2^k * |a - (num : ℚ) / ((den * 2^k : ℕ) : ℚ)| := by
    intro a
    rw [← abs_of_pos hp, ← abs_mul, abs_of_pos hp]
    congr 1; push_cast; field_simp
  have x0 : (0 : ℚ) ≤ (num : ℚ) / den := by positivity
  have mult : ∀ j : ℤ, |((roundNearestEven num (den * 2^k) * 2^k : ℕ) :
      ℚ) - (num : ℚ)/den| ≤ |(j : ℚ) * 2^k - (num : ℚ)/den| ∧ (|(j : ℚ) * 2^k - (num : ℚ)/den| =
      |((roundNearestEven num (den * 2^k) * 2^k : ℕ) : ℚ) - (num : ℚ)/den| →
      (j : ℚ) * 2^k ≠ ((roundNearestEven num (den * 2^k) * 2^k : ℕ) : ℚ) → roundNearestEven num (den * 2^k) % 2 =
      0) := by
    intro j
    have := near j
    rw [show ((roundNearestEven num (den * 2^k) * 2^k : ℕ) : ℚ) = (roundNearestEven num (den * 2^k) :
        ℚ) * 2^k by push_cast; rfl, scale, scale]
    refine ⟨mul_le_mul_of_nonneg_left this.1 hp.le, fun h1 h2 => this.2 (mul_left_cancel₀ hp.ne' h1)
        (fun h3 => h2 (by rw [h3]))⟩
  have dv := unitsOfMag_dvd_or_lt (magOf y) k
  generalize unitsOfMag (magOf y) = u at *
  have hcase : 2^k ∣ u ∨ (u < 2^(52+k) ∧ den * 2^k * 2^52 ≤ num) := by
    rcases dv with h | h
    · exact .inl h
    · rcases b2 with rfl | b2
      · left; simp
      · exact .inr ⟨h, b2⟩
  rcases hcase with ⟨c, rfl⟩ | ⟨h1, h2⟩
  · have hj : (signedUnits (fSign y) (2^k * c) : ℚ) = ((if fSign y then -(c : ℤ) else c : ℤ) : ℚ) * 2^k := by
      unfold signedUnits; cases fSign y <;> simp <;> ring
    rw [hj]
    refine ⟨(mult _).1, fun h1 h2 => ?_⟩
    have := (mult _).2 h1 h2
    omega
  · have hu : (u : ℚ) < 2^52 * 2^k := by rw [← pow_add]; exact_mod_cast h1
    have hx : (2^52 * 2^k : ℚ) ≤ (num : ℚ) / den := by
      rw [le_div_iff₀ hdq]
      have : ((den * 2^k * 2^52 : ℕ) : ℚ) ≤ num := by exact_mod_cast h2
      push_cast at this; linarith
    have hs : (signedUnits (fSign y) u : ℚ) ≤ u := by
      have : (0 : ℚ) ≤ u := by positivity
      unfold signedUnits; cases fSign y <;> simp
    have hb := (mult (2^52 : ℤ)).1
    rw [show (((2^52 : ℤ) : ℚ)) = 2^52 by norm_num] at hb
    rw [abs_of_nonpos (show (2^52 * 2^k : ℚ) - (num : ℚ)/den ≤ 0 by linarith)] at hb
    rw [abs_of_nonpos (show (signedUnits (fSign y) u : ℚ) - (num : ℚ)/den ≤ 0 by linarith)]
    constructor
    · linarith
    · intro h; exfalso; linarith

theorem roundMag_le (num den : Nat) : roundMag num den ≤ infMag := Nat.min_le_right _ _

/-- Rounding gives an infinity exactly from half a unit beyond the last finite number on (R121). -/
theorem roundMag_eq_infMag_iff {num den z : Nat} (hz : z + 3 = 2047) (hd : 0 < den) : roundMag num den = infMag ↔
    (2 ^ 54 - 1) * (den * 2 ^ z) ≤ num := by
  obtain ⟨b1, b2⟩ := quantumExp_bounds (num := num) hd
  have e : roundMag num den = infMag ↔
      2047 * 2^52 ≤ quantumExp (num / den) * 2 ^ 52 + roundNearestEven num (den * 2 ^ quantumExp (num / den)) := by
    unfold roundMag infMag; omega
  rw [e]
  have mono : ∀ a b : Nat, a ≤ b → den * 2 ^ a ≤ den * 2 ^ b :=
      fun a b h => Nat.mul_le_mul_left _ (Nat.pow_le_pow_right (by norm_num) h)
  have dbl : ∀ n, den * 2 ^ (n + 1) = 2 * (den * 2^n) := fun n => by rw [Nat.pow_succ' (n := n), Nat.mul_left_comm]
  generalize quantumExp (num / den) = k at *
  have hd' : 0 < den * 2 ^ k := Nat.mul_pos hd (Nat.pow_pos (by norm_num))
  have s1 := roundNearestEven_le hd' b1
  have d1 := dbl z
  have d2 := dbl (z + 1)
  rcases Nat.lt_trichotomy k (z + 1) with h | h | h
  · have := mono k z (by omega)
    generalize den * 2^z = A at *
    generalize den * 2^k = B at *
    omega
  · have := roundNearestEven_top (num := num) hd'
    subst h
    rw [d1] at *
    generalize den * 2^z = A at *
    omega
  · have h3 := mono (z+1+1) k (by omega)
    generalize den * 2^z = A at *
    generalize den * 2^(z+1) = A1 at *
    generalize den * 2^(z+1+1) = A2 at *
    have h4 : den * 2 ^ k * 2 ^ 52 ≤ num := by omega
    have := le_roundNearestEven hd' h4
    generalize den * 2^k = B at *
    omega

theorem roundMag_zero (den : Nat) : roundMag 0 den = 0 := by
  unfold roundMag quantumExp roundNearestEven
  simp

/-- A value that is a multiple of its own spacing is rounded to itself. -/
theorem roundMag_exact {num den u : Nat} (hd : 0 < den) (hu : num = den * u) (h : 2 ^ quantumExp u ∣ u)
    (hlt : roundMag num den < infMag) : unitsOfMag (roundMag num den) = u := by
  obtain ⟨b1, b2⟩ := quantumExp_bounds (num := num) hd
  have e : roundMag num den = quantumExp (num / den) * 2 ^ 52 + roundNearestEven num (den * 2 ^ quantumExp (num / den)) := by
    unfold roundMag at *; omega
  have hq : num / den = u := by rw [hu, Nat.mul_div_cancel_left _ hd]
  rw [e]; rw [hq] at b1 b2 ⊢
  obtain ⟨c, hc⟩ := h
  generalize quantumExp u = k at *
  subst hc
  have hd' : 0 < den * 2 ^ k := Nat.mul_pos hd (Nat.pow_pos (by norm_num))
  have s1 := roundNearestEven_le hd' b1
  have s2 : k = 0 ∨ 2^52 ≤ roundNearestEven num (den * 2^k) := by
    rcases b2 with h | h
    · exact .inl h
    · exact .inr (le_roundNearestEven hd' h)
  rw [unitsOfMag_round s1 s2, hu, ← Nat.mul_assoc, roundNearestEven_exact hd', Nat.mul_comm]

theorem overflow_threshold_units : (2 ^ 1024 - 2 ^ 970 : ℚ) * 2 ^ 1074 = (2 ^ 54 - 1) * 2 ^ 2044 := by
  have h : ∀ n m : ℕ, (2 ^ (54 + n) - 2 ^ n : ℚ) * 2 ^ m = (2 ^ 54 - 1) * 2 ^ (n + m) := by
    intro n m
    rw [pow_add, pow_add]
    ring
  exact h 970 1074

theorem one_lt_overflow_threshold : (1:ℚ) < 2^1024 - 2^970 := by
  have key : ∀ n : ℕ, (1:ℚ) < 2^(54+n) - 2^n := by
    intro n
    rw [pow_add]
    have : (1:ℚ) ≤ 2^n := one_le_pow₀ (by norm_num)
    generalize (2:ℚ)^n = B at *
    linarith
  exact key 970

/-- Rounding a magnitude and attaching the sign is correct rounding, the constants of the format abstracted. -/
theorem roundsTo_aux (neg : Bool) {num den : Nat} (hd : 0 < den) {C T E : ℚ} (hC : 0 < C) (hT : T * C = E)
    (hE : 0 < E)
   (hth : roundMag num den = infMag ↔ E * den ≤ num) (hv : ∀ v, Spec.value v = signedUnitsQ v / C) :
   if T ≤ |signFactor neg * ((num : ℚ) / den) / C| then Spec.IsInf (packSigned neg (roundMag num den))
       (decide (signFactor neg * ((num : ℚ) / den) / C < 0))
  else Spec.Finite (packSigned neg (roundMag num den)) ∧ (signFactor neg * ((num : ℚ) / den) / C ≠ 0 →
      fSign (packSigned neg (roundMag num den)) = decide (signFactor neg * ((num : ℚ) / den) / C < 0)) ∧
    (∀ y, Spec.Finite y → |Spec.value (packSigned neg (roundMag num den)) - signFactor neg * ((num : ℚ) / den) / C| ≤ |Spec.value y - signFactor neg * ((num : ℚ) / den) / C|) ∧
    (∀ y, Spec.Finite y → |Spec.value y - signFactor neg * ((num : ℚ) / den) / C| =
        |Spec.value (packSigned neg (roundMag num den)) - signFactor neg * ((num : ℚ) / den) / C| →
        Spec.value y ≠ Spec.value (packSigned neg (roundMag num den)) →
        fFrac (packSigned neg (roundMag num den)) % 2 = 0) := by
  have hdq : (0 : ℚ) < den := by exact_mod_cast hd
  have x0 : (0 : ℚ) ≤ (num : ℚ) / den := by positivity
  have habs : |signFactor neg * ((num : ℚ) / den) / C| = (num : ℚ)/den / C := by
    rw [abs_div, abs_of_pos hC, abs_signFactor_mul, abs_of_nonneg x0]
  have hcond : T ≤ |signFactor neg * ((num : ℚ) / den) / C| ↔ roundMag num den = infMag := by
    rw [habs, hth, le_div_iff₀ hC, hT, le_div_iff₀ hdq]
  have hneg : signFactor neg * ((num : ℚ) / den) / C ≠ 0 →
      neg = decide (signFactor neg * ((num : ℚ) / den) / C < 0) := by
    intro hne
    have hx : 0 < (num : ℚ) / den := by
      rcases x0.lt_or_eq with h | h
      · exact h
      · exfalso; apply hne; rw [← h]; simp
    have := div_pos hx hC
    cases neg
    · simp only [signFactor, Bool.false_eq_true, if_false, one_mul]; symm; rw [decide_eq_false_iff_not]; linarith
    · simp only [signFactor, if_true]; symm; rw [decide_eq_true_iff, neg_one_mul, neg_div]; linarith
  by_cases hinf : roundMag num den = infMag
  · rw [if_pos (hcond.2 hinf), hinf]
    have hne : signFactor neg * ((num : ℚ) / den) / C ≠ 0 := by
      intro h0
      have h1 := hcond.2 hinf
      rw [h0, abs_zero] at h1
      have := mul_nonneg (show 0 ≤ -T by linarith) hC.le
      linarith [hT]
    rw [← hneg hne]
    exact packSigned_inf neg
  · rw [if_neg (fun h => hinf (hcond.1 h))]
    have hlt : roundMag num den < infMag := lt_of_le_of_ne (roundMag_le _ _) hinf
    have hm : roundMag num den < 2^63 := by unfold infMag at hlt; omega
    have hV : Spec.value (packSigned neg (roundMag num den)) = signFactor neg * (unitsOfMag (roundMag num den) :
        ℚ) / C := by
      rw [hv]; unfold signedUnitsQ; rw [packSigned_sign neg hm,
          packSigned_mag neg hm]; unfold signedUnits signFactor; cases neg <;> simp
    have dist : ∀ u : ℚ, |signFactor neg * u / C - signFactor neg * ((num : ℚ) / den) / C| =
        |u - (num : ℚ) / den| / C := by
      intro u; rw [← sub_div, abs_div, abs_of_pos hC, ← mul_sub, abs_signFactor_mul]
    have hY : ∀ y : F64, ∃ y' : F64, Spec.value y = signFactor neg * signedUnitsQ y' / C := by
      intro y
      cases neg
      · exact ⟨y, by rw [hv]; simp [signFactor]⟩
      · exact ⟨fneg y, by rw [hv, signedUnitsQ_fneg]; simp [signFactor]⟩
    refine ⟨packSigned_finite neg hlt, fun hne => by rw [packSigned_sign neg hm]; exact hneg hne, fun y hy => ?_,
        fun y hy he hn => ?_⟩
    · obtain ⟨y', hy'⟩ := hY y
      rw [hV, hy', dist, dist]
      exact div_le_div_of_nonneg_right (roundMag_spec hd hlt y').1 hC.le
    · obtain ⟨y', hy'⟩ := hY y
      rw [hV, hy', dist, dist] at he
      rw [hV, hy'] at hn
      have he' : |signedUnitsQ y' - (num : ℚ) / den| = |(unitsOfMag (roundMag num den) : ℚ) - (num : ℚ) / den| := by
        have := congrArg (· * C) he
        simpa [div_mul_cancel₀ _ hC.ne'] using this
      have := (roundMag_spec hd hlt y').2 he' (fun h => hn (by rw [← h]; rfl))
      rw [packSigned_frac neg hm]; omega

/-- Rounding a magnitude and attaching the sign is correct rounding (R121). -/
theorem roundsTo_pack (neg : Bool) {num den : Nat} (hd : 0 < den) {x : ℚ} (hx : x =
    signFactor neg * ((num : ℚ) / den) / 2 ^ 1074) :
   Spec.RoundsTo x (packSigned neg (roundMag num den)) := by
  subst hx
  refine roundsTo_aux neg hd (E := (2 ^ 54 - 1) * 2 ^ 2044) (by positivity) overflow_threshold_units ?_ ?_ value_eq
  · exact mul_pos (by norm_num) (by positivity)
  · rw [roundMag_eq_infMag_iff (z := 2044) rfl hd]
    have : ∀ z : ℕ, ((2 ^ 54 - 1) * (den * 2 ^ z) ≤ num ↔ ((2:ℚ) ^ 54 - 1) * 2 ^ z * den ≤ num) := by
      intro z
      rw [← Nat.cast_le (α := ℚ)]
      push_cast
      rw [show ((2:ℚ) ^ 54 - 1) * 2 ^ z * den = ((2:ℚ) ^ 54 - 1) * (den * 2 ^ z) by ring]
      norm_num
    exact this 2044

theorem intCast_eq_signFactor_mul (z : ℤ) : (z : ℚ) = signFactor (decide (z < 0)) * (z.natAbs : ℚ) := by
  unfold signFactor
  by_cases h : z < 0
  · simp only [h, decide_true, if_true]
    have : ((z.natAbs : ℤ) : ℚ) = ((-z : ℤ) : ℚ) := by congr 1; omega
    rw [Int.cast_natCast] at this; rw [this]; push_cast; ring
  · simp only [h, decide_false, Bool.false_eq_true, if_false, one_mul]
    have : ((z.natAbs : ℤ) : ℚ) = (z : ℚ) := by congr 1; omega
    rw [Int.cast_natCast] at this; exact this.symm

end Sys2Proof.Machine
end

