-- ==== Sys2Proof/Laws/Run.lean ====
section
/-! SUPPORT. Runs of several steps (20_memory.md R74): taking one apart at its first or its last step, and what
one step does to a running operation. -/

namespace Sys2Proof.Machine

theorem reaches_zero {s t : State} : Reaches 0 s t ↔ t = s := by
  unfold Reaches; constructor
  · intro h; cases h; rfl
  · rintro rfl; rfl

/-- A run of `k + 1` steps, by its first step. -/
theorem reaches_succ {k : Nat} {s t : State} : Reaches (k+1) s t ↔ ∃ u, step s = .next u ∧ Reaches k u t := by
  unfold Reaches
  simp only [Host.Core.run]
  have : Sys2Proof.core.step s = step s := rfl
  rw [this]
  cases h : step s with
  | next u => simp
  | fault => simp
  | refused => simp

/-- A run of `k + 1` steps, by its last step. -/
theorem reaches_succ_last {k : Nat} {s t : State} : Reaches (k+1) s t ↔ ∃ u, Reaches k s u ∧ step u = .next t := by
  induction k generalizing s with
  | zero => 
    rw [reaches_succ]; simp [reaches_zero]
  | succ k ih =>
    rw [reaches_succ]
    constructor
    · rintro ⟨u, h1, h2⟩
      obtain ⟨v, h3, h4⟩ := ih.1 h2
      exact ⟨v, reaches_succ.2 ⟨u, h1, h3⟩, h4⟩
    · rintro ⟨v, h1, h2⟩
      obtain ⟨u, h3, h4⟩ := reaches_succ.1 h1
      exact ⟨u, h3, ih.2 ⟨v, h4, h2⟩⟩

/-- A run has one end. -/
theorem reaches_det {k : Nat} {s t u : State} (h1 : Reaches k s t) (h2 : Reaches k s u) : t = u := by
  unfold Reaches at *; rw [h1] at h2; cases h2; rfl

/-- An event inside the window always completes. -/
theorem handle_next {ev : Event} (h : ev.inWindow) (s : State) : ∃ t, State.handle ev s = .next t := by
  cases ev with
  | read off w => rw [handle_read h]; exact ⟨_, rfl⟩
  | write off w d => rw [handle_write h]; exact memWrite_next _ _ _ _
  | engineTurn => exact ⟨_, rfl⟩
  | hardReset => exact ⟨_, rfl⟩

/-- Everything a step of a running operation can do to it: one engine step, nothing, or its end without DONE (R72, R134, R164,
R192, R240). -/
theorem step_busy_cases {s t : State} (hb : s.busy = true) (h : step s = .next t) :
    ((s.agenda = [] ∨ ∃ rest, s.agenda = .engineTurn :: rest) ∧ t.agenda = s.agenda.tail ∧ t.prog = s.prog + 1 ∧
      t.eng.n = s.eng.n ∧ (t.busy = true ↔ s.prog + 1 ≠ s.eng.n)) ∨
    (∃ ev rest, s.agenda = ev :: rest ∧ ev ≠ .engineTurn ∧ t.agenda = rest ∧
      ((t.eng = s.eng ∧ t.prog = s.prog) ∨ (t.busy = false ∧ t.status.done = false))) := by
  have hr : s.eng.phase = .run := by simpa using hb
  have turn : ∀ s' : State, s'.eng = s.eng → s'.prog = s.prog → t = s'.engineTurn →
      t.agenda = s'.agenda ∧ t.prog = s.prog + 1 ∧ t.eng.n = s.eng.n ∧ (t.busy = true ↔ s.prog + 1 ≠ s.eng.n) := by
    rintro s' h1 h2 rfl
    rw [State.busy_iff]
    rcases s'.engineTurn_cases with ⟨e0, _⟩ | ⟨_, _, e⟩ | ⟨_, _, e⟩
    · rw [h1, hr] at e0; cases e0
    all_goals rw [e]; simp [h1, h2, hr]
  rcases step_cases h with ⟨ha, ht⟩ | ⟨ev, rest, ha, h1 | h1 | h1 | h1⟩
  · have g := turn s rfl rfl ht
    exact .inl ⟨.inl ha, by rw [g.1, ha]; rfl, g.2⟩
  · have g := turn (s.withAgenda rest) rfl rfl h1.2
    exact .inl ⟨.inr ⟨rest, h1.1 ▸ ha⟩, by rw [g.1, ha]; rfl, g.2⟩
  · obtain ⟨rfl, rfl⟩ := h1
    exact .inr ⟨_, rest, ha, by simp, rfl, .inr ⟨rfl, rfl⟩⟩
  · obtain ⟨off, w, a, rfl, -, rfl⟩ := h1
    exact .inr ⟨_, rest, ha, by simp, rfl, .inl ⟨rfl, rfl⟩⟩
  · obtain ⟨off, w, data, rfl, -, hw⟩ := h1
    refine .inr ⟨_, rest, ha, by simp, ?_⟩
    rcases memWrite_cases hw with ⟨_, rfl⟩ | ⟨_, _, rfl⟩ | ⟨_, _, ⟨i, _, rfl⟩ | ⟨e, _, rfl⟩⟩ | ⟨which, _, _, rfl⟩
    · exact ⟨rfl, .inl ⟨rfl, rfl⟩⟩
    · exact ⟨rfl, .inl ⟨rfl, rfl⟩⟩
    · rcases after_cases i (s.withAgenda rest) with ⟨_, _, e⟩ | h0 | h0 | h0 | h0 | h0 | h0 | ⟨_, e⟩
      · rw [e]; exact ⟨rfl, .inl ⟨rfl, rfl⟩⟩
      all_goals first
        | (have h0 := h0.1; change s.eng.phase = .idle at h0; rw [hr] at h0; cases h0)
        | (rw [e]; exact ⟨rfl, .inr ⟨rfl, rfl⟩⟩)
    · rcases rejectWord_cases (s.withAgenda rest) with e | e <;> rw [e] <;> exact ⟨rfl, .inl ⟨rfl, rfl⟩⟩
    · unfold State.writeParam State.whenIdle
      split <;> exact ⟨rfl, .inl ⟨rfl, rfl⟩⟩

end Sys2Proof.Machine
end

