-- ==== Sys2Proof/Tests/Slice0.lean ====
section
/-! SUPPORT. Tests of the model on the vectors of spec/95_test_vectors.md (named in each docstring), the smoke tests of
WellFormed, and for every statement with hypotheses the states and operands that meet them, clause by clause,
    at the ends of the
ranges. Expected values are the spec's. -/

namespace Sys2Proof.Tests

open Sys2Proof.Machine

/-! ### Small states -/

/-- P8 of spec/95: (r, x0, p, q) = (3.9, 0.5, 0.8, 0.2). -/
def p8 : Params := ⟨0x400F333333333333#64, 0x3FE0000000000000#64, 0x3FE999999999999A#64, 0x3FC999999999999A#64⟩

/-- The engine of a small state. -/
def eng (phase : Phase) (op : EngOp) (n size : Nat) (prev : F64) : Eng :=
  { phase := phase, op := op, n := n, size := size, s := prev, lat := p8 }

/-- A state of the example instance of spec/95 (depths 16), parameters P8, buffers unwritten. -/
def demo (e : Eng) (prog : Nat) (agenda : List Event) : State :=
  { seqDepth := 16, keyDepth := 16, ctrl := Ctrl.zero, status := Status.clear, prog := prog, params := p8, eng := e
    mem := [], memBefore := [], bufEpoch := 0, abandons := 0, agenda := agenda, resp := none }

/-- Idle. -/
def idle (agenda : List Event) : State := demo (eng .idle .gen 0 0 0#64) 0 agenda

/-- A GEN_SEQ `n` under way at index `prog`, the element before it `prev`. -/
def gen (n prog : Nat) (prev : F64) (agenda : List Event) : State := demo (eng .run .gen n 0 prev) prog agenda

/-- A DERIVE_KEY `size` under way at index `prog`, the element before it `prev`. -/
def key (size prog : Nat) (prev : F64) (agenda : List Event) : State :=
    demo (eng .run .key (2 * size) size prev) prog agenda

/-- A state after an outcome, where it is one. -/
def after (o : Host.Outcome State Fault Refusal) : Option State :=
  match o with
  | .next s => some s
  | .fault _ => none
  | .refused _ => none

/-- STATUS after a step. -/
def statusAfter (s : State) : Option Word := (after (step s)).map State.statusWord

/-- The answer to the host access of a step. -/
def answer (s : State) : Option Response := (after (step s)).bind State.resp

/-- Whether a step is one of the CRE. -/
def completes (s : State) : Bool := (after (step s)).isSome

/-! ### WellFormed and the decoder -/

/-- R98: "A `len` outside 0 to 16 777 215 is an assembly error". -/
theorem test_genSeq_len_too_large : (Instr.genSeq 16777216).wf = false := by decide

theorem test_deriveKey_len_too_large : (Instr.deriveKey 16777216).wf = false := by decide

theorem test_largest_lengths : (Instr.genSeq 16777215).wf && (Instr.deriveKey 16777215).wf = true := by decide

/-- V-C1: LEN 0, OPC 0x00. -/
theorem test_decode_nop : decodeWord 0b000000000000000000000000_00000000#32 = .ok .nop := by rfl

/-- V-C3: LEN 5, OPC 0x01. -/
theorem test_decode_genSeq : decodeWord 0b000000000000000000000101_00000001#32 = .ok (.genSeq 5) := by rfl

/-- V-C8: LEN 4, OPC 0x02. -/
theorem test_decode_deriveKey : decodeWord 0b000000000000000000000100_00000010#32 = .ok (.deriveKey 4) := by rfl

/-- V-C10: LEN 0, OPC 0x03. -/
theorem test_decode_clrStatus : decodeWord 0b000000000000000000000000_00000011#32 = .ok .clrStatus := by rfl

/-- V-C12: LEN 0, OPC 0x04. -/
theorem test_decode_softReset : decodeWord 0b000000000000000000000000_00000100#32 = .ok .softReset := by rfl

/-- R90: the byte at 0x00010 is `word[7:0]`. -/
theorem test_decode_bytes : decode [0x01#8, 0x05#8, 0x00#8, 0x00#8, 0xAA#8] = .ok (.genSeq 5, [0xAA#8]) := by rfl

/-- V-C2, V-C13, V-C14, V-C15, and fewer than four bytes. -/
theorem test_decode_rejects :
    decodeWord 0x00000100#32 = .error (.reservedLen 0x00#8 1) ∧ decodeWord 0x00000104#32 =
        .error (.reservedLen 0x04#8 1) ∧
    decodeWord 0x00000005#32 = .error (.reservedOpc 0x05#8) ∧ decodeWord 0x000000FF#32 =
        .error (.reservedOpc 0xFF#8) ∧
    decode [0x01#8, 0x05#8, 0x00#8] = .error .truncated := ⟨rfl, rfl, rfl, rfl, rfl⟩

/-- The rows of spec/opcode_table.json. -/
theorem test_table_words :
    decodeTableWord 32 0 = some .nop ∧ decodeTableWord 8 1 = some (.genSeq 0) ∧
        decodeTableWord 8 2 = some (.deriveKey 0) ∧
    decodeTableWord 32 3 = some .clrStatus ∧ decodeTableWord 32 4 = some .softReset ∧ decodeTableWord 8 5 = none :=
  ⟨rfl, rfl, rfl, rfl, rfl, rfl⟩

/-- Each row runs as the first command after reset: V-C1, V-C4, V-K2, V-C10, V-C12. -/
theorem test_first_after_reset :
    statusAfter (State.reset.withFetchWord 32 0) = some 0x000#32 ∧
    statusAfter (State.reset.withFetchWord 8 1) = some 0x002#32 ∧
    statusAfter (State.reset.withFetchWord 8 2) = some 0x002#32 ∧
    statusAfter (State.reset.withFetchWord 32 3) = some 0x000#32 ∧
    statusAfter (State.reset.withFetchWord 32 4) = some 0x000#32 := by
  refine ⟨?_, ?_, ?_, ?_, ?_⟩ <;> rfl

/-! ### Acceptance -/

/-- V-C1 to V-C9. -/
theorem test_accept_idle :
    [0x00000000#32, 0x00000100#32, 0x00000501#32, 0x00000001#32, 0x00001001#32, 0x00001101#32, 0xFFFFFF01#32,
        0x00000402#32,
      0x00001102#32].map (fun w => statusAfter (idle [cmdWrite w])) =
    [some 0x000#32, some 0x010#32, some 0x001#32, some 0x002#32, some 0x001#32, some 0x020#32, some 0x020#32,
        some 0x001#32,
      some 0x020#32] := by decide +kernel

/-- V-C10 to V-C15. -/
theorem test_accept_idle_control :
    [0x00000003#32, 0x00000103#32, 0x00000004#32, 0x00000104#32, 0x00000005#32, 0x000000FF#32].map
      (fun w => statusAfter (idle [cmdWrite w])) =
    [some 0x000#32, some 0x010#32, some 0x000#32, some 0x010#32, some 0x010#32, some 0x010#32] := by decide +kernel

/-- V-C16 to V-C20 (as STATUS is 0x001 before them, 0x031 after), V-C21. -/
theorem test_accept_busy :
    [0x00000000#32, 0x00000003#32, 0x000000FF#32, 0x00001101#32, 0x00000104#32, 0x00000004#32].map
      (fun w => statusAfter (gen 5 2 0x3FDB74BC6A7EF9DC#64 [cmdWrite w])) =
    [some 0x031#32, some 0x031#32, some 0x031#32, some 0x031#32, some 0x031#32, some 0x000#32] := by decide +kernel

/-- STATUS 0x322: DONE, ERR 2, NAN, CLAMP; PROG 5. -/
def worn (agenda : List Event) : State :=
  { idle agenda with status := { done := true, err := .lenRange, nan := true, clamp := true }, prog := 5 }

/-- V-S1, V-S3, V-S6: CLR_STATUS leaves PROG, GEN_SEQ clears it. -/
theorem test_status_transitions :
    (worn []).statusWord = 0x322#32 ∧
    (after (step (worn [cmdWrite 0x00000003#32]))).map (fun t => (t.statusWord, t.prog)) = some (0x000#32, 5) ∧
    (after (step (worn [cmdWrite 0x00000501#32]))).map (fun t => (t.statusWord, t.prog)) = some (0x001#32, 0) := by
  decide +kernel

/-- V-S4: SOFT_RESET also clears CTRL, PROG and the parameters. -/
theorem test_softReset_registers :
    (after (step { worn [cmdWrite 0x00000004#32] with ctrl := ⟨true, true⟩ })).map
      (fun t => (t.statusWord, t.ctrlWord, t.prog, t.params)) = some (0x000#32, 0#32, 0, Params.zero) :=
          by decide +kernel

/-! ### Numerics -/

/-- V-E1a to V-E1d, V-E5 (the fusion check), V-E7. -/
theorem test_envelope :
    [(1, 5), (2, 5), (3, 5), (4, 5), (4, 6), (1, 6), (2, 6)].map (fun c => env c.1 c.2 p8.p p8.q) =
    [0x3FDC28F5C28F5C2A#64, 0x3FDC28F5C28F5C29#64, 0x3FE5C28F5C28F5C4#64, 0x3FC999999999999A#64,
        0x3FD3333333333331#64,
      0x3FD999999999999A#64, 0x3FE0000000000000#64] := by decide +kernel

/-- V-GD1 to V-GD7: replaced. -/
theorem test_guard_replaces :
    [0x0000000000000000#64, 0x8000000000000000#64, 0x3FF0000000000000#64, 0x3FF8000000000000#64,
        0xBFD0000000000000#64,
      0x7FF0000000000000#64, 0xFFF0000000000000#64].all (fun v => guardValue v = (0x3FE0000000000000#64,
          true)) = true := by
  decide +kernel

/-- V-GD8 to V-GD11: kept. -/
theorem test_guard_keeps :
    [0x3FEFFFFFFFFFFFFF#64, 0x0000000000000001#64, 0x3FE0000000000000#64, 0x7FF8000000000000#64].all
      (fun v => guardValue v = (v, false)) = true := by decide +kernel

/-- V-B1 to V-B10. -/
theorem test_keyByte :
    [0x3FEFFFFFFFFFFFFF#64, 0x3FEFE00000000000#64, 0x3FEFDFFFFFFFFFFF#64, 0x3FE0000000000000#64,
        0x3FD0000000000000#64,
      0x3F70000000000000#64, 0x3F6FFFFFFFFFFFFF#64, 0x0000000000000001#64, 0x3FDB74BC6A7EF9DC#64,
          0x7FF8000000000000#64].map
      keyByte = [255#8, 255#8, 254#8, 128#8, 64#8, 1#8, 0#8, 0#8, 109#8, 0#8] := by decide +kernel

/-- V-G1. -/
theorem test_seq_five : seqList 5 p8 =
    [0x3FE0000000000000#64, 0x3FDB74BC6A7EF9DC#64, 0x3FDAE70231776023#64, 0x3FE4AD77B0A80DB0#64,
        0x3FC6D3A287CEBC5D#64] := by
  decide +kernel

/-- V-G8 (a subnormal element, then an underflow to zero), V-G9 (an overflow), V-G10 (an invalid operation), V-G11 (NaN seed). -/
theorem test_seq_specials :
    seqList 3 { p8 with r := 0x000012688B70E62B#64 } =
      [0x3FE0000000000000#64, 0x000002C2E1B755BA#64, 0x3FE0000000000000#64] ∧
    seqList 3 { p8 with r := 0x7FF0000000000000#64 } =
      [0x3FE0000000000000#64, 0x3FE0000000000000#64, 0x3FE0000000000000#64] ∧
    seqList 3 { p8 with r := 0x7FF0000000000000#64, p := 0#64, q := 0#64 } =
      [0x3FE0000000000000#64, 0x7FF8000000000000#64, 0x7FF8000000000000#64] ∧
    seqList 3 { p8 with x0 := 0x7FF0000000000001#64 } =
      [0x7FF0000000000001#64, 0x7FF8000000000000#64, 0x7FF8000000000000#64] := by decide +kernel

/-- V-K1, V-K3. -/
theorem test_keys : keyList 4 p8 = [0x6A#8, 0x9D#8, 0x41#8, 0x97#8] ∧ keyList 1 p8 = [0xC7#8] ∧
    keyList 2 p8 = [0x57#8, 0xB3#8] := by
  decide +kernel

/-! ### The engine, one step -/

/-- V-G1, the step of i = 1: the raw value 0x3FDB74BC6A7EF9DC goes to SEQ_BUF[1]. -/
theorem test_genStep :
    (after (step (gen 5 1 0x3FE0000000000000#64 [.engineTurn]))).map
      (fun t => (t.seqEntry 1, t.prog, t.statusWord)) = some (0x3FDB74BC6A7EF9DC#64, 2, 0x001#32) := by decide +kernel

/-- V-G4, its second and last step: x0 = 1.5 is followed by 0.5, CLAMP and DONE set. -/
theorem test_genStep_clamped :
    (after (step (gen 2 1 0x3FF8000000000000#64 []))).map
      (fun t => (t.seqEntry 1, t.prog, t.statusWord)) = some (0x3FE0000000000000#64, 2, 0x202#32) := by decide +kernel

/-- V-K3, size 1: the step of element 1 writes 0xC7 to KEY_BUF[0]. -/
theorem test_keyStep :
    (after (step (key 1 1 0x3FE0000000000000#64 []))).map
      (fun t => (t.keyByteAt 0, t.prog, t.statusWord)) = some (0xC7#8, 2, 0x002#32) := by decide +kernel

/-- V-K1: a warm-up step writes no byte. -/
theorem test_keyStep_warmup :
    (after (step (key 4 0 0#64 []))).map (fun t => (t.mem, t.prog, t.eng.s)) = some ([], 1,
        0x3FE0000000000000#64) := by
  decide +kernel

/-! ### Host accesses -/

/-- V-M1, V-M2, V-M3, V-M8, V-M10, V-M12, V-M17, V-M20, V-M21, V-M22. -/
theorem test_reads :
    [(0x00000, Width.w4), (0x00000, .w1), (0x00004, .w4), (0x00022, .w4), (0x0001C, .w4), (0x00010, .w4),
        (0x10080, .w8),
      (0x2000C, .w8), (0x20010, .w1), (0x2000E, .w4)].map (fun a => answer (idle [.read a.1 a.2])) =
    [some (.read .okay 0x43524531#64), some (.read .error 0#64), some (.read .okay 0x10#64), some (.read .error 0#64),
      some (.read .error 0#64), some (.read .okay 0#64), some (.read .error 0#64), some (.read .error 0#64),
      some (.read .error 0#64), some (.read .error 0#64)] := by decide +kernel

/-- V-M4, V-M9, V-M11, V-M13, V-M15, V-M18: each invalid write responds ERROR and leaves STATUS 0x040 (ERR 4). -/
theorem test_invalid_writes :
    [(0x00004, Width.w4), (0x00024, .w8), (0x00040, .w4), (0x00010, .w1), (0x00014, .w4), (0x10000, .w8)].all
      (fun a => answer (idle [.write a.1 a.2 1#64]) = some (.write .error) &&
        statusAfter (idle [.write a.1 a.2 1#64]) = some 0x040#32) = true := by decide +kernel

/-- V-M6, V-M7: the halves of PARAM_R. -/
theorem test_param_halves :
    (after (step { idle [.write 0x00024 .w4 0x3FF00000#64] with params := Params.zero })).map (fun t => t.params.r) =
      some 0x3FF0000000000000#64 ∧
    (after (step { idle [.write 0x00020 .w4 1#64] with params := ⟨0x3FF0000000000000#64, 0#64, 0#64, 0#64⟩ })).map
      (fun t => t.params.r) = some 0x3FF0000000000001#64 := by decide +kernel

/-- V-M14. -/
theorem test_ctrl_write : (after (step (idle [.write 0x0000C .w4 0xFFFFFFFF#64]))).map State.ctrlWord =
    some 3#32 := by
  decide +kernel

/-- After V-G1: R32 0x10008 returns 0x6A7EF9DC, R32 0x1000C 0x3FDB74BC. -/
theorem test_seq_halves :
    answer { idle [.read 0x10008 .w4] with mem := Memory.putSeq [] 1 0x3FDB74BC6A7EF9DC#64 } =
      some (.read .okay 0x6A7EF9DC#64) ∧
    answer { idle [.read 0x1000C .w4] with mem := Memory.putSeq [] 1 0x3FDB74BC6A7EF9DC#64 } =
      some (.read .okay 0x3FDB74BC#64) := by decide +kernel

/-- V-K1: a 4-byte read at 0x20000 returns 0x97419D6A. -/
theorem test_key_read :
    answer { idle [.read 0x20000 .w4] with mem := [(0x20000, 0x6A#8), (0x20001, 0x9D#8), (0x20002, 0x41#8),
        (0x20003, 0x97#8)] } =
      some (.read .okay 0x97419D6A#64) := by decide +kernel

/-- V-I1 to V-I5. -/
theorem test_irq :
    [(false, false, true, ErrCode.busyWrite), (true, false, true, .noError), (true, false, false, .lenRange),
      (false, true, false, .lenRange), (false, true, true, .noError)].map
      (fun c => State.irq { idle [] with ctrl := ⟨c.1, c.2.1⟩, status := ⟨c.2.2.1, c.2.2.2, false, false⟩ }) =
    [false, true, false, true, false] := by decide +kernel

/-- R60: nothing beyond the window is the CRE's. -/
theorem test_outside_window :
    completes (idle [.read 0x30000 .w4]) = false ∧ completes (idle [.read 0x2FFFF .w1]) = true := by decide +kernel

/-! ### The statements' hypotheses are met

For every statement of Sys2Proof/Certificates/Slice0/Obligations.lean with hypotheses,
    in that file's order: states and operands
that meet them together, one part per clause, at the ends of the ranges. -/

theorem witness_DecodeOfEncode :
    Instr.nop.wf = true ∧ (Instr.genSeq 0).wf = true ∧ (Instr.genSeq 16777215).wf = true ∧
    (Instr.deriveKey 16777215).wf = true ∧ Instr.clrStatus.wf = true ∧ Instr.softReset.wf = true := by decide

theorem witness_EncodeOfDecode : decodeWord 0xFFFFFF02#32 = .ok (.deriveKey 16777215) := by rfl

theorem witness_StepRunsDecodedCommand :
    (idle [.write 0x00010 .w4 0xFFFFFFFF00000501#64, .engineTurn]).agenda =
      .write 0x00010 .w4 0xFFFFFFFF00000501#64 :: [.engineTurn] ∧
    decode (bytesOfWord ((0xFFFFFFFF00000501#64).extractLsb' 0 32)) = .ok (.genSeq 5, []) := ⟨rfl, rfl⟩

theorem witness_FetchWordRunsCommand : (Instr.genSeq 16777215).wf = true ∧ Instr.softReset.wf = true := by decide

theorem witness_AcceptanceProcedure :
    (idle [cmdWrite 0x00000501#32]).agenda = cmdWrite 0x00000501#32 :: [] ∧
    (gen 5 2 0#64 [cmdWrite 0x00000004#32]).agenda = cmdWrite 0x00000004#32 :: [] := ⟨rfl, rfl⟩

theorem witness_ReservedOpcodeIllegal :
    (idle [cmdWrite 0x00000005#32]).agenda = cmdWrite 0x00000005#32 :: [] ∧
    (idle [cmdWrite 0x00000005#32]).eng.phase = .idle ∧ 5 ≤ (0x00000005#32).toNat % 256 ∧
        5 ≤ (0xFFFFFFFF#32).toNat % 256 :=
  ⟨rfl, rfl, by decide, by decide⟩

/-- The four clauses: CMD words next to SOFT_RESET's, the first and last parameter offsets, CTRL, an engine turn that ends the
operation. -/
theorem witness_BusyWritesDropped :
    (gen 5 2 0#64 []).eng.phase = .run ∧
    (gen 5 2 0#64 [.write 0x00010 .w4 0x104#64]).agenda = .write 0x00010 .w4 0x104#64 :: [] ∧
    (0x104#64).toNat % 2 ^ 32 ≠ 4 ∧ (0#64).toNat % 2 ^ 32 ≠ 4 ∧
    (gen 5 2 0#64 [.write 0x0003C .w4 1#64]).agenda = .write 0x0003C .w4 1#64 :: [] ∧
    (0x20 ≤ 0x20 ∧ 0x20 < 0x40 ∧ Width.w8 = .w8 ∧ 0x20 % 8 = 0) ∧ (0x20 ≤ 0x3C ∧ 0x3C < 0x40 ∧ Width.w4 = .w4 ∧
        0x3C % 4 = 0) ∧
    (gen 5 2 0#64 [.write 0x0000C .w4 3#64]).agenda = .write 0x0000C .w4 3#64 :: [] ∧
    (gen 5 4 0#64 [.engineTurn]).agenda = .engineTurn :: [] ∧
    (gen 5 4 0#64 [.engineTurn]).prog + 1 = (gen 5 4 0#64 [.engineTurn]).eng.n := by decide

/-- NopCompletes, ClrStatusCompletes, SoftResetCompletes: idle, busy, and the words with a nonzero LEN at both ends of its range. -/
theorem witness_control_commands :
    (idle []).eng.phase = .idle ∧ (gen 5 2 0#64 []).eng.phase = .run ∧
    ((0x00000100#32).toNat % 256 = 0 ∧ (0x00000100#32).toNat / 256 ≠ 0) ∧
    ((0xFFFFFF00#32).toNat % 256 = 0 ∧ (0xFFFFFF00#32).toNat / 256 ≠ 0) ∧
    ((0x00000103#32).toNat % 256 = 3 ∧ (0x00000103#32).toNat / 256 ≠ 0) ∧
    ((0x00000104#32).toNat % 256 = 4 ∧ (0x00000104#32).toNat / 256 ≠ 0) := by decide

/-- SoftResetBuffers: SOFT_RESET taken idle, while a GEN runs, while a KEY runs; indices at both ends of the output ranges. -/
theorem witness_SoftResetBuffers :
    ((idle []).eng.phase = .idle ∧ exec .softReset (idle []) = .next (idle []).softReset) ∧
    ((gen 5 2 0#64 []).eng.phase = .run ∧ (gen 5 2 0#64 []).eng.op = .gen ∧ 4 < (gen 5 2 0#64 []).eng.n ∧
      exec .softReset (gen 5 2 0#64 []) = .next (gen 5 2 0#64 []).softReset ∧
      ¬ (seqAddr 0 ≤ 0x10028 ∧ 0x10028 < seqAddr (gen 5 2 0#64 []).eng.n)) ∧
    ((key 4 6 0#64 []).eng.phase = .run ∧ (key 4 6 0#64 []).eng.op = .key ∧ 3 < (key 4 6 0#64 []).eng.size ∧
      exec .softReset (key 4 6 0#64 []) = .next (key 4 6 0#64 []).softReset ∧
      ¬ (keyAddr 0 ≤ 0x20004 ∧ 0x20004 < keyAddr (key 4 6 0#64 []).eng.size)) :=
  ⟨⟨rfl, rfl⟩, ⟨rfl, rfl, by decide, rfl, by decide⟩, ⟨rfl, rfl, by decide, rfl, by decide⟩⟩

/-- GenSeqCompletes and DeriveKeyCompletes: lengths 0, the depth, one above it, and busy; the largest encodable length. -/
theorem witness_operations_complete :
    (idle []).eng.phase = .idle ∧ 0 ≤ (idle []).seqDepth ∧ 16 ≤ (idle []).seqDepth ∧ (idle []).seqDepth < 17 ∧
    0 ≤ (idle []).keyDepth ∧ 16 ≤ (idle []).keyDepth ∧ (idle []).keyDepth < 17 ∧
    (gen 5 2 0#64 []).eng.phase = .run ∧ (key 4 6 0#64 []).eng.phase = .run ∧ 16777215 < 2 ^ 24 := by decide

/-- CommandFrame: each command gives a next state; SOFT_RESET idle and busy. -/
theorem witness_CommandFrame :
    exec .nop (idle []) = .next (idle []) ∧ exec .clrStatus (idle []) = .next (idle []).clearStatus ∧
    exec (.genSeq 16) (idle []) = .next ((idle []).startGen 16) ∧
    exec (.deriveKey 16) (idle []) = .next ((idle []).startKey 16) ∧
    exec .softReset (idle []) = .next (idle []).softReset ∧
    exec .softReset (gen 5 2 0#64 []) = .next (gen 5 2 0#64 []).softReset := ⟨rfl, rfl, rfl, rfl, rfl, rfl⟩

/-- GenStepEffect: the first and the last element, an engine turn and nothing to come. -/
theorem witness_GenStepEffect :
    ((gen 5 0 0#64 [.engineTurn]).eng.phase = .run ∧ (gen 5 0 0#64 [.engineTurn]).eng.op = .gen ∧
      (gen 5 0 0#64 [.engineTurn]).agenda = .engineTurn :: []) ∧
    ((gen 5 4 0#64 []).eng.phase = .run ∧ (gen 5 4 0#64 []).eng.op = .gen ∧ (gen 5 4 0#64 []).agenda = [] ∧
      (gen 5 4 0#64 []).prog + 1 = (gen 5 4 0#64 []).eng.n) := by decide

/-- KeyStepEffect: the last warm-up element, the first sampled one, the last one. -/
theorem witness_KeyStepEffect :
    ((key 4 3 0#64 []).eng.phase = .run ∧ (key 4 3 0#64 []).eng.op = .key ∧ (key 4 3 0#64 []).agenda = [] ∧
      (key 4 3 0#64 []).prog < (key 4 3 0#64 []).eng.size) ∧
    ((key 4 4 0#64 [.engineTurn]).eng.phase = .run ∧ (key 4 4 0#64 [.engineTurn]).agenda = .engineTurn :: [] ∧
      (key 4 4 0#64 [.engineTurn]).eng.size ≤ (key 4 4 0#64 [.engineTurn]).prog) ∧
    (key 4 7 0#64 []).prog + 1 = (key 4 7 0#64 []).eng.n := by decide

theorem witness_IdleEngineWaits :
    (idle []).eng.phase = .idle ∧ (idle []).agenda = [] ∧ (idle [.engineTurn]).eng.phase = .idle ∧
    (idle [.engineTurn]).agenda = .engineTurn :: [] := by decide

/-- A run of no step: a length of 0 has finished at its acceptance (V-G2, V-K2). -/
theorem finishesAt_zero {t : State} (hb : t.busy = false) (hd : t.status.done = true) : FinishesAt 0 t t :=
  ⟨fun _ hj => absurd hj (Nat.not_lt_zero _), reaches_zero.2 rfl, hb, hd⟩

/-- One more step at the front of a run. -/
theorem finishesAt_succ {k : Nat} {t u v : State} (hb : t.busy = true) (hs : step t = .next u)
    (h : FinishesAt k u v) :
    FinishesAt (k + 1) t v := by
  refine ⟨fun j hj => ?_, reaches_succ.2 ⟨u, hs, h.2.1⟩, h.2.2⟩
  cases j with
  | zero => exact ⟨t, reaches_zero.2 rfl, hb⟩
  | succ j =>
    obtain ⟨w, hw, hwb⟩ := h.1 j (by omega)
    exact ⟨w, reaches_succ.2 ⟨u, hs, hw⟩, hwb⟩

/-- GEN_SEQ 1 with nothing to come: one engine step (V-G3). -/
theorem genSeq_one_finishes : FinishesAt 1 ((idle []).startGen 1) ((idle []).startGen 1).genStep :=
  finishesAt_succ rfl rfl (finishesAt_zero rfl rfl)

/-- DERIVE_KEY 1 with nothing to come: two engine steps. -/
theorem deriveKey_one_finishes : FinishesAt 2 ((idle []).startKey 1) ((idle []).startKey 1).keyStep.keyStep :=
  finishesAt_succ rfl rfl (finishesAt_succ rfl rfl (finishesAt_zero rfl rfl))

/-- GEN_SEQ 2 on an idle machine with CTRL set, a CTRL write coming before the engine's steps. -/
def watched : State := { idle [.write 0x0000C .w4 0#64] with ctrl := ⟨true, true⟩, bufEpoch := 3 }

/-- The same after the CTRL write. -/
def watchedGo (n : Nat) : State := ((watched.startGen n).withAgenda []).writeCtrl 0#64 |>.respondWrite .okay

theorem genSeq_watched_finishes : FinishesAt 3 (watched.startGen 2) (watchedGo 2).genStep.genStep :=
  finishesAt_succ rfl rfl (finishesAt_succ rfl rfl (finishesAt_succ rfl rfl (finishesAt_zero rfl rfl)))

/-- GenSeqResult: lengths 0, 1 and 2, the last with a host access among the engine's steps. -/
theorem witness_GenSeqResult :
    ((idle []).eng.phase = .idle ∧ 1 ≤ (idle []).seqDepth ∧ exec (.genSeq 0) (idle []) =
        .next ((idle []).startGen 0) ∧
      FinishesAt 0 ((idle []).startGen 0) ((idle []).startGen 0)) ∧
    (exec (.genSeq 1) (idle []) = .next ((idle []).startGen 1) ∧
      FinishesAt 1 ((idle []).startGen 1) ((idle []).startGen 1).genStep) ∧
    (watched.eng.phase = .idle ∧ 2 ≤ watched.seqDepth ∧ exec (.genSeq 2) watched = .next (watched.startGen 2) ∧
      FinishesAt 3 (watched.startGen 2) (watchedGo 2).genStep.genStep) :=
  ⟨⟨rfl, by decide, rfl, finishesAt_zero rfl rfl⟩, ⟨rfl, genSeq_one_finishes⟩, rfl, by decide, rfl,
      genSeq_watched_finishes⟩

/-- DeriveKeyResult: sizes 0 and 1. -/
theorem witness_DeriveKeyResult :
    (exec (.deriveKey 0) (idle []) = .next ((idle []).startKey 0) ∧
      FinishesAt 0 ((idle []).startKey 0) ((idle []).startKey 0)) ∧
    ((idle []).eng.phase = .idle ∧ 1 ≤ (idle []).keyDepth ∧ exec (.deriveKey 1) (idle []) =
        .next ((idle []).startKey 1) ∧
      FinishesAt 2 ((idle []).startKey 1) ((idle []).startKey 1).keyStep.keyStep) :=
  ⟨⟨rfl, finishesAt_zero rfl rfl⟩, rfl, by decide, rfl, deriveKey_one_finishes⟩

/-- ResultsDeterministic: two machines that differ in depth and CTRL, running the same lengths. -/
theorem witness_ResultsDeterministic :
    ((idle []).eng.phase = .idle ∧ ({ idle [] with seqDepth := 1, ctrl := ⟨true, true⟩ } : State).eng.phase = .idle ∧
      (idle []).params = ({ idle [] with seqDepth := 1, ctrl := ⟨true, true⟩ } : State).params ∧
      1 ≤ (idle []).seqDepth ∧ 1 ≤ ({ idle [] with seqDepth := 1, ctrl := ⟨true, true⟩ } : State).seqDepth ∧
      FinishesAt 1 ((idle []).startGen 1) ((idle []).startGen 1).genStep ∧
      ∃ t u, exec (.genSeq 1) { idle [] with seqDepth := 1, ctrl := ⟨true, true⟩ } = .next t ∧ FinishesAt 1 t u) ∧
    (1 ≤ ({ idle [] with keyDepth := 1, ctrl := ⟨true, true⟩ } : State).keyDepth ∧
      ∃ t u, exec (.deriveKey 1) { idle [] with keyDepth := 1, ctrl := ⟨true, true⟩ } = .next t ∧ FinishesAt 2 t u) :=
  ⟨⟨rfl, rfl, rfl, by decide, by decide, genSeq_one_finishes, _, _, rfl,
      finishesAt_succ rfl rfl (finishesAt_zero rfl rfl)⟩,
    by decide, _, _, rfl, finishesAt_succ rfl rfl (finishesAt_succ rfl rfl (finishesAt_zero rfl rfl))⟩

/-- KeyIsOfItsSequence: the key of size 1 and its sequence of length 2. -/
theorem witness_KeyIsOfItsSequence :
    (idle []).eng.phase = .idle ∧ watched.eng.phase = .idle ∧ (idle []).params = watched.params ∧
        1 ≤ (idle []).keyDepth ∧
    2 * 1 ≤ watched.seqDepth ∧ exec (.deriveKey 1) (idle []) = .next ((idle []).startKey 1) ∧
    exec (.genSeq (2 * 1)) watched = .next (watched.startGen 2) ∧
    FinishesAt 2 ((idle []).startKey 1) ((idle []).startKey 1).keyStep.keyStep ∧
    FinishesAt 3 (watched.startGen 2) (watchedGo 2).genStep.genStep :=
  ⟨rfl, rfl, rfl, by decide, by decide, rfl, rfl, deriveKey_one_finishes, genSeq_watched_finishes⟩

/-- ExactStepCount: finished runs of length 0, alone, and with a host access between the engine's steps (3 steps, 2 of them the
engine's); lengths 0 and the depth with nothing to come. -/
theorem witness_ExactStepCount :
    (FinishesAt 0 ((idle []).startGen 0) ((idle []).startGen 0) ∧
      FinishesAt 3 (watched.startGen 2) (watchedGo 2).genStep.genStep ∧
      3 = 2 + (((watched.startGen 2).agenda.take 3).filter (fun ev => ev ≠ .engineTurn)).length ∧
      FinishesAt 2 ((idle []).startKey 1) ((idle []).startKey 1).keyStep.keyStep) ∧
    (idle []).eng.phase = .idle ∧ (idle []).agenda = [] ∧ 0 ≤ (idle []).seqDepth ∧ 16 ≤ (idle []).seqDepth ∧
    16 ≤ (idle []).keyDepth ∧ exec (.genSeq 16) (idle []) = .next ((idle []).startGen 16) ∧
    exec (.deriveKey 16) (idle []) = .next ((idle []).startKey 16) :=
  ⟨⟨finishesAt_zero rfl rfl, genSeq_watched_finishes, rfl, deriveKey_one_finishes⟩, rfl, rfl, by decide, by decide, by decide,
        rfl, rfl⟩

/-- A GEN_SEQ 16 at its last element is a safe state. -/
theorem gen_inv (agenda : List Event) : (gen 16 15 0#64 agenda).Inv where
  depths := ⟨by simp [gen, demo, eng], by simp [gen, demo, eng], by simp [gen, demo, eng], by simp [gen, demo, eng]⟩
  mem_wf := List.Pairwise.nil
  memBefore_wf := List.Pairwise.nil
  mem_inBuffers := fun _ h => absurd h List.not_mem_nil
  memBefore_inBuffers := fun _ h => absurd h List.not_mem_nil
  prog_le := by simp [gen, demo, eng]
  running := fun _ => ⟨by simp [gen, demo, eng], rfl, rfl⟩
  gen_fits := fun _ _ => ⟨by simp [gen, demo, eng], rfl⟩
  key_fits := fun _ h => absurd h (by simp [gen, demo, eng])

/-- A DERIVE_KEY 16 at its last element is a safe state. -/
theorem key_inv (agenda : List Event) : (key 16 31 0#64 agenda).Inv where
  depths := ⟨by simp [key, demo, eng], by simp [key, demo, eng], by simp [key, demo, eng], by simp [key, demo, eng]⟩
  mem_wf := List.Pairwise.nil
  memBefore_wf := List.Pairwise.nil
  mem_inBuffers := fun _ h => absurd h List.not_mem_nil
  memBefore_inBuffers := fun _ h => absurd h List.not_mem_nil
  prog_le := by simp [key, demo, eng]
  running := fun _ => ⟨by simp [key, demo, eng], rfl, rfl⟩
  gen_fits := fun _ h => absurd h (by simp [key, demo, eng])
  key_fits := fun _ _ => ⟨by simp [key, demo, eng], by simp [key, demo, eng]⟩

/-- EveryOperationEnds: a running operation with accesses at both ends of the window, an engine turn and a reset to come. -/
theorem witness_EveryOperationEnds :
    (gen 16 15 0#64 [.read 0 .w4, .write 0x2FFFF .w1 0#64, .engineTurn, .hardReset]).Inv ∧
    ∀ ev ∈ (gen 16 15 0#64 [.read 0 .w4, .write 0x2FFFF .w1 0#64, .engineTurn, .hardReset]).agenda, ev.inWindow := by
  refine ⟨gen_inv _, ?_⟩
  simp [gen, demo, Event.inWindow]

/-! #### Numerics: 0, -0.0, the smallest subnormal, the largest number below 1, 1, -1, the largest finite, the infinities, NaNs -/

/-- The value of a pattern from its three fields (R120). -/
theorem value_of {v : F64} {s : Bool} {e f : Nat} (hs : fSign v = s) (he : fExp v = e) (hf : fFrac v = f) :
    Spec.value v = (if s then -1 else 1) *
      (if e = 0 then (f : ℚ) * 2 ^ (-1074 : ℤ) else ((2 : ℚ) ^ 52 + f) * 2 ^ ((e : ℤ) - 1075)) := by
  subst hs he hf; rfl

theorem value_zero : Spec.value 0x0000000000000000#64 = 0 := value_eq_zero_iff.2 (by decide)

theorem value_negZero : Spec.value 0x8000000000000000#64 = 0 := value_eq_zero_iff.2 (by decide)

theorem value_one : Spec.value 0x3FF0000000000000#64 = 1 := by
  rw [value_of (s := false) (e := 1023) (f := 0) (by decide) (by decide) (by decide)]; norm_num

theorem value_negOne : Spec.value 0xBFF0000000000000#64 = -1 := by
  rw [value_of (s := true) (e := 1023) (f := 0) (by decide) (by decide) (by decide)]; norm_num

theorem value_belowOne : 0 < Spec.value 0x3FEFFFFFFFFFFFFF#64 ∧ Spec.value 0x3FEFFFFFFFFFFFFF#64 < 1 := by
  rw [value_of (s := false) (e := 1022) (f := 4503599627370495) (by decide) (by decide) (by decide)]; norm_num

theorem value_subnormal : 0 < Spec.value 0x0000000000000001#64 ∧ Spec.value 0x0000000000000001#64 < 1 := by
  rw [value_of (s := false) (e := 0) (f := 1) (by decide) (by decide) (by decide)]
  refine ⟨by simp, ?_⟩
  simpa using zpow_lt_one_of_neg₀ (a := (2 : ℚ)) (n := -1074) (by norm_num) (by norm_num)

/-- OperationsRoundOnce: the largest finite number and the smallest subnormal, a divisor that is not zero. -/
theorem witness_OperationsRoundOnce :
    Spec.Finite 0x7FEFFFFFFFFFFFFF#64 ∧ Spec.Finite 0xFFEFFFFFFFFFFFFF#64 ∧ Spec.Finite 0x0000000000000001#64 ∧
    Spec.value 0x0000000000000001#64 ≠ 0 :=
  ⟨by decide, by decide, by decide, value_subnormal.1.ne'⟩

/-- SpecialOperands: sums of zeros and of opposites, differences of equals and of zeros, a zero over a number, infinities with zero and nonzero numbers, with each other of like and unlike
sign, zero divisors, zero products. -/
theorem witness_SpecialOperands :
    (Spec.Finite 0x8000000000000000#64 ∧ Spec.value 0x8000000000000000#64 + Spec.value 0x8000000000000000#64 = 0 ∧
      Spec.Finite 0x3FF0000000000000#64 ∧ Spec.Finite 0xBFF0000000000000#64 ∧
      Spec.value 0x3FF0000000000000#64 + Spec.value 0xBFF0000000000000#64 = 0) ∧
    (Spec.value 0x3FF0000000000000#64 - Spec.value 0x3FF0000000000000#64 = 0 ∧
      Spec.value 0x8000000000000000#64 - Spec.value 0x0000000000000000#64 = 0 ∧ Spec.value 0x8000000000000000#64 = 0) ∧
    (Spec.IsInf 0x7FF0000000000000#64 false ∧ Spec.IsInf 0xFFF0000000000000#64 true ∧ false ≠ true ∧
      Spec.value 0xBFF0000000000000#64 ≠ 0 ∧ Spec.value 0x0000000000000000#64 = 0) ∧
    Spec.value 0xBFF0000000000000#64 * Spec.value 0x0000000000000000#64 = 0 := by
  refine ⟨⟨by decide, ?_, by decide, by decide, ?_⟩, ⟨sub_self _, ?_, value_negZero⟩,
    ⟨by decide, by decide, by decide, ?_, value_zero⟩, ?_⟩
  · rw [value_negZero, add_zero]
  · rw [value_one, value_negOne, add_neg_cancel]
  · rw [value_negZero, value_zero, sub_zero]
  · rw [value_negOne]; norm_num
  · rw [value_zero, mul_zero]

/-- NanResultsCanonical: a signalling and a quiet NaN operand, and a NaN result of numbers (0 / 0, inf * 0, inf - inf). -/
theorem witness_NanResultsCanonical :
    Spec.IsNaN 0x7FF0000000000001#64 ∧ Spec.IsNaN 0xFFFFFFFFFFFFFFFF#64 ∧
    Spec.IsNaN (fdiv 0x0000000000000000#64 0x8000000000000000#64) ∧
    Spec.IsNaN (fmul 0x7FF0000000000000#64 0x0000000000000000#64) ∧
    Spec.IsNaN (fadd 0x7FF0000000000000#64 0xFFF0000000000000#64) ∧
    Spec.IsNaN (fsub 0x7FF0000000000000#64 0x7FF0000000000000#64) := by decide +kernel

theorem witness_ComparisonsAreRealOrder :
    Spec.Finite 0x7FEFFFFFFFFFFFFF#64 ∧ Spec.Finite 0x8000000000000000#64 ∧ Spec.IsInf 0x7FF0000000000000#64 false ∧
    Spec.IsInf 0xFFF0000000000000#64 true ∧ Spec.IsNaN 0x7FF8000000000000#64 := by decide

theorem witness_IntegersConvertExactly : 0 ≤ 131072 ∧ 131072 ≤ 131072 := by decide

/-- EnvelopeFraction: the first index of the shortest sequence and the last of the longest. -/
theorem witness_EnvelopeFraction :
    (1 ≤ 1 ∧ 1 + 1 ≤ 2 ∧ 2 ≤ 131072 ∧ 1 + 1 = 2) ∧ (1 ≤ 131071 ∧ 131071 + 1 ≤ 131072 ∧ 131071 + 1 = 131072) ∧
    (1 ≤ 1 ∧ 1 + 1 ≤ 131072) := by decide

/-- GuardOnRealValues: both zeros, 1, the infinities; the smallest subnormal and the largest number below 1; a NaN. -/
theorem witness_GuardOnRealValues :
    (Spec.Finite 0x0000000000000000#64 ∧ Spec.value 0x0000000000000000#64 ≤ 0) ∧
    (Spec.Finite 0x8000000000000000#64 ∧ Spec.value 0x8000000000000000#64 ≤ 0) ∧
    (Spec.Finite 0x3FF0000000000000#64 ∧ 1 ≤ Spec.value 0x3FF0000000000000#64) ∧
    Spec.IsInf 0x7FF0000000000000#64 false ∧ Spec.IsInf 0xFFF0000000000000#64 true ∧
    (Spec.Finite 0x0000000000000001#64 ∧ 0 < Spec.value 0x0000000000000001#64 ∧
        Spec.value 0x0000000000000001#64 < 1) ∧
    (Spec.Finite 0x3FEFFFFFFFFFFFFF#64 ∧ 0 < Spec.value 0x3FEFFFFFFFFFFFFF#64 ∧
        Spec.value 0x3FEFFFFFFFFFFFFF#64 < 1) ∧
    Spec.IsNaN 0x7FF8000000000000#64 :=
  ⟨⟨by decide, value_zero.le⟩, ⟨by decide, value_negZero.le⟩, ⟨by decide, value_one.ge⟩, by decide, by decide,
    ⟨by decide, value_subnormal⟩, ⟨by decide, value_belowOne⟩, by decide⟩

/-- ElementRange: V-G10's parameters make element 1 a NaN. -/
theorem witness_ElementRange :
    1 ≤ 1 ∧ 1 ≤ 2 ∧ Spec.IsNaN (seqElem 3 { p8 with r := 0x7FF0000000000000#64, p := 0#64, q := 0#64 } 1) := by
  decide +kernel

/-- KeyByteRule: a NaN, a product that overflows, a finite product (of a negative number too). -/
theorem witness_KeyByteRule :
    Spec.IsNaN 0x7FF0000000000001#64 ∧
    Spec.IsInf (fmul 0x7FEFFFFFFFFFFFFF#64 0x4070000000000000#64) false ∧
    (¬ Spec.IsNaN 0xBFF0000000000000#64 ∧ Spec.Finite (fmul 0xBFF0000000000000#64 0x4070000000000000#64)) := by
  decide +kernel

theorem witness_KeyByteExact :
    (Spec.Finite 0x0000000000000001#64 ∧ 0 < Spec.value 0x0000000000000001#64 ∧
        Spec.value 0x0000000000000001#64 < 1) ∧
    (Spec.Finite 0x3FEFFFFFFFFFFFFF#64 ∧ 0 < Spec.value 0x3FEFFFFFFFFFFFFF#64 ∧
        Spec.value 0x3FEFFFFFFFFFFFFF#64 < 1) ∧
    0 < 256 ∧ 255 < 256 :=
  ⟨⟨by decide, value_subnormal⟩, ⟨by decide, value_belowOne⟩, by decide, by decide⟩

/-! #### The port -/

/-- AccessTable: the smallest and largest depths; a valid access at each end of the buffers; the ends of the reserved ranges. -/
theorem witness_AccessTable :
    (1 ≤ 8192 ∧ 8192 ≤ 8192 ∧ 65536 ≤ 65536) ∧
    Spec.ValidAccess 8192 65536 0x1FFF8 .w8 .read ∧ Spec.ValidAccess 8192 65536 0x2FFFF .w1 .read ∧
    Spec.ValidAccess 1 1 0x10004 .w4 .read ∧ Spec.ValidAccess 1 1 0x0003C .w4 .write ∧
    (0x0001C ≤ 0x0001F ∧ 0x0001F < 0x00020) ∧ (0x00040 ≤ 0x0FFFF ∧ 0x0FFFF < 0x10000) ∧
    (0x10000 + 8 * 16 ≤ 0x10080 ∧ 0x10080 < 0x20000) ∧ 0x20000 + 16 ≤ 0x20010 := by
  refine ⟨by decide, ?_, ?_, ?_, ?_, by decide, by decide, by decide, by decide⟩
  · exact .inr (.inr (.inr (.inl ⟨rfl, 8191, by decide, .inl ⟨rfl, by decide⟩⟩)))
  · exact .inr (.inr (.inr (.inr ⟨rfl, by decide, by decide, by decide⟩)))
  · exact .inr (.inr (.inr (.inl ⟨rfl, 0, by decide, .inr ⟨rfl, .inr rfl⟩⟩)))
  · exact .inr (.inr (.inl ⟨0x38, by decide, .inr ⟨rfl, .inr rfl⟩⟩))

/-- InvalidAccess: a misaligned read (V-M8) and a write at the window's last offset. -/
theorem witness_InvalidAccess :
    ((idle []).seqDepth ≤ 8192 ∧ (idle []).keyDepth ≤ 65536 ∧ 0x22 < 0x30000 ∧ 0x2FFFF < 0x30000) ∧
    ((idle [.read 0x22 .w4]).agenda = .read 0x22 .w4 :: [] ∧ ¬ Spec.ValidAccess 16 16 0x22 .w4 .read) ∧
    ((idle [.write 0x2FFFF .w1 0#64]).agenda = .write 0x2FFFF .w1 0#64 :: [] ∧
        ¬ Spec.ValidAccess 16 16 0x2FFFF .w1 .write) := by
  refine ⟨by decide, ⟨rfl, ?_⟩, rfl, ?_⟩
  · simp [Spec.ValidAccess]; omega
  · simp [Spec.ValidAccess]

/-- ValidAccessOkay: the last SEQ_BUF entry (V-M16), the last parameter half. -/
theorem witness_ValidAccessOkay :
    ((idle [.read 0x10078 .w8]).agenda = .read 0x10078 .w8 :: [] ∧ Spec.ValidAccess 16 16 0x10078 .w8 .read) ∧
    ((idle [.write 0x3C .w4 1#64]).agenda = .write 0x3C .w4 1#64 :: [] ∧ Spec.ValidAccess 16 16 0x3C .w4 .write) :=
  ⟨⟨rfl, .inr (.inr (.inr (.inl ⟨rfl, 15, by decide, .inl ⟨rfl, by decide⟩⟩)))⟩,
    rfl, .inr (.inr (.inl ⟨0x38, by decide, .inr ⟨rfl, .inr rfl⟩⟩))⟩

/-- Idle, a write just answered ERROR. -/
def polled (agenda : List Event) : State := { idle agenda with resp := some (.write .error) }

/-- ReadsHaveNoSideEffect: two states that differ in what is to come and in the latest answer. -/
theorem witness_ReadsHaveNoSideEffect :
    (idle [.read 0x2FFFF .w1]).agenda = .read 0x2FFFF .w1 :: [] ∧ 0x2FFFF < 0x30000 ∧
    (polled [.read 0x2FFFF .w1, .engineTurn]).agenda = .read 0x2FFFF .w1 :: [.engineTurn] ∧
    { polled [.read 0x2FFFF .w1, .engineTurn] with agenda := [], resp := none } =
      { idle [.read 0x2FFFF .w1] with agenda := [], resp := none } := ⟨rfl, by decide, rfl, rfl⟩

/-- OnlyOutsideWindowStops: a read and a write at the first offset beyond the window. -/
theorem witness_OnlyOutsideWindowStops :
    completes (idle [.read 0x30000 .w1]) = false ∧ completes (idle [.write 0x30000 .w4 0#64]) = false ∧
    (idle [.write 0x30000 .w4 0#64]).agenda = .write 0x30000 .w4 0#64 :: [] := ⟨rfl, rfl, rfl⟩

/-- ReadsAreLittleEndian: a parameter register, the last SEQ_BUF entry, KEY_BUF reads that end at the depth. -/
theorem witness_ReadsAreLittleEndian :
    (0x38, (idle []).params.q) ∈
      [(0x20, (idle []).params.r), (0x28, (idle []).params.x0), (0x30, (idle []).params.p), (0x38,
          (idle []).params.q)] ∧
    (15 < (idle []).seqDepth ∧ 0x10078 = 0x10000 + 8 * 15) ∧
    (idle [.read 0x10078 .w8]).agenda = .read 0x10078 .w8 :: [] ∧ (idle [.read 0x1007C .w4]).agenda =
        .read 0x1007C .w4 :: [] ∧
    ((idle [.read 0x20008 .w8]).agenda = .read (0x20000 + 8) .w8 :: [] ∧ 8 % Width.w8.bytes = 0 ∧
      8 + Width.w8.bytes ≤ (idle []).keyDepth) ∧ (15 % Width.w1.bytes = 0 ∧
          15 + Width.w1.bytes ≤ (idle []).keyDepth) := by
  decide

/-- ParamWrites: each width and half, idle and busy. -/
theorem witness_ParamWrites :
    (ParamReg.r, 0x20) ∈ [(ParamReg.r, 0x20), (ParamReg.x0, 0x28), (ParamReg.p, 0x30), (ParamReg.q, 0x38)] ∧
    (ParamReg.q, 0x38) ∈ [(ParamReg.r, 0x20), (ParamReg.x0, 0x28), (ParamReg.p, 0x30), (ParamReg.q, 0x38)] ∧
    ((idle [.write 0x20 .w8 1#64]).eng.phase = .idle ∧ (idle [.write 0x20 .w8 1#64]).agenda =
        .write 0x20 .w8 1#64 :: []) ∧
    (idle [.write 0x38 .w4 1#64]).agenda = .write 0x38 .w4 1#64 :: [] ∧
    (idle [.write 0x3C .w4 1#64]).agenda = .write (0x38 + 4) .w4 1#64 :: [] ∧
    ((gen 5 2 0#64 [.write 0x3C .w4 1#64]).eng.phase = .run ∧
      (gen 5 2 0#64 [.write 0x3C .w4 1#64]).agenda = .write (0x38 + 4) .w4 1#64 :: []) ∧ ParamReg.p ≠ ParamReg.q :=
          by decide

/-- IdRegister, DepthRegisters, CtrlRegister, CmdReadsZero, StatusRegister, ProgRegister: a safe state with the read or the write to come. -/
theorem witness_registers :
    (gen 16 15 0#64 [.read 0x00018 .w4]).Inv ∧
    (∀ off, (gen 16 15 0#64 [.read off .w4]).agenda = .read off .w4 :: []) ∧
    (∀ off w, (gen 16 15 0#64 [.write off w 5#64]).agenda = .write off w 5#64 :: []) ∧
    (idle []).eng.phase = .idle ∧ (idle []).seqDepth < 17 ∧ ¬ (idle []).seqDepth < 16 ∧ ¬ (idle []).keyDepth < 16 :=
  ⟨gen_inv _, fun _ => rfl, fun _ _ => rfl, rfl, by decide, by decide, by decide⟩

/-! #### Rules of the whole machine -/

/-- BuffersWrittenByEngineOnly: a read and another CMD word while busy, a SOFT_RESET while idle. -/
theorem witness_BuffersWrittenByEngineOnly :
    completes (gen 5 2 0#64 [.read 0x10000 .w8]) = true ∧ completes (gen 5 2 0#64 [cmdWrite 0x00000501#32]) = true ∧
    (∀ data, cmdWrite 0x00000501#32 = .write 0x00010 .w4 data → data.toNat % 2 ^ 32 ≠ 4) ∧
    (idle [cmdWrite 0x00000004#32]).eng.phase = .idle ∧ completes (idle [cmdWrite 0x00000004#32]) = true ∧
    cmdWrite 0x00000004#32 ≠ .engineTurn ∧ cmdWrite 0x00000004#32 ≠ .hardReset := by
  refine ⟨by decide, by decide, ?_, rfl, by decide, by decide, by decide⟩
  rintro data ⟨⟩; decide

/-- BUSY before and after a step. -/
def busyMove (s : State) : Option (Bool × Bool) := (after (step s)).map (fun t => (s.busy, t.busy))

/-- BusyChangesOnlyBy: BUSY rises by each command of length 1 and falls by the last step, SOFT_RESET and hardware reset. -/
theorem witness_BusyChangesOnlyBy :
    busyMove (idle [cmdWrite 0x00000101#32]) = some (false, true) ∧
    busyMove (idle [cmdWrite 0x00000102#32]) = some (false, true) ∧
    busyMove (gen 5 4 0x3FE0000000000000#64 []) = some (true, false) ∧
    busyMove (gen 5 2 0#64 [cmdWrite 0x00000004#32]) = some (true, false) ∧
    busyMove (key 4 2 0#64 [.hardReset]) = some (true, false) := by
  refine ⟨by decide +kernel, by decide +kernel, by decide +kernel, by rfl, by rfl⟩

/-- ErrChangesOnlyBy: each code raised, and cleared by CLR_STATUS and by hardware reset. -/
theorem witness_ErrChangesOnlyBy :
    [(idle [.write 0x00014 .w4 0#64]), (gen 5 2 0#64 [.write 0x00020 .w8 0#64]), (idle [cmdWrite 0x000000FF#32]),
      (idle [cmdWrite 0x00001101#32]), (idle [cmdWrite 0x00001102#32]), (worn [cmdWrite 0x00000003#32])].map
      (fun s => (after (step s)).map (fun t => (s.status.err, t.status.err))) =
    [some (.noError, .bus), some (.noError, .busyWrite), some (.noError, .illegalCmd), some (.noError, .lenRange),
      some (.noError, .lenRange), some (.lenRange, .noError)] ∧
    (after (step (worn [.hardReset]))).map (fun t => t.status.err) = some .noError := by
  refine ⟨by decide +kernel, by rfl⟩

/-- NumericFlagsChangeOnlyBy: NAN set by a NaN element and CLAMP by a replaced one, each at an engine turn and with nothing to come;
both cleared by CLR_STATUS, by the acceptance of each operation, by SOFT_RESET and by hardware reset. -/
theorem witness_NumericFlagsChangeOnlyBy :
    ((gen 5 1 0x7FF8000000000000#64 []).status.nan = false ∧ (gen 5 1 0x3FF8000000000000#64 []).status.clamp = false) ∧
    [[], [.engineTurn]].all (fun agenda =>
      (after (step (gen 5 1 0x7FF8000000000000#64 agenda))).map (fun t => t.status.nan) = some true &&
      (after (step (gen 5 1 0x3FF8000000000000#64 agenda))).map (fun t => t.status.clamp) = some true) = true ∧
    ((worn []).status.nan = true ∧ (worn []).status.clamp = true) ∧
    [cmdWrite 0x00000003#32, cmdWrite 0x00000001#32, cmdWrite 0x00001002#32, cmdWrite 0x00000004#32].all
      (fun ev => (after (step (worn [ev]))).map (fun t => (t.status.nan, t.status.clamp)) = some (false, false)) = true ∧
    (after (step (worn [.hardReset]))).map (fun t => (t.status.nan, t.status.clamp)) = some (false, false) := by
  refine ⟨by decide, by decide +kernel, by decide, by decide +kernel, by rfl⟩

/-- ProgMovesByOneOrToZero: kept, set to 0, advanced. -/
theorem witness_ProgMovesByOneOrToZero :
    [(worn [.read 0 .w4]), (worn [cmdWrite 0x00000501#32]), (gen 5 2 0x3FE0000000000000#64 [.engineTurn])].map
      (fun s => (after (step s)).map (fun t => (s.prog, t.prog))) = [some (5, 5), some (5, 0), some (2, 3)] := by
  decide +kernel

theorem witness_HardwareReset : (gen 5 2 0#64 [.hardReset, .engineTurn]).agenda = .hardReset :: [.engineTurn] :=
    by rfl

theorem witness_SoftResetMatchesHardReset :
    exec .softReset (gen 5 2 0#64 []) = .next (gen 5 2 0#64 []).softReset := by rfl

/-- StepKeepsInv: safe states with a GEN and a KEY at their last element, stepped. -/
theorem witness_StepKeepsInv :
    ((gen 16 15 0#64 []).Inv ∧ step (gen 16 15 0#64 []) = .next (gen 16 15 0#64 []).genStep) ∧
    ((key 16 31 0#64 [.engineTurn]).Inv ∧
      step (key 16 31 0#64 [.engineTurn]) = .next ((key 16 31 0#64 [.engineTurn]).withAgenda []).keyStep) :=
  ⟨⟨gen_inv _, rfl⟩, key_inv _, rfl⟩

/-- A GEN_SEQ 5 after its first element, which is in SEQ_BUF[0]. -/
def tracked (agenda : List Event) : State :=
  { gen 5 1 0x3FE0000000000000#64 agenda with mem := Memory.putSeq [] 0 0x3FE0000000000000#64 }

/-- StepKeepsTracks: an operation under way, stepped by its engine and by a read. -/
theorem witness_StepKeepsTracks (agenda : List Event) :
    (tracked agenda).Tracks ∧ step (tracked []) = .next (tracked []).genStep ∧
    completes (tracked [.read 0x10000 .w8]) = true where
  left :=
    { latch := fun _ _ => rfl
      gen_new := fun _ _ k hk => by
        have hk : k < 1 := hk
        obtain rfl : k = 0 := by omega
        exact State.seqEntry_putSeq (gen 5 1 0x3FE0000000000000#64 agenda) [] 0 0 _ |>.trans (if_pos rfl)
      gen_old := fun _ _ off hoff => by
        have hoff : ¬ (seqAddr 0 ≤ off ∧ off < seqAddr 1) := hoff
        unfold State.bufByte State.bufByteBefore
        have : (tracked agenda).mem = Memory.putSeq [] 0 0x3FE0000000000000#64 := rfl
        rw [this, Memory.read_putSeq, if_neg (by rw [seqAddr_eq 1] at hoff; omega)]
        rfl
      key_new := fun _ h => absurd h (by simp [tracked, gen, demo, eng])
      key_old := fun _ h => absurd h (by simp [tracked, gen, demo, eng]) }
  right := ⟨rfl, by decide +kernel⟩

/-- ElementRecurrence: the first index of the recurrence and the last of the longest sequence. -/
theorem witness_ElementRecurrence : 1 ≤ 1 ∧ 1 ≤ 131071 ∧ 0 < 1 ∧ 131071 < 131072 := by decide

end Sys2Proof.Tests
end

section
/-! PROOFS. What one step can do, said once (20_memory.md R67, R74; 30_encoding.md R95): the inversion of `step` that the
statements about every step go through. -/

namespace Sys2Proof.Machine

/-- The next event is the engine's turn, `rest` being what is to come after it: an offered turn, or nothing else to come
(R74, R250). -/
def State.EngineNext (s : State) (rest : List Event) : Prop :=
  (s.agenda = [] ∧ rest = []) ∨ s.agenda = .engineTurn :: rest

theorem State.EngineNext.agenda {s : State} {rest : List Event} (h : s.EngineNext rest) :
    s.agenda = [] ∨ ∃ rest, s.agenda = .engineTurn :: rest :=
  h.elim (fun h => .inl h.1) (fun h => .inr ⟨rest, h⟩)

/-- What a write inside the window does, by its response (R67): one constructor for each check of R65, R95 and R215 that it
can fail and for each effect it can have. -/
inductive WriteEffect (s : State) : (off : Nat) → Width → (data : BitVec 64) → Resp → State → Prop
  | invalid {off w data} : WriteEffect s off w data .error (s.raiseErr .bus)
  | ctrl {data} : WriteEffect s 0x0000C .w4 data .okay (s.writeCtrl data)
  | param {off w data} (which : ParamReg) (idle : s.eng.phase = .idle) (lo : which.row.base ≤ off)
      (hi : off < which.row.base + 8) :
      WriteEffect s off w data .okay
        { s with params := s.params.set which (mergeWrite (s.params.get which) (off - which.row.base) w data) }
  | paramBusy {off w data} (run : s.eng.phase = .run) (lo : 0x20 ≤ off) (hi : off < 0x40) :
      WriteEffect s off w data .okay (s.raiseErr .busyWrite)
  | cmdBusy {data} (run : s.eng.phase = .run) : WriteEffect s 0x00010 .w4 data .okay (s.raiseErr .busyWrite)
  | noCommand {data e} (dec : decodeWord (data.extractLsb' 0 32) = .error e) (idle : s.eng.phase = .idle) :
      WriteEffect s 0x00010 .w4 data .okay (s.raiseErr .illegalCmd)
  | nop {data} (dec : decodeWord (data.extractLsb' 0 32) = .ok .nop) (idle : s.eng.phase = .idle) :
      WriteEffect s 0x00010 .w4 data .okay s
  | genTooLong {data n} (dec : decodeWord (data.extractLsb' 0 32) = .ok (.genSeq n)) (idle : s.eng.phase = .idle)
      (long : s.seqDepth < n) : WriteEffect s 0x00010 .w4 data .okay (s.raiseErr .lenRange)
  | startGen {data n} (dec : decodeWord (data.extractLsb' 0 32) = .ok (.genSeq n)) (idle : s.eng.phase = .idle)
      (fits : n ≤ s.seqDepth) : WriteEffect s 0x00010 .w4 data .okay (s.startGen n)
  | keyTooLong {data n} (dec : decodeWord (data.extractLsb' 0 32) = .ok (.deriveKey n)) (idle : s.eng.phase = .idle)
      (long : s.keyDepth < n) : WriteEffect s 0x00010 .w4 data .okay (s.raiseErr .lenRange)
  | startKey {data n} (dec : decodeWord (data.extractLsb' 0 32) = .ok (.deriveKey n)) (idle : s.eng.phase = .idle)
      (fits : n ≤ s.keyDepth) : WriteEffect s 0x00010 .w4 data .okay (s.startKey n)
  | clrStatus {data} (dec : decodeWord (data.extractLsb' 0 32) = .ok .clrStatus) (idle : s.eng.phase = .idle) :
      WriteEffect s 0x00010 .w4 data .okay s.clearStatus
  | softReset {data} (dec : decodeWord (data.extractLsb' 0 32) = .ok .softReset) :
      WriteEffect s 0x00010 .w4 data .okay s.softReset

/-- What a step does, by its event (R74). -/
inductive StepEffect (s : State) : State → Prop
  | idleTurn {rest} (next : s.EngineNext rest) (idle : s.eng.phase = .idle) : StepEffect s (s.withAgenda rest)
  | genStep {rest} (next : s.EngineNext rest) (run : s.eng.phase = .run) (op : s.eng.op = .gen) :
      StepEffect s (s.withAgenda rest).genStep
  | keyStep {rest} (next : s.EngineNext rest) (run : s.eng.phase = .run) (op : s.eng.op = .key) :
      StepEffect s (s.withAgenda rest).keyStep
  | hardReset {rest} (next : s.agenda = .hardReset :: rest) : StepEffect s (s.withAgenda rest).hardReset
  | read {off w rest answer} (next : s.agenda = .read off w :: rest) :
      StepEffect s { s.withAgenda rest with resp := some answer }
  | write {off w data rest resp u} (next : s.agenda = .write off w data :: rest)
      (effect : WriteEffect (s.withAgenda rest) off w data resp u) : StepEffect s (u.respondWrite resp)

/-- A command's effect is one of those of a CMD write (R95). -/
theorem writeEffect_of_command {s : State} {data : BitVec 64} {i : Instr}
    (dec : decodeWord (data.extractLsb' 0 32) = .ok i) : WriteEffect s 0x00010 .w4 data .okay (after i s) := by
  rcases after_cases i s with ⟨run, -, e⟩ | ⟨idle, rfl, e⟩ | ⟨idle, n, rfl, long, e⟩ | ⟨idle, n, rfl, fits, e⟩ |
    ⟨idle, n, rfl, long, e⟩ | ⟨idle, n, rfl, fits, e⟩ | ⟨idle, rfl, e⟩ | ⟨rfl, e⟩ <;> rw [e]
  · exact .cmdBusy run
  · exact .nop dec idle
  · exact .genTooLong dec idle long
  · exact .startGen dec idle fits
  · exact .keyTooLong dec idle long
  · exact .startKey dec idle fits
  · exact .clrStatus dec idle
  · exact .softReset dec

/-- So is the effect of a word that is no command (R94, R95). -/
theorem writeEffect_of_noCommand {s : State} {data : BitVec 64} {e : DecodeError}
    (dec : decodeWord (data.extractLsb' 0 32) = .error e) : WriteEffect s 0x00010 .w4 data .okay s.rejectWord := by
  unfold State.rejectWord
  cases hp : s.eng.phase with
  | idle => rw [State.whenIdle_idle hp]; exact .noCommand dec hp
  | run => rw [State.whenIdle_busy hp]; exact .cmdBusy hp

theorem ParamReg.row_bounds (which : ParamReg) : 0x20 ≤ which.row.base ∧ which.row.base + 8 ≤ 0x40 := by
  cases which <;> decide

theorem writeEffect_of_param {s : State} {off : Nat} {w : Width} {data : BitVec 64} {which : ParamReg}
    (lo : which.row.base ≤ off) (hi : off < which.row.base + 8) :
    WriteEffect s off w data .okay (s.writeParam which (off - which.row.base) w data) := by
  have hb := which.row_bounds
  unfold State.writeParam
  cases hp : s.eng.phase with
  | idle => rw [State.whenIdle_idle hp]; exact .param which hp lo hi
  | run => rw [State.whenIdle_busy hp]; exact .paramBusy hp (by omega) (by omega)

theorem memWrite_effect {s t : State} {off : Nat} {w : Width} {data : BitVec 64}
    (h : s.memWrite off w data = .next t) :
    ∃ resp u, t = u.respondWrite resp ∧ WriteEffect s off w data resp u := by
  rcases memWrite_cases h with ⟨-, rfl⟩ | ⟨rfl, rfl, rfl⟩ | ⟨rfl, rfl, ⟨i, dec, rfl⟩ | ⟨e, dec, rfl⟩⟩ |
    ⟨which, lo, hi, rfl⟩
  · exact ⟨_, _, rfl, .invalid⟩
  · exact ⟨_, _, rfl, .ctrl⟩
  · exact ⟨_, _, rfl, writeEffect_of_command dec⟩
  · exact ⟨_, _, rfl, writeEffect_of_noCommand dec⟩
  · exact ⟨_, _, rfl, writeEffect_of_param lo hi⟩

/-- The engine's turn, whichever way it comes. -/
theorem stepEffect_of_engineTurn {s : State} {rest : List Event} (next : s.EngineNext rest) :
    StepEffect s (s.withAgenda rest).engineTurn := by
  rcases (s.withAgenda rest).engineTurn_cases with ⟨idle, e⟩ | ⟨run, op, e⟩ | ⟨run, op, e⟩ <;> rw [e]
  · exact .idleTurn next idle
  · exact .genStep next run op
  · exact .keyStep next run op

/-- Every step that answers a next state has one of the listed effects. -/
theorem step_effect {s t : State} (h : step s = .next t) : StepEffect s t := by
  rcases step_cases h with ⟨ha, rfl⟩ | ⟨ev, rest, ha, ⟨rfl, rfl⟩ | ⟨rfl, rfl⟩ | ⟨off, w, answer, rfl, -, rfl⟩ |
    ⟨off, w, data, rfl, -, hw⟩⟩
  · have e : s.withAgenda [] = s := by rw [State.withAgenda, ← ha]
    simpa only [e] using stepEffect_of_engineTurn (.inl ⟨ha, rfl⟩)
  · exact stepEffect_of_engineTurn (.inr ha)
  · exact .hardReset ha
  · exact .read ha
  · obtain ⟨resp, u, rfl, effect⟩ := memWrite_effect hw
    exact .write ha effect

end Sys2Proof.Machine
end

section
/-! PROOFS. Every step keeps the invariant of the safe states (10_state.md R22, R23, R27, R33, R38 to R41, R44). -/

namespace Sys2Proof.Machine

/-- The invariant does not speak of CTRL, of STATUS but DONE, of the response, the agenda and the free choices' numbers. -/
theorem State.Inv.reframe {s : State} (hs : s.Inv) (ctrl : Ctrl) (err : ErrCode) (nan clamp : Bool) (epoch abandons : Nat)
    (agenda : List Event) (resp : Option Response) :
    State.Inv { s with ctrl := ctrl, status := ⟨s.status.done, err, nan, clamp⟩, bufEpoch := epoch,
                       abandons := abandons, agenda := agenda, resp := resp } :=
  ⟨hs.depths, hs.mem_wf, hs.memBefore_wf, hs.mem_inBuffers, hs.memBefore_inBuffers, hs.prog_le, hs.running, hs.gen_fits,
    hs.key_fits⟩

theorem State.Inv.withAgenda {s : State} (hs : s.Inv) (rest : List Event) : (s.withAgenda rest).Inv :=
  hs.reframe _ _ _ _ _ _ _ _

theorem State.Inv.respond {s : State} (hs : s.Inv) (resp : Option Response) : State.Inv { s with resp := resp } :=
  hs.reframe _ _ _ _ _ _ _ _

theorem State.Inv.raiseErr {s : State} (hs : s.Inv) (code : ErrCode) : (s.raiseErr code).Inv := hs.reframe _ _ _ _ _ _ _ _

/-- A safe state whose engine stands still stays safe whatever else changes, as long as the memories and PROG are. -/
theorem State.Inv.of_idle {s t : State} (hs : s.Inv) (depths : t.seqDepth = s.seqDepth ∧ t.keyDepth = s.keyDepth)
    (mem_wf : Memory.wf t.mem) (mem_in : Memory.Within s.InBuffers t.mem)
    (memBefore : t.memBefore = s.memBefore ∨ t.memBefore = s.mem ∨ t.memBefore = [])
    (prog : t.prog = s.prog ∨ t.prog = 0) (idle : t.eng.phase = .idle) : t.Inv := by
  obtain ⟨hsd, hkd⟩ := depths
  have hin : t.InBuffers = s.InBuffers := by funext off; simp only [State.InBuffers, hsd, hkd]
  have hbefore : Memory.wf t.memBefore ∧ Memory.Within s.InBuffers t.memBefore := by
    rcases memBefore with e | e | e <;> rw [e]
    · exact ⟨hs.memBefore_wf, hs.memBefore_inBuffers⟩
    · exact ⟨hs.mem_wf, hs.mem_inBuffers⟩
    · exact ⟨.nil, by simp [Memory.Within]⟩
  have hprog := hs.prog_le
  exact
    { depths := by rw [hsd, hkd]; exact hs.depths
      mem_wf := mem_wf
      memBefore_wf := hbefore.1
      mem_inBuffers := by rw [hin]; exact mem_in
      memBefore_inBuffers := by rw [hin]; exact hbefore.2
      prog_le := by rw [hsd, hkd]; omega
      running := fun run => by simp [idle] at run
      gen_fits := fun run => by simp [idle] at run
      key_fits := fun run => by simp [idle] at run }

/-- An accepted operation starts in a safe state (R133, R163). -/
theorem State.Inv.beginOperation {s : State} (hs : s.Inv) (idle : s.eng.phase = .idle) {op : EngOp} {n size : Nat}
    (gen : op = .gen → n ≤ s.seqDepth ∧ size = 0) (key : op = .key → n = 2 * size ∧ size ≤ s.keyDepth) :
    (s.beginOperation op n size).Inv := by
  by_cases hn : n = 0
  · exact hs.of_idle ⟨rfl, rfl⟩ hs.mem_wf hs.mem_inBuffers (.inr (.inl rfl)) (.inr rfl) (by simp [hn, idle])
  · exact
      { depths := hs.depths
        mem_wf := hs.mem_wf
        memBefore_wf := hs.mem_wf
        mem_inBuffers := hs.mem_inBuffers
        memBefore_inBuffers := hs.mem_inBuffers
        prog_le := Nat.zero_le _
        running := fun _ => ⟨Nat.pos_of_ne_zero hn, by simp [hn], rfl⟩
        gen_fits := fun _ => gen
        key_fits := fun _ => key }

theorem State.settleBuffers_induct {Q : Memory → Prop} {s : State} (hs : s.Inv)
    (hw : ∀ m a v, Q m → s.InBuffers a → Q (Memory.write m a v)) (hu : ∀ m a, Q m → Q (Memory.unlist m a))
    (hm : Q s.mem) : Q s.settleBuffers := by
  cases hp : s.eng.phase with
  | idle => rw [State.settleBuffers_idle hp]; exact hm
  | run =>
    cases ho : s.eng.op with
    | gen =>
      rw [State.settleBuffers_gen hp ho]
      have hfit := (hs.gen_fits hp ho).1
      refine settleSeq_induct hw hu s _ hm (fun x lo hi => .inl ⟨lo, ?_⟩)
      rw [seqAddr_eq] at hi ⊢; omega
    | key =>
      rw [State.settleBuffers_key hp ho]
      have hfit := (hs.key_fits hp ho).2
      refine settleKey_induct hw hu s _ hm (fun x lo hi => .inr ⟨lo, ?_⟩)
      rw [keyAddr_eq] at hi ⊢; omega

/-- SOFT_RESET settles the abandoned operation's range inside its buffer (R193). -/
theorem State.Inv.softReset {s : State} (hs : s.Inv) : s.softReset.Inv :=
  hs.of_idle ⟨rfl, rfl⟩
    (State.settleBuffers_induct hs (fun _ a v h _ => Memory.write_wf h a v) (fun _ a h => Memory.unlist_wf h a) hs.mem_wf)
    (State.settleBuffers_induct hs (fun _ _ _ h ha => Memory.Within.write h ha) (fun _ _ h => h.unlist) hs.mem_inBuffers)
    (.inl rfl) (.inr rfl) rfl

theorem State.Inv.hardReset {s : State} (hs : s.Inv) : s.hardReset.Inv :=
  hs.of_idle ⟨rfl, rfl⟩ .nil (by simp [Memory.Within]) (.inr (.inr rfl)) (.inr rfl) rfl

/-- One engine step keeps the invariant if what it writes is in the buffers: PROG stays below ENG.n unless the engine ends. -/
theorem State.Inv.advanceEngine {s : State} (hs : s.Inv) (run : s.eng.phase = .run) {m : Memory} (m_wf : Memory.wf m)
    (m_in : Memory.Within s.InBuffers m) (v : F64) (clamped : Bool) :
    (State.advanceEngine v clamped { s with mem := m }).Inv := by
  obtain ⟨hlt, hdone, hlat⟩ := hs.running run
  have hn : s.eng.n ≤ max s.seqDepth (2 * s.keyDepth) := by
    cases ho : s.eng.op with
    | gen => have := hs.gen_fits run ho; omega
    | key => have := hs.key_fits run ho; omega
  exact
    { depths := hs.depths
      mem_wf := m_wf
      memBefore_wf := hs.memBefore_wf
      mem_inBuffers := m_in
      memBefore_inBuffers := hs.memBefore_inBuffers
      prog_le := by simp only [State.advanceEngine_prog, State.advanceEngine_seqDepth, State.advanceEngine_keyDepth]; omega
      running := fun h => by
        have hne : s.prog + 1 ≠ s.eng.n := fun e => by simp [e] at h
        exact ⟨by simp only [State.advanceEngine_prog, State.advanceEngine_eng]; omega, by simp [hne, hdone], hlat⟩
      gen_fits := fun _ => hs.gen_fits run
      key_fits := fun _ => hs.key_fits run }

/-- A GEN step writes an entry below SEQ_DEPTH (R134). -/
theorem State.Inv.genStep {s : State} (hs : s.Inv) (run : s.eng.phase = .run) (op : s.eng.op = .gen) : s.genStep.Inv := by
  have hlt := (hs.running run).1
  have hfit := (hs.gen_fits run op).1
  refine hs.advanceEngine run (Memory.putSeq_wf hs.mem_wf _ _) ?_ _ _
  refine Memory.writeBytes_induct (fun _ _ _ h ha => Memory.Within.write h ha) _ hs.mem_inBuffers (fun j hj => .inl ?_)
  rw [bytesOf_length] at hj
  have h₁ := seqAddr_eq s.prog
  have h₂ := seqAddr_eq s.seqDepth
  omega

/-- A KEY step of the second half writes a byte below KEY_DEPTH (R164). -/
theorem State.Inv.keyStep {s : State} (hs : s.Inv) (run : s.eng.phase = .run) (op : s.eng.op = .key) : s.keyStep.Inv := by
  have hlt := (hs.running run).1
  obtain ⟨hn, hfit⟩ := hs.key_fits run op
  unfold State.keyStep
  split
  · next hhalf =>
    refine hs.advanceEngine run (Memory.putKey_wf hs.mem_wf _ _) (Memory.Within.write hs.mem_inBuffers (.inr ?_)) _ _
    have h₁ := keyAddr_eq (s.prog - s.eng.size)
    have h₂ := keyAddr_eq s.keyDepth
    omega
  · exact hs.advanceEngine run hs.mem_wf hs.mem_inBuffers _ _

/-- Every write keeps the invariant: only an idle machine's parameters change, so that the latches hold (R41, R65). -/
theorem WriteEffect.keeps_inv {s u : State} {off : Nat} {w : Width} {data : BitVec 64} {resp : Resp} (hs : s.Inv)
    (h : WriteEffect s off w data resp u) : u.Inv := by
  cases h with
  | invalid => exact hs.raiseErr _
  | ctrl => exact hs.reframe _ _ _ _ _ _ _ _
  | param which idle =>
    exact hs.of_idle ⟨rfl, rfl⟩ hs.mem_wf hs.mem_inBuffers (.inl rfl) (.inl rfl) idle
  | paramBusy | cmdBusy | noCommand | genTooLong | keyTooLong => exact hs.raiseErr _
  | nop => exact hs
  | startGen dec idle fits => exact hs.beginOperation idle (fun _ => ⟨fits, rfl⟩) nofun
  | startKey dec idle fits => exact hs.beginOperation idle nofun (fun _ => ⟨rfl, fits⟩)
  | clrStatus dec idle => exact hs.of_idle ⟨rfl, rfl⟩ hs.mem_wf hs.mem_inBuffers (.inl rfl) (.inl rfl) idle
  | softReset => exact hs.softReset

/-- Settles O58, by the kinds of a step's effect. -/
theorem stepKeepsInv : Obligations.StepKeepsInv := by
  intro s t hs h
  cases step_effect h with
  | idleTurn => exact hs.withAgenda _
  | genStep _ run op => exact (hs.withAgenda _).genStep run op
  | keyStep _ run op => exact (hs.withAgenda _).keyStep run op
  | hardReset => exact (hs.withAgenda _).hardReset
  | read => exact (hs.withAgenda _).respond _
  | write _ effect => exact (effect.keeps_inv (hs.withAgenda _)).respond _

end Sys2Proof.Machine
end

section
/-! PROOFS. Every step keeps what the running operation has produced so far (20_memory.md R72; 40_sequence_generator.md R130,
R134; 41_key_derivation.md R164). -/

namespace Sys2Proof.Machine

/-- What the operation has done is in ENG, PROG and the buffers; no other field matters. -/
theorem State.Tracks.reframe {s : State} (hs : s.Tracks) (ctrl : Ctrl) (status : Status) (params : Params)
    (agenda : List Event) (resp : Option Response) :
    State.Tracks { s with ctrl := ctrl, status := status, params := params, agenda := agenda, resp := resp } :=
  ⟨hs.latch, hs.gen_new, hs.gen_old, hs.key_new, hs.key_old⟩

theorem State.Tracks.withAgenda {s : State} (hs : s.Tracks) (rest : List Event) : (s.withAgenda rest).Tracks :=
  hs.reframe _ _ _ _ _

/-- With the engine idle there is nothing to keep. -/
theorem State.Tracks.of_idle {s : State} (idle : s.eng.phase = .idle) : s.Tracks := by
  have absurd_run {p : Prop} (run : s.eng.phase = .run) : p := by simp [idle] at run
  exact ⟨absurd_run, absurd_run, absurd_run, absurd_run, absurd_run⟩

/-- At its acceptance an operation has produced nothing, and the buffers are the snapshot (R133, R163). -/
theorem State.Tracks.beginOperation (s : State) (op : EngOp) (n size : Nat) : (s.beginOperation op n size).Tracks :=
  { latch := fun _ h => absurd h (Nat.lt_irrefl 0)
    gen_new := fun _ _ k h => absurd h (Nat.not_lt_zero k)
    gen_old := fun _ _ _ _ => rfl
    key_new := fun _ _ _ h => absurd h (Nat.not_lt_zero _)
    key_old := fun _ _ _ _ => rfl }

/-- The engine's next element is the sequence's (R130, R131). -/
theorem State.Tracks.elem_eq {s : State} (hs : s.Tracks) (run : s.eng.phase = .run) :
    (s.eng.elem s.prog).1 = seqElem s.eng.n s.eng.lat s.prog := by
  cases hp : s.prog with
  | zero => rfl
  | succ i =>
    have hlatch : s.eng.s = seqElem s.eng.n s.eng.lat i := by simpa [hp] using hs.latch run (by omega)
    rw [Eng.elem, if_neg (Nat.succ_ne_zero i), hlatch, seqElem]

/-- A GEN step adds entry PROG and touches no other byte (R134). -/
theorem State.Tracks.genStep {s : State} (hs : s.Tracks) (run : s.eng.phase = .run) (op : s.eng.op = .gen) :
    s.genStep.Tracks where
  latch _ _ := hs.elem_eq run
  gen_new _ _ k hk := by
    have hk : k < s.prog + 1 := hk
    by_cases he : k = s.prog
    · subst he; exact (genStep_new s).trans (hs.elem_eq run)
    · refine (State.seqEntry_congr fun j hj => genStep_old s _ ?_).trans (hs.gen_new run op k (by omega))
      rw [seqAddr_eq k, seqAddr_eq s.prog]; omega
  gen_old _ _ off hoff := by
    have hoff : ¬ (seqAddr 0 ≤ off ∧ off < seqAddr (s.prog + 1)) := hoff
    rw [seqAddr_eq (s.prog + 1)] at hoff
    have hp := seqAddr_eq s.prog
    exact (genStep_old s off (by omega)).trans (hs.gen_old run op off (by omega))
  key_new _ key := by simp [op] at key
  key_old _ key := by simp [op] at key

/-- A KEY step adds byte PROG - size in the second half and touches no other byte (R164). -/
theorem State.Tracks.keyStep {s : State} (hs : s.Tracks) (run : s.eng.phase = .run) (op : s.eng.op = .key) :
    s.keyStep.Tracks where
  latch _ _ := hs.elem_eq run
  gen_new _ gen := by simp [op] at gen
  gen_old _ gen := by simp [op] at gen
  key_new _ _ k hk := by
    have hk : s.eng.size + k < s.prog + 1 := hk
    by_cases he : s.eng.size + k = s.prog
    · obtain rfl : k = s.prog - s.eng.size := by omega
      rw [keyStep_new s (by omega), hs.elem_eq run]; simp [he]
    · refine (keyStep_old s _ (.inr ?_)).trans (hs.key_new run op k (by omega))
      rw [keyAddr_eq k, keyAddr_eq (s.prog - s.eng.size)]; omega
  key_old _ _ off hoff := by
    have hoff : ¬ (keyAddr 0 ≤ off ∧ off < keyAddr (s.prog + 1 - s.eng.size)) := hoff
    rw [keyAddr_eq (s.prog + 1 - s.eng.size)] at hoff
    have hp := keyAddr_eq (s.prog - s.eng.size)
    exact (keyStep_old s off (by omega)).trans (hs.key_old run op off (by omega))

/-- Every write keeps it: none but an acceptance and SOFT_RESET touches the engine or a buffer (R70). -/
theorem WriteEffect.keeps_tracks {s u : State} {off : Nat} {w : Width} {data : BitVec 64} {resp : Resp} (hs : s.Tracks)
    (h : WriteEffect s off w data resp u) : u.Tracks := by
  cases h with
  | startGen | startKey => exact .beginOperation _ _ _ _
  | softReset => exact .of_idle rfl
  | invalid | ctrl | param | paramBusy | cmdBusy | noCommand | nop | genTooLong | keyTooLong | clrStatus =>
    exact hs.reframe _ _ _ _ _

/-- Settles O59, by the kinds of a step's effect. -/
theorem stepKeepsTracks : Obligations.StepKeepsTracks := by
  intro s t hs h
  cases step_effect h with
  | idleTurn => exact hs.withAgenda _
  | genStep _ run op => exact (hs.withAgenda _).genStep run op
  | keyStep _ run op => exact (hs.withAgenda _).keyStep run op
  | hardReset => exact .of_idle rfl
  | read => exact (hs.withAgenda _).reframe _ _ _ _ _
  | write _ effect => exact (effect.keeps_tracks (hs.withAgenda _)).reframe _ _ _ _ _

end Sys2Proof.Machine
end

section
/-! PROOFS. The control registers as the host reads and writes them (10_state.md R21 to R33; 20_memory.md R64, R67). -/

namespace Sys2Proof.Machine

/-- Four bytes of a zero-extended word put together again are the word (R64). -/
theorem leValue_bytesOf_word (v : Word) : leValue (bytesOf (v.setWidth 64) 4) = v.setWidth 64 := by
  have := v.isLt
  apply BitVec.eq_of_toNat_eq
  rw [leValue, leNat_bytesOf, BitVec.toNat_ofNat, BitVec.toNat_setWidth]
  omega

/-- A 4-byte read at a register's offset gives the register (R64). -/
theorem State.readData_register {s : State} {off : Nat} {reg : Region} {v : Word} (seq : reg ≠ .seqBuf) (key : reg ≠ .keyBuf)
    (hv : s.regValue reg = v.setWidth 64) : s.readData ⟨off, 4, reg⟩ off .w4 = v.setWidth 64 := by
  have hbyte (j : Nat) : s.rowByte ⟨off, 4, reg⟩ (off + j) = byteOf (v.setWidth 64) j := by
    cases reg with
    | seqBuf | keyBuf => contradiction
    | _ => simp [State.rowByte, hv]
  rw [State.readData, ← leValue_bytesOf_word, bytesOf]
  simp only [hbyte, Width.bytes]

/-- The offset of each 32-bit control register (R20). -/
inductive ControlReg : (off : Nat) → Region → Prop
  | id : ControlReg 0x00000 .id
  | seqDepth : ControlReg 0x00004 .seqDepth
  | keyDepth : ControlReg 0x00008 .keyDepth
  | ctrl : ControlReg 0x0000C .ctrl
  | cmd : ControlReg 0x00010 .cmd
  | status : ControlReg 0x00014 .status
  | prog : ControlReg 0x00018 .prog

theorem validRow_controlReg {off : Nat} {reg : Region} (hr : ControlReg off reg) (sd kd : Nat) :
    validRow sd kd off .w4 .read = some ⟨off, 4, reg⟩ := by
  cases hr <;> rfl

/-- The step of a 4-byte read of a control register: OKAY with its contents, and no other effect (R67, R68). -/
theorem step_readControl {s : State} {rest : List Event} {off : Nat} {reg : Region} {v : Word} (hr : ControlReg off reg)
    (h : s.agenda = .read off .w4 :: rest) (hv : s.regValue reg = v.setWidth 64) :
    step s = .next { s with agenda := rest, resp := some (.read .okay (v.setWidth 64)) } := by
  have hoff : off < 0x30000 := by cases hr <;> decide
  have hbuf : reg ≠ .seqBuf ∧ reg ≠ .keyBuf := by cases hr <;> decide
  have hv' : (s.withAgenda rest).regValue reg = v.setWidth 64 := by cases hr <;> exact hv
  rw [step_cons h, handle_read hoff, State.memRead, validRow_controlReg hr]
  simp only [State.readData_register hbuf.1 hbuf.2 hv']
  rfl

/-- A write of any width to a read-only control register is invalid (R63). -/
theorem validRow_readOnly {off : Nat} {reg : Region} (hr : ControlReg off reg) (hro : reg.writable = false)
    (sd kd : Nat) (w : Width) : validRow sd kd off w .write = none := by
  cases hr with
  | ctrl | cmd => contradiction
  | _ => cases w <;> rfl

/-- The step of a write to a read-only control register: ERROR, BUS, and no other effect (R215). -/
theorem step_writeReadOnly {s : State} {rest : List Event} {off : Nat} {reg : Region} {w : Width} {data : BitVec 64}
    (hr : ControlReg off reg) (hro : reg.writable = false) (h : s.agenda = .write off w data :: rest) :
    step s = .next { Spec.raise .bus { s with agenda := rest } with resp := some (.write .error) } := by
  have hoff : off < 0x30000 := by cases hr <;> decide
  rw [step_cons h, handle_write hoff, State.memWrite, validRow_readOnly hr hro]
  rfl

/-- Settles O44. -/
theorem idRegister : Obligations.IdRegister := fun _ _ =>
  ⟨fun h => step_readControl (v := idWord) .id h rfl, fun _ _ h => step_writeReadOnly .id rfl h⟩

/-- Settles O47. -/
theorem cmdReadsZero : Obligations.CmdReadsZero := fun _ _ h => step_readControl (v := 0#32) .cmd h rfl

/-- A register that holds a count below 2^32 reads as the count. -/
theorem setWidth_ofNat_toNat {k : Nat} (h : k < 2 ^ 32) : ((BitVec.ofNat 32 k).setWidth 64).toNat = k := by
  rw [BitVec.toNat_setWidth, BitVec.toNat_ofNat]; omega

/-- Settles O49. -/
theorem progRegister : Obligations.ProgRegister := by
  refine ⟨fun s rest hs h => ⟨_, step_readControl .prog h rfl, ?_⟩, fun s rest w data h => step_writeReadOnly .prog rfl h⟩
  have hprog := hs.prog_le
  have hdepths := hs.depths
  exact ⟨setWidth_ofNat_toNat (by omega), by omega⟩

/-- A raised error is not an accepted operation: the status tells them apart. -/
theorem State.lenRange_iff_of_choice (s : State) (p : Prop) [Decidable p] (op : EngOp) (n size : Nat) :
    (if p then s.raiseErr .lenRange else s.beginOperation op n size) = Spec.raise .lenRange s ↔ p := by
  split
  · next h => exact ⟨fun _ => h, fun _ => rfl⟩
  · next h => exact ⟨fun e => (nomatch congrArg (·.status.err) e), fun h' => absurd h' h⟩

/-- The depths are set by no event (R22, R23). -/
theorem WriteEffect.keeps_depths {s u : State} {off : Nat} {w : Width} {data : BitVec 64} {resp : Resp}
    (h : WriteEffect s off w data resp u) : u.seqDepth = s.seqDepth ∧ u.keyDepth = s.keyDepth := by
  cases h <;> exact ⟨rfl, rfl⟩

theorem step_keeps_depths {s t : State} (h : step s = .next t) : t.seqDepth = s.seqDepth ∧ t.keyDepth = s.keyDepth := by
  cases step_effect h with
  | write _ effect => exact effect.keeps_depths
  | idleTurn | genStep | keyStep | hardReset | read => exact ⟨rfl, rfl⟩

/-- While idle GEN_SEQ answers LEN_RANGE exactly above SEQ_DEPTH (R22, R133). -/
theorem exec_genSeq_lenRange_iff {s : State} (idle : s.eng.phase = .idle) (n : Nat) :
    exec (.genSeq n) s = .next (Spec.raise .lenRange s) ↔ s.seqDepth < n := by
  rw [exec_eq_after, after, State.whenIdle_idle idle, Host.Outcome.next.injEq]
  exact s.lenRange_iff_of_choice _ _ _ _

/-- While idle DERIVE_KEY answers LEN_RANGE exactly above KEY_DEPTH (R23, R163). -/
theorem exec_deriveKey_lenRange_iff {s : State} (idle : s.eng.phase = .idle) (size : Nat) :
    exec (.deriveKey size) s = .next (Spec.raise .lenRange s) ↔ s.keyDepth < size := by
  rw [exec_eq_after, after, State.whenIdle_idle idle, Host.Outcome.next.injEq]
  exact s.lenRange_iff_of_choice _ _ _ _

/-- Settles O45. -/
theorem depthRegisters : Obligations.DepthRegisters := by
  refine ⟨fun s rest hs => ?_, fun s rest off w data ho h => ?_, fun s t h => step_keeps_depths h,
    fun s len idle => ⟨exec_genSeq_lenRange_iff idle len, exec_deriveKey_lenRange_iff idle len⟩, rfl, rfl⟩
  · obtain ⟨hs1, hs2, hk1, hk2⟩ := hs.depths
    constructor
    · intro h
      refine ⟨_, step_readControl .seqDepth h rfl, ?_⟩
      rw [setWidth_ofNat_toNat (by omega)]; exact ⟨rfl, hs1, hs2⟩
    · intro h
      refine ⟨_, step_readControl .keyDepth h rfl, ?_⟩
      rw [setWidth_ofNat_toNat (by omega)]; exact ⟨rfl, hk1, hk2⟩
  · rcases ho with rfl | rfl
    · exact step_writeReadOnly .seqDepth rfl h
    · exact step_writeReadOnly .keyDepth rfl h

/-- CTRL bit by bit (R24). -/
theorem ctrlWord_bits (s : State) (j : Nat) :
    s.ctrlWord.getLsbD j = if j = 0 then s.ctrl.ieDone else if j = 1 then s.ctrl.ieErr else false := by
  unfold State.ctrlWord
  simp only [BitVec.getLsbD_append]
  rcases j with _ | _ | j <;> simp

/-- What the engine computes does not depend on CTRL (R24). -/
theorem engineTurn_withCtrl (s : State) (c : Ctrl) :
    State.engineTurn { s with ctrl := c } = { s.engineTurn with ctrl := c } := by
  rcases s.engineTurn_cases with ⟨idle, e⟩ | ⟨run, op, e⟩ | ⟨run, op, e⟩ <;> rw [e]
  · exact State.engineTurn_idle idle
  · exact State.engineTurn_gen run op
  · exact State.engineTurn_key run op

/-- The step of a 4-byte write to CTRL: its two bits taken, answered OKAY (R24). -/
theorem step_writeCtrl {s : State} {rest : List Event} {data : BitVec 64} (h : s.agenda = .write 0x0000C .w4 data :: rest) :
    step s =
      .next { s with agenda := rest, resp := some (.write .okay), ctrl := ⟨data.getLsbD 0, data.getLsbD 1⟩ } := by
  rw [step_cons h, handle_write (by decide), State.memWrite, validRow_ctrl]
  rfl

/-- Settles O46. -/
theorem ctrlRegister : Obligations.CtrlRegister := by
  refine ⟨fun s rest data h => step_writeCtrl h, fun s rest h => ⟨_, step_readControl .ctrl h rfl, ?_⟩,
    fun s => by simp [State.irq], engineTurn_withCtrl, rfl⟩
  simp only [BitVec.getLsbD_setWidth, ctrlWord_bits]
  refine ⟨by simp, by simp, fun j hj => ?_⟩
  rw [if_neg (by omega), if_neg (by omega), Bool.and_false]

/-- ERR reads as code 0 exactly when there is no error (R211). -/
theorem ErrCode.code_eq_zero_iff (e : ErrCode) : e.code = 0#4 ↔ e = .noError := by cases e <;> decide

/-- STATUS[7:4] is ERR's code (R28). -/
theorem statusWord_err (s : State) : (s.statusWord.setWidth 64).extractLsb' 4 4 = s.status.err.code := by
  ext j hj
  have h₁ : ¬ 4 + j < 1 := by omega
  have h₂ : ¬ 4 + j < 2 := by omega
  simp [← BitVec.getLsbD_eq_getElem, statusWord_bits, h₁, h₂, hj, show 4 + j < 64 by omega, show 4 + j < 8 by omega]

/-- Settles O48. -/
theorem statusRegister : Obligations.StatusRegister := by
  refine ⟨fun s rest h => ⟨_, step_readControl .status h rfl, ?_⟩, rfl,
    fun s rest w data h => step_writeReadOnly .status rfl h⟩
  simp only [BitVec.getLsbD_setWidth, statusWord_bits, statusWord_err]
  refine ⟨by simp [State.busy], by simp, trivial, by simp, by simp, ?_, by simp, fun j hj => ?_⟩
  · simp [State.irq, ErrCode.code_eq_zero_iff]
  · rcases hj with rfl | rfl | hj
    · rfl
    · rfl
    · repeat rw [if_neg (by omega)]
      rw [Bool.and_false]

end Sys2Proof.Machine
end

section
/-! PROOFS. What decoded commands are (30_encoding.md R91 to R95), and what changes BUSY, ERR, NAN, CLAMP and PROG
(10_state.md R26, R28 to R30, R33). -/

namespace Sys2Proof

open Laws.EncodeOpcode (lengthOf opcodeOf)

theorem decodeNoLen_eq_ok_iff {word : Word} {i j : Instr} :
    decodeNoLen word i = .ok j ↔ word.toNat / 256 = 0 ∧ i = j := by
  rw [decodeNoLen, lenField_eq]; split <;> simp [*]

/-- A word that decodes holds its command's OPC and LEN, and nothing else (R91, R93). -/
theorem toNat_of_decodeWord {word : Word} {i : Instr} (h : decodeWord word = .ok i) :
    word.toNat = lengthOf i * 256 + opcodeOf i := by
  have hsplit := Nat.div_add_mod' word.toNat 256
  rw [decodeWord_eq] at h
  split at h
  · obtain ⟨hlen, rfl⟩ := decodeNoLen_eq_ok_iff.1 h
    simp only [lengthOf, opcodeOf]; omega
  split at h
  · cases h; simp only [lengthOf, opcodeOf]; omega
  split at h
  · cases h; simp only [lengthOf, opcodeOf]; omega
  split at h
  · obtain ⟨hlen, rfl⟩ := decodeNoLen_eq_ok_iff.1 h
    simp only [lengthOf, opcodeOf]; omega
  split at h
  · obtain ⟨hlen, rfl⟩ := decodeNoLen_eq_ok_iff.1 h
    simp only [lengthOf, opcodeOf]; omega
  · cases h

theorem wf_of_lengthOf {i : Instr} (h : lengthOf i < 2 ^ 24) : i.wf = true := by
  cases i with
  | nop | clrStatus | softReset => rfl
  | genSeq | deriveKey => exact decide_eq_true h

/-- A word that decodes decodes to a command that fits in a word (R91, R92). -/
theorem wf_of_decodeWord {word : Word} {i : Instr} (h : decodeWord word = .ok i) : i.wf = true := by
  have hword := toNat_of_decodeWord h
  have hlt := word.isLt
  exact wf_of_lengthOf (by omega)

end Sys2Proof

namespace Sys2Proof.Machine

/-- The step of a CMD write whose word decodes (R95). -/
theorem step_command {s : State} {rest : List Event} {data : BitVec 64} {i : Instr}
    (h : s.agenda = .write 0x00010 .w4 data :: rest) (dec : decodeWord (data.extractLsb' 0 32) = .ok i) :
    step s = withWriteResponse .okay (exec i { s with agenda := rest }) := by
  rw [step_cons h, handle_write (by decide), State.memWrite, validRow_cmd]
  simp only [State.writeRegion, acceptWord, dec]
  rfl

/-- Settles O5: the four bytes in arrival order are the word. -/
theorem stepRunsDecodedCommand : Obligations.StepRunsDecodedCommand := by
  intro s rest data i after h hdec
  have hword := decode_bytesOfWord (data.extractLsb' 0 32) []
  rw [List.append_nil, hdec] at hword
  cases dec : decodeWord (data.extractLsb' 0 32) with
  | error e => rw [dec] at hword; cases hword
  | ok j =>
    rw [dec] at hword
    cases hword
    exact ⟨wf_of_decodeWord dec, rfl, step_command h dec⟩

/-- Settles O54, by the kinds of a step's effect. -/
theorem progMovesByOneOrToZero : Obligations.ProgMovesByOneOrToZero := by
  intro s t h
  cases step_effect h with
  | genStep next run | keyStep next run => exact .inr (.inr ⟨rfl, s.busy_iff.2 run, next.agenda⟩)
  | hardReset => exact .inr (.inl rfl)
  | idleTurn | read => exact .inl rfl
  | write _ effect =>
    cases effect with
    | startGen | startKey | softReset => exact .inr (.inl rfl)
    | invalid | ctrl | param | paramBusy | cmdBusy | noCommand | nop | genTooLong | keyTooLong | clrStatus =>
      exact .inl rfl

/-- Settles O52, by the kinds of a step's effect. -/
theorem errChangesOnlyBy : Obligations.ErrChangesOnlyBy := by
  intro s t h hne
  cases step_effect h with
  | idleTurn | genStep | keyStep | read => exact absurd rfl hne
  | hardReset next => exact .inl ⟨rfl, _, next⟩
  | write next effect =>
    refine .inr ⟨_, _, _, _, next, ?_⟩
    cases effect with
    | ctrl | param | nop => exact absurd rfl hne
    | invalid => exact .inl ⟨rfl, rfl⟩
    | paramBusy run lo hi => exact .inr ⟨rfl, .inl ⟨rfl, s.busy_iff.2 run, .inr ⟨lo, hi⟩⟩⟩
    | cmdBusy run => exact .inr ⟨rfl, .inl ⟨rfl, s.busy_iff.2 run, .inl rfl⟩⟩
    | noCommand dec idle =>
      exact .inr ⟨rfl, .inr ⟨rfl, rfl, .inl ⟨rfl, s.busy_eq_false_iff.2 idle, _, dec⟩⟩⟩
    | genTooLong dec idle long =>
      exact .inr ⟨rfl, .inr ⟨rfl, rfl, .inr (.inl ⟨rfl, s.busy_eq_false_iff.2 idle, _, .inl ⟨dec, long⟩⟩)⟩⟩
    | keyTooLong dec idle long =>
      exact .inr ⟨rfl, .inr ⟨rfl, rfl, .inr (.inl ⟨rfl, s.busy_eq_false_iff.2 idle, _, .inr ⟨dec, long⟩⟩)⟩⟩
    | startGen dec | startKey dec | clrStatus dec | softReset dec =>
      exact .inr ⟨rfl, .inr ⟨rfl, rfl, .inr (.inr ⟨rfl, _, dec, nofun⟩)⟩⟩

/-- An accepted operation starts the engine unless its length is 0 (R133, R163). -/
theorem State.busy_beginOperation {s : State} (idle : s.eng.phase = .idle) (op : EngOp) (n size : Nat) :
    (s.beginOperation op n size).busy = decide (n ≠ 0) := by
  by_cases hn : n = 0 <;> simp [State.busy, hn, idle]

/-- The machine's next event is a CMD write that starts an operation of nonzero length (R26, R133, R163). -/
def State.StartsOperation (s : State) : Prop :=
  ∃ data rest i, s.agenda = .write 0x00010 .w4 data :: rest ∧ decodeWord (data.extractLsb' 0 32) = .ok i ∧
    ((∃ n, i = .genSeq n ∧ 1 ≤ n ∧ n ≤ s.seqDepth) ∨ (∃ size, i = .deriveKey size ∧ 1 ≤ size ∧ size ≤ s.keyDepth))

/-- An engine step keeps BUSY but when it makes the last element, and then it sets DONE (R135, R165). -/
theorem State.advanceEngine_busy (s : State) (v : F64) (clamped : Bool) :
    (s.advanceEngine v clamped).busy = s.busy ∨
    ((s.advanceEngine v clamped).busy = false ∧ s.prog + 1 = s.eng.n ∧ (s.advanceEngine v clamped).status.done = true) := by
  by_cases hlast : s.prog + 1 = s.eng.n
  · exact .inr ⟨by simp [State.busy, hlast], hlast, by simp [hlast]⟩
  · exact .inl (by simp [State.busy, hlast])

/-- What a step can do to BUSY (R26): keep it, start an operation, or end one in one of three ways. -/
theorem StepEffect.busy_cases {s t : State} (h : StepEffect s t) :
    t.busy = s.busy ∨ (s.busy = false ∧ s.StartsOperation) ∨
    (t.busy = false ∧
      ((t.prog = s.prog + 1 ∧ t.prog = s.eng.n ∧ t.status.done = true) ∨
       (∃ data rest, s.agenda = .write 0x00010 .w4 data :: rest ∧ data.toNat % 2 ^ 32 = 4) ∨
       (∃ rest, s.agenda = .hardReset :: rest))) := by
  cases h with
  | idleTurn | read => exact .inl rfl
  | genStep | keyStep =>
    rcases State.advanceEngine_busy _ _ _ with e | ⟨e, hlast, hdone⟩
    · exact .inl e
    · exact .inr (.inr ⟨e, .inl ⟨rfl, hlast, hdone⟩⟩)
  | hardReset next => exact .inr (.inr ⟨rfl, .inr (.inr ⟨_, next⟩)⟩)
  | @write _ _ data _ _ _ next effect =>
    cases effect with
    | invalid | ctrl | param | paramBusy | cmdBusy | noCommand | nop | genTooLong | keyTooLong | clrStatus => exact .inl rfl
    | @startGen _ n dec idle fits =>
      have hidle := s.busy_eq_false_iff.2 idle
      by_cases hn : n = 0
      · refine .inl ((State.busy_beginOperation idle .gen n 0).trans ?_)
        simp [hidle, hn]
      · exact .inr (.inl ⟨hidle, _, _, _, next, dec, .inl ⟨n, rfl, Nat.pos_of_ne_zero hn, fits⟩⟩)
    | @startKey _ size dec idle fits =>
      have hidle := s.busy_eq_false_iff.2 idle
      by_cases hn : size = 0
      · refine .inl ((State.busy_beginOperation idle .key (2 * size) size).trans ?_)
        simp [hidle, hn]
      · exact .inr (.inl ⟨hidle, _, _, _, next, dec, .inr ⟨size, rfl, Nat.pos_of_ne_zero hn, fits⟩⟩)
    | softReset dec =>
      have hword : (data.extractLsb' 0 32).toNat = 4 := toNat_of_decodeWord dec
      exact .inr (.inr ⟨rfl, .inr (.inl ⟨_, _, next, by simpa [BitVec.extractLsb'] using hword⟩)⟩)

/-- Settles O51. -/
theorem busyChangesOnlyBy : Obligations.BusyChangesOnlyBy := by
  intro s t h
  rcases (step_effect h).busy_cases with e | ⟨hs, start⟩ | ⟨ht, stop⟩
  · exact ⟨fun hs ht => by simp [e, hs] at ht, fun hs ht => by simp [e, hs] at ht⟩
  · exact ⟨fun _ _ => start, fun hs' => by simp [hs] at hs'⟩
  · exact ⟨fun _ ht' => by simp [ht] at ht', fun _ _ => stop⟩

/-- The machine's next event clears the sticky status (R29, R30): hardware reset, or a CMD write of a SOFT_RESET, of a
CLR_STATUS taken while idle, or of an accepted GEN_SEQ or DERIVE_KEY. -/
def State.ClearsStatus (s : State) : Prop :=
  (∃ rest, s.agenda = .hardReset :: rest) ∨
  ∃ data rest i, s.agenda = .write 0x00010 .w4 data :: rest ∧ decodeWord (data.extractLsb' 0 32) = .ok i ∧
    (i = .softReset ∨ (s.busy = false ∧ (i = .clrStatus ∨ (∃ n, i = .genSeq n ∧ n ≤ s.seqDepth) ∨
      ∃ size, i = .deriveKey size ∧ size ≤ s.keyDepth)))

/-- What a step can do to NAN and CLAMP (R29, R30, R137): keep both, note an element of the running operation, or clear
both. -/
theorem StepEffect.flag_cases {s t : State} (h : StepEffect s t) :
    (t.status.nan = s.status.nan ∧ t.status.clamp = s.status.clamp) ∨
    ((s.busy = true ∧ t.prog = s.prog + 1 ∧ (s.agenda = [] ∨ ∃ rest, s.agenda = .engineTurn :: rest)) ∧
      t.status.nan = (s.status.nan || isNaN (s.eng.elem s.prog).1) ∧
      t.status.clamp = (s.status.clamp || (s.eng.elem s.prog).2)) ∨
    ((t.status.err = .noError ∧ t.status.nan = false ∧ t.status.clamp = false ∧ (t.status.done = true → t.eng.n = 0)) ∧
      s.ClearsStatus) := by
  cases h with
  | idleTurn | read => exact .inl ⟨rfl, rfl⟩
  | genStep next run | keyStep next run => exact .inr (.inl ⟨⟨s.busy_iff.2 run, rfl, next.agenda⟩, rfl, rfl⟩)
  | hardReset next => exact .inr (.inr ⟨⟨rfl, rfl, rfl, nofun⟩, .inl ⟨_, next⟩⟩)
  | write next effect =>
    cases effect with
    | invalid | ctrl | param | paramBusy | cmdBusy | noCommand | nop | genTooLong | keyTooLong => exact .inl ⟨rfl, rfl⟩
    | softReset dec => exact .inr (.inr ⟨⟨rfl, rfl, rfl, nofun⟩, .inr ⟨_, _, _, next, dec, .inl rfl⟩⟩)
    | clrStatus dec idle =>
      exact .inr (.inr ⟨⟨rfl, rfl, rfl, nofun⟩,
        .inr ⟨_, _, _, next, dec, .inr ⟨s.busy_eq_false_iff.2 idle, .inl rfl⟩⟩⟩)
    | startGen dec idle fits =>
      exact .inr (.inr ⟨⟨rfl, rfl, rfl, of_decide_eq_true⟩,
        .inr ⟨_, _, _, next, dec, .inr ⟨s.busy_eq_false_iff.2 idle, .inr (.inl ⟨_, rfl, fits⟩)⟩⟩⟩)
    | startKey dec idle fits =>
      exact .inr (.inr ⟨⟨rfl, rfl, rfl, of_decide_eq_true⟩,
        .inr ⟨_, _, _, next, dec, .inr ⟨s.busy_eq_false_iff.2 idle, .inr (.inr ⟨_, rfl, fits⟩)⟩⟩⟩)

/-- Settles O53. -/
theorem numericFlagsChangeOnlyBy : Obligations.NumericFlagsChangeOnlyBy := by
  intro s t h
  rcases (step_effect h).flag_cases with ⟨hnan, hclamp⟩ | ⟨⟨hb, hp, ha⟩, hnan, hclamp⟩ |
    ⟨⟨herr, hnan, hclamp, hdone⟩, event⟩
  · rw [hnan, hclamp]
    exact ⟨by simp +contextual, by simp +contextual, by simp +contextual⟩
  · refine ⟨fun hs ht => ⟨hb, hp, ha, (isNaN_iff _).1 (by simpa [hnan, hs] using ht)⟩,
      fun hs ht => ⟨hb, hp, ha, by simpa [hclamp, hs] using ht⟩, ?_⟩
    rw [hnan, hclamp]
    simp +contextual
  · exact ⟨fun _ ht => by simp [hnan] at ht, fun _ ht => by simp [hclamp] at ht, fun _ => ⟨⟨herr, hnan, hclamp, hdone⟩, event⟩⟩

end Sys2Proof.Machine
end

section
/-! PROOFS. Which accesses are valid: the window's map against the access table (20_memory.md R63, R66, R69). -/

namespace Sys2Proof.Machine

/-- The accesses of one 64-bit entry at `base`: whole, the low half, the high half (R63). -/
def EntryAccess (base off : Nat) (w : Width) : Prop :=
  (w = .w8 ∧ off = base) ∨ (w = .w4 ∧ (off = base ∨ off = base + 4))

theorem entryAccess_of_aligned {base off : Nat} {w : Width} (hbase : base % 8 = 0) (lo : base ≤ off) (hi : off < base + 8)
    (h : (w = .w8 ∧ off % 8 = 0) ∨ (w = .w4 ∧ off % 4 = 0)) : EntryAccess base off w := by
  rcases h with ⟨hw, h8⟩ | ⟨hw, h4⟩
  · exact .inl ⟨hw, by omega⟩
  · exact .inr ⟨hw, by omega⟩

theorem EntryAccess.aligned {base off : Nat} {w : Width} (hbase : base % 8 = 0) (h : EntryAccess base off w) :
    off % w.bytes = 0 := by
  rcases h with ⟨rfl, rfl⟩ | ⟨rfl, rfl | rfl⟩ <;> simp only [Width.bytes] <;> omega

theorem EntryAccess.bounds {base off : Nat} {w : Width} (h : EntryAccess base off w) : base ≤ off ∧ off < base + 8 := by
  rcases h with ⟨-, rfl⟩ | ⟨-, rfl | rfl⟩ <;> omega

/-- The map's rows, by kind: the 32-bit control registers, the parameter registers, the buffers (R20, R38, R39). -/
theorem memoryMap_cases {sd kd : Nat} {row : MapRow} (h : row ∈ memoryMap sd kd) :
    (∃ off reg, ControlReg off reg ∧ row = ⟨off, 4, reg⟩) ∨ (∃ which : ParamReg, row = which.row) ∨
    row = ⟨seqBufBase, 8 * sd, .seqBuf⟩ ∨ row = ⟨keyBufBase, kd, .keyBuf⟩ := by
  simp only [memoryMap, List.mem_cons, List.not_mem_nil, or_false] at h
  rcases h with rfl | rfl | rfl | rfl | rfl | rfl | rfl | rfl | rfl | rfl | rfl | rfl | rfl
  · exact .inl ⟨_, _, .id, rfl⟩
  · exact .inl ⟨_, _, .seqDepth, rfl⟩
  · exact .inl ⟨_, _, .keyDepth, rfl⟩
  · exact .inl ⟨_, _, .ctrl, rfl⟩
  · exact .inl ⟨_, _, .cmd, rfl⟩
  · exact .inl ⟨_, _, .status, rfl⟩
  · exact .inl ⟨_, _, .prog, rfl⟩
  · exact .inr (.inl ⟨.r, rfl⟩)
  · exact .inr (.inl ⟨.x0, rfl⟩)
  · exact .inr (.inl ⟨.p, rfl⟩)
  · exact .inr (.inl ⟨.q, rfl⟩)
  · exact .inr (.inr (.inl rfl))
  · exact .inr (.inr (.inr rfl))

theorem ParamReg.row_aligned (which : ParamReg) : which.row.base % 8 = 0 := by cases which <;> rfl

theorem ParamReg.row_size (which : ParamReg) : which.row.size = 8 := by cases which <;> rfl

theorem ParamReg.exists_base_iff {base : Nat} :
    (∃ which : ParamReg, base = which.row.base) ↔
      base = 0x00020 ∨ base = 0x00028 ∨ base = 0x00030 ∨ base = 0x00038 := by
  constructor
  · rintro ⟨which, rfl⟩; cases which <;> decide
  · rintro (rfl | rfl | rfl | rfl)
    exacts [⟨.r, rfl⟩, ⟨.x0, rfl⟩, ⟨.p, rfl⟩, ⟨.q, rfl⟩]

theorem MapRow.allows_controlReg {base off : Nat} {reg : Region} {w : Width} (hr : ControlReg base reg) :
    MapRow.allows ⟨base, 4, reg⟩ off w = true ↔ w = .w4 ∧ off = base := by
  cases hr <;> simp [MapRow.allows]

theorem MapRow.allows_param {which : ParamReg} {off : Nat} {w : Width} :
    which.row.allows off w = true ↔ (w = .w8 ∧ off % 8 = 0) ∨ (w = .w4 ∧ off % 4 = 0) := by
  cases which <;> simp [MapRow.allows, ParamReg.row]

/-- Any access of a parameter register's entry falls in its row, in either direction (R63). -/
theorem validRow_paramEntry {which : ParamReg} {off : Nat} {w : Width} (h : EntryAccess which.row.base off w)
    (sd kd : Nat) (dir : Dir) : validRow sd kd off w dir = some which.row := by
  obtain ⟨h8, hlow, hhigh⟩ := validRow_param sd kd which dir
  rcases h with ⟨rfl, rfl⟩ | ⟨rfl, rfl | rfl⟩
  · exact h8
  · exact hlow
  · exact hhigh

/-- Any read of a SEQ_BUF entry below the depth falls in SEQ_BUF's row (R63, R38). -/
theorem validRow_seqEntry {sd k off : Nat} {w : Width} (hsd : sd ≤ 8192) (hk : k < sd)
    (h : EntryAccess (seqAddr k) off w) (kd : Nat) :
    validRow sd kd off w .read = some ⟨seqBufBase, 8 * sd, .seqBuf⟩ := by
  rw [validRow_some_iff hsd]
  have haddr : seqAddr k = 0x10000 + 8 * k := rfl
  obtain ⟨lo, hi⟩ := h.bounds
  have hwidth : (w = .w8 ∧ off % 8 = 0) ∨ (w = .w4 ∧ off % 4 = 0) :=
    h.imp (fun h => ⟨h.1, by omega⟩) (fun h => ⟨h.1, by omega⟩)
  exact ⟨by simp [memoryMap], by simp only [seqBufBase]; omega, by simp only [seqBufBase]; omega,
    by simpa [MapRow.allows] using hwidth, .inl rfl⟩

/-- An aligned read that ends within KEY_BUF falls in KEY_BUF's row (R63, R39). -/
theorem validRow_keyBytes {sd kd k : Nat} {w : Width} (hsd : sd ≤ 8192) (aligned : k % w.bytes = 0)
    (fits : k + w.bytes ≤ kd) : validRow sd kd (keyAddr k) w .read = some ⟨keyBufBase, kd, .keyBuf⟩ := by
  have hw : 0 < w.bytes := by cases w <;> decide
  have hbase : keyBufBase % w.bytes = 0 := by cases w <;> rfl
  rw [validRow_some_iff hsd]
  refine ⟨by simp [memoryMap], Nat.le_add_right _ _, by simp only [keyAddr]; omega, ?_, .inl rfl⟩
  simp [MapRow.allows, keyAddr, Nat.add_mod, aligned, hbase, fits]

/-- What the map allows, the access table allows (R63). -/
theorem validAccess_of_validRow {sd kd off : Nat} {w : Width} {dir : Dir} {row : MapRow} (hsd : sd ≤ 8192)
    (h : validRow sd kd off w dir = some row) : Spec.ValidAccess sd kd off w dir := by
  obtain ⟨hmem, lo, hi, hallow, hdir⟩ := (validRow_some_iff hsd).1 h
  rcases memoryMap_cases hmem with ⟨base, reg, hr, rfl⟩ | ⟨which, rfl⟩ | rfl | rfl
  · obtain ⟨hw, hoff⟩ := (MapRow.allows_controlReg hr).1 hallow
    cases hr with
    | ctrl | cmd => exact .inr (.inl ⟨hw, by omega⟩)
    | id | seqDepth | keyDepth | status | prog => exact .inl ⟨by simpa [Region.writable] using hdir, hw, by omega⟩
  · rw [which.row_size] at hi
    exact .inr (.inr (.inl ⟨_, ParamReg.exists_base_iff.1 ⟨which, rfl⟩,
      entryAccess_of_aligned which.row_aligned lo hi (MapRow.allows_param.1 hallow)⟩))
  · have hread : dir = .read := by simpa [Region.writable] using hdir
    simp only [seqBufBase] at lo hi
    refine .inr (.inr (.inr (.inl ⟨hread, (off - 0x10000) / 8, by omega, ?_⟩)))
    exact entryAccess_of_aligned (by omega) (by omega) (by omega) (by simpa [MapRow.allows] using hallow)
  · have hread : dir = .read := by simpa [Region.writable] using hdir
    obtain ⟨haligned, hfits⟩ : off % w.bytes = 0 ∧ off - keyBufBase + w.bytes ≤ kd := by
      simpa [MapRow.allows] using hallow
    exact .inr (.inr (.inr (.inr ⟨hread, lo, haligned, hfits⟩)))

/-- What the access table allows, the map allows (R63). -/
theorem validRow_of_validAccess {sd kd off : Nat} {w : Width} {dir : Dir} (hsd : sd ≤ 8192)
    (h : Spec.ValidAccess sd kd off w dir) : ∃ row, validRow sd kd off w dir = some row := by
  rcases h with ⟨rfl, rfl, hoff⟩ | ⟨rfl, hoff⟩ | ⟨base, hbase, hentry⟩ | ⟨rfl, k, hk, hentry⟩ |
    ⟨rfl, lo, haligned, hfits⟩
  · rcases hoff with rfl | rfl | rfl | rfl | rfl
    exacts [⟨_, validRow_controlReg .id _ _⟩, ⟨_, validRow_controlReg .seqDepth _ _⟩,
      ⟨_, validRow_controlReg .keyDepth _ _⟩, ⟨_, validRow_controlReg .status _ _⟩, ⟨_, validRow_controlReg .prog _ _⟩]
  · rcases hoff with rfl | rfl
    exacts [⟨_, validRow_ctrl _ _ _⟩, ⟨_, validRow_cmd _ _ _⟩]
  · obtain ⟨which, rfl⟩ := ParamReg.exists_base_iff.2 hbase
    exact ⟨_, validRow_paramEntry hentry _ _ _⟩
  · exact ⟨_, validRow_seqEntry hsd hk hentry _⟩
  · obtain ⟨k, rfl⟩ := Nat.exists_eq_add_of_le lo
    have hk : k % w.bytes = 0 := by cases w <;> simp only [Width.bytes] at haligned ⊢ <;> omega
    exact ⟨_, validRow_keyBytes hsd hk (by omega)⟩

/-- Every access of the table is naturally aligned (R66). -/
theorem validAccess_aligned {sd kd off : Nat} {w : Width} {dir : Dir} (h : Spec.ValidAccess sd kd off w dir) :
    off % w.bytes = 0 := by
  rcases h with ⟨-, rfl, hoff⟩ | ⟨rfl, hoff⟩ | ⟨base, hbase, hentry⟩ | ⟨-, k, -, hentry⟩ | ⟨-, -, haligned, -⟩
  · simp only [Width.bytes]; omega
  · simp only [Width.bytes]; omega
  · exact EntryAccess.aligned (by omega) hentry
  · exact EntryAccess.aligned (by omega) hentry
  · exact haligned

/-- Every access of the table begins at a register, or in a buffer below its depth (R69). -/
theorem validAccess_bounds {sd kd off : Nat} {w : Width} {dir : Dir} (h : Spec.ValidAccess sd kd off w dir) :
    off < 0x0001C ∨ (0x00020 ≤ off ∧ off < 0x00040) ∨ (0x10000 ≤ off ∧ off < 0x10000 + 8 * sd) ∨
      (0x20000 ≤ off ∧ off < 0x20000 + kd) := by
  rcases h with ⟨-, -, hoff⟩ | ⟨-, hoff⟩ | ⟨base, hbase, hentry⟩ | ⟨-, k, hk, hentry⟩ | ⟨-, lo, -, hfits⟩
  · omega
  · omega
  · have hb := EntryAccess.bounds hentry; omega
  · have hb := EntryAccess.bounds hentry; omega
  · have hw : 0 < w.bytes := by cases w <;> decide
    omega

/-- Settles O37. -/
theorem accessTable : Obligations.AccessTable := by
  intro sd kd off w dir hsd _
  refine ⟨⟨fun ⟨row, h⟩ => validAccess_of_validRow hsd h, validRow_of_validAccess hsd⟩, validAccess_aligned,
    fun hreserved h => ?_⟩
  have hb := validAccess_bounds h
  omega

end Sys2Proof.Machine
end

section
/-! PROOFS. What the port answers, and the accesses at which the model stops (20_memory.md R60, R67, R68). -/

namespace Sys2Proof.Machine

/-- The answer to a read: a function of the depths, the registers and the buffers (R67, R68). -/
def State.readAnswer (s : State) (off : Nat) (w : Width) : Response :=
  (validRow s.seqDepth s.keyDepth off w .read).elim (.read .error 0#64) (fun row => .read .okay (s.readData row off w))

theorem State.memRead_eq (s : State) (off : Nat) (w : Width) :
    s.memRead off w = { s with resp := some (s.readAnswer off w) } := by
  cases h : validRow s.seqDepth s.keyDepth off w .read with
  | none => simp only [State.memRead, State.readAnswer, h]; rfl
  | some row => simp only [State.memRead, State.readAnswer, h]; rfl

/-- The events to come and the latest answer have no part in an answer (R68). -/
theorem State.readAnswer_reframe (s : State) (agenda : List Event) (resp : Option Response) (off : Nat) (w : Width) :
    State.readAnswer { s with agenda := agenda, resp := resp } off w = s.readAnswer off w := rfl

/-- The step of any read of the window (R67, R68). -/
theorem step_read {s : State} {rest : List Event} {off : Nat} {w : Width} (h : s.agenda = .read off w :: rest)
    (hoff : off < 0x30000) : step s = .next { s with agenda := rest, resp := some (s.readAnswer off w) } := by
  rw [step_cons h, handle_read hoff, State.memRead_eq]; rfl

/-- Settles O40. -/
theorem readsHaveNoSideEffect : Obligations.ReadsHaveNoSideEffect := by
  intro s rest off w h hoff
  refine ⟨_, step_read h hoff, fun s' rest' h' same => ?_⟩
  have hanswer : s'.readAnswer off w = s.readAnswer off w := by
    rw [← s'.readAnswer_reframe [] none, same, State.readAnswer_reframe]
  rw [step_read h' hoff, hanswer]

/-- With legal depths every valid access lies in the window (R60, R63). -/
theorem validRow_inWindow {sd kd off : Nat} {w : Width} {dir : Dir} {row : MapRow} (hsd : sd ≤ 8192) (hkd : kd ≤ 65536)
    (h : validRow sd kd off w dir = some row) : off < 0x30000 := by
  have hb := validAccess_bounds (validAccess_of_validRow hsd h)
  omega

/-- The step of a valid read (R67). -/
theorem step_validRead {s : State} {rest : List Event} {off : Nat} {w : Width} {row : MapRow}
    (h : s.agenda = .read off w :: rest) (hsd : s.seqDepth ≤ 8192) (hkd : s.keyDepth ≤ 65536)
    (hrow : validRow s.seqDepth s.keyDepth off w .read = some row) :
    step s = .next { s with agenda := rest, resp := some (.read .okay (s.readData row off w)) } := by
  rw [step_read h (validRow_inWindow hsd hkd hrow), State.readAnswer, hrow]; rfl

/-- The step of a valid write is answered OKAY: none of its effects is an error response (R67, R95). -/
theorem step_validWrite {s : State} {rest : List Event} {off : Nat} {w : Width} {data : BitVec 64} {row : MapRow}
    (h : s.agenda = .write off w data :: rest) (hoff : off < 0x30000)
    (hrow : validRow s.seqDepth s.keyDepth off w .write = some row) :
    ∃ t, step s = .next t ∧ t.resp = some (.write .okay) := by
  obtain ⟨t, ht⟩ := memWrite_next (s.withAgenda rest) off w data
  refine ⟨t, by rw [step_cons h, handle_write hoff, ht], ?_⟩
  rcases memWrite_cases ht with ⟨hnone, -⟩ | ⟨-, -, rfl⟩ | ⟨-, -, ⟨_, -, rfl⟩ | ⟨_, -, rfl⟩⟩ | ⟨_, -, -, rfl⟩
  · exact absurd (hrow.symm.trans hnone) nofun
  all_goals rfl

/-- Settles O39. -/
theorem validAccessOkay : Obligations.ValidAccessOkay := by
  intro s rest off w hsd hkd
  refine ⟨fun h hvalid => ?_, fun data h hvalid => ?_⟩ <;> obtain ⟨row, hrow⟩ := validRow_of_validAccess hsd hvalid
  · exact ⟨_, step_validRead h hsd hkd hrow⟩
  · exact step_validWrite h (validRow_inWindow hsd hkd hrow) hrow

/-- The events at which the model stops: host accesses outside the window (R60, log 9). -/
theorem Event.not_inWindow_iff {ev : Event} :
    ¬ ev.inWindow ↔ ∃ off, 0x30000 ≤ off ∧ ((∃ w, ev = .read off w) ∨ ∃ w data, ev = .write off w data) := by
  cases ev with
  | read off w | write off w data => simp [Event.inWindow]
  | engineTurn | hardReset => simp [Event.inWindow]

/-- An event has a next state exactly when it is no access outside the window. -/
theorem handle_next_iff {ev : Event} {s : State} : (∃ t, State.handle ev s = .next t) ↔ ev.inWindow := by
  refine ⟨fun ⟨t, ht⟩ => ?_, fun h => handle_next h s⟩
  by_contra hout
  obtain ⟨off, hoff, ⟨w, rfl⟩ | ⟨w, data, rfl⟩⟩ := Event.not_inWindow_iff.1 hout
  · rw [handle_read_outside hoff] at ht; cases ht
  · rw [handle_write_outside hoff] at ht; cases ht

/-- A step has a next state exactly when the next event is no access outside the window. -/
theorem step_next_iff {s : State} : (∃ t, step s = .next t) ↔ ∀ ev ∈ s.agenda.head?, ev.inWindow := by
  cases h : s.agenda with
  | nil => exact ⟨fun _ => nofun, fun _ => ⟨_, step_nil h⟩⟩
  | cons ev rest => rw [step_cons h, handle_next_iff]; simp

/-- Settles O41. -/
theorem onlyOutsideWindowStops : Obligations.OnlyOutsideWindowStops := by
  intro s
  rw [← not_exists, step_next_iff]
  cases h : s.agenda with
  | nil => simp
  | cons ev rest =>
    simp only [List.head?_cons, Option.mem_some_iff, forall_eq', Event.not_inWindow_iff]
    constructor
    · rintro ⟨off, hoff, ⟨w, rfl⟩ | ⟨w, data, rfl⟩⟩
      exacts [⟨off, rest, hoff, .inl ⟨w, rfl⟩⟩, ⟨off, rest, hoff, .inr ⟨w, data, rfl⟩⟩]
    · rintro ⟨off, _, hoff, ⟨w, ⟨⟩⟩ | ⟨w, data, ⟨⟩⟩⟩
      exacts [⟨off, hoff, .inl ⟨w, rfl⟩⟩, ⟨off, hoff, .inr ⟨w, data, rfl⟩⟩]

end Sys2Proof.Machine
end

section
/-! PROOFS. The parameter registers and the buffers as the host reads them (10_state.md R34 to R39; 20_memory.md R64). -/

namespace Sys2Proof.Machine

theorem toNat_leValue {bs : List Byte} (hbs : bs.length ≤ 8) : (leValue bs).toNat = leNat bs := by
  have hlt := leNat_lt bs
  have hpow : 2 ^ (8 * bs.length) ≤ 2 ^ 64 := Nat.pow_le_pow_right (by decide) (by omega)
  rw [leValue, BitVec.toNat_ofNat, Nat.mod_eq_of_lt (by omega)]

/-- Byte `j` of an assembled value is the `j`-th byte it was assembled from (R64). -/
theorem byteOf_leValue {bs : List Byte} (hbs : bs.length ≤ 8) {j : Nat} (hj : j < bs.length) :
    byteOf (leValue bs) j = bs[j] := by
  rw [← leNat_byte bs j hj]
  apply BitVec.eq_of_toNat_eq
  rw [byteOf_toNat, toNat_leValue hbs, BitVec.toNat_ofNat]

/-- The bytes of a half of a value, from byte `h`, are the value's from byte `h` on (R64). -/
theorem byteOf_half (v : BitVec 64) (h : Nat) {j : Nat} (hj : j < 4) :
    byteOf ((v.extractLsb' (8 * h) 32).setWidth 64) j = byteOf v (h + j) := by
  ext i hi
  simp only [byteOf, BitVec.getElem_extractLsb', BitVec.getLsbD_setWidth, BitVec.getLsbD_extractLsb']
  rw [show 8 * h + (8 * j + i) = 8 * (h + j) + i by omega, decide_eq_true (show 8 * j + i < 64 by omega),
    decide_eq_true (show 8 * j + i < 32 by omega), Bool.true_and, Bool.true_and]

/-- The host can read the 64-bit value `v` at `base`, whole and by halves (R63, R64): one row of the map answers all three
accesses, and its bytes there are the value's. -/
def State.ReadsEntry (s : State) (base : Nat) (v : F64) : Prop :=
  ∃ row, (∀ off w, EntryAccess base off w → validRow s.seqDepth s.keyDepth off w .read = some row) ∧
    ∀ j < 8, s.rowByte row (base + j) = byteOf v j

theorem State.readsEntry_param (s : State) (which : ParamReg) :
    s.ReadsEntry which.row.base (s.params.get which) := by
  refine ⟨which.row, fun off w h => validRow_paramEntry h _ _ _, fun j _ => ?_⟩
  cases which <;> simp [State.rowByte, ParamReg.row, State.regValue]

theorem State.readsEntry_seq {s : State} (hsd : s.seqDepth ≤ 8192) {k : Nat} (hk : k < s.seqDepth) :
    s.ReadsEntry (seqAddr k) (s.seqEntry k) :=
  ⟨_, fun _ _ h => validRow_seqEntry hsd hk h _, fun j hj => (byteOf_seqEntry s k j hj).symm⟩

/-- A read of an entry whose bytes within it are those of `d` answers `d`'s bytes. -/
theorem State.readData_congr {s : State} {row : MapRow} {off : Nat} {w : Width} {d : BitVec 64}
    (h : ∀ j < w.bytes, s.rowByte row (off + j) = byteOf d j) : s.readData row off w = leValue (bytesOf d w.bytes) := by
  rw [State.readData, bytesOf, List.map_congr_left fun j hj => h j (List.mem_range.1 hj)]

/-- The three reads of an entry: whole, low half, high half (R64). -/
theorem step_readEntry {s : State} {rest : List Event} {base : Nat} {v : F64} (hsd : s.seqDepth ≤ 8192)
    (hkd : s.keyDepth ≤ 65536) (hv : s.ReadsEntry base v) :
    (s.agenda = .read base .w8 :: rest → step s = .next { s with agenda := rest, resp := some (.read .okay v) }) ∧
    (s.agenda = .read base .w4 :: rest →
      step s = .next { s with agenda := rest, resp := some (.read .okay ((v.extractLsb' 0 32).setWidth 64)) }) ∧
    (s.agenda = .read (base + 4) .w4 :: rest →
      step s = .next { s with agenda := rest, resp := some (.read .okay ((v.extractLsb' 32 32).setWidth 64)) }) := by
  obtain ⟨row, hrow, hbyte⟩ := hv
  have half {off : Nat} (h : Nat) (hoff : off = base + h) (hh : h ≤ 4) :
      s.readData row off .w4 = (v.extractLsb' (8 * h) 32).setWidth 64 := by
    rw [← leValue_bytesOf_word]
    refine State.readData_congr fun j (hj : j < 4) => ?_
    rw [byteOf_half v h hj, ← hbyte (h + j) (by omega), hoff, Nat.add_assoc]
  refine ⟨fun h => ?_, fun h => ?_, fun h => ?_⟩
  · rw [step_validRead h hsd hkd (hrow _ _ (.inl ⟨rfl, rfl⟩)), State.readData_congr (w := .w8) hbyte, Width.bytes,
      leValue_bytesOf]
  · rw [step_validRead h hsd hkd (hrow _ _ (.inr ⟨rfl, .inl rfl⟩)), half 0 (Nat.add_zero base).symm (by decide)]
  · rw [step_validRead h hsd hkd (hrow _ _ (.inr ⟨rfl, .inr rfl⟩)), half 4 rfl (le_refl 4)]

/-- A read of KEY_BUF bytes: each in its place, zeros above (R39, R64). -/
theorem step_readKey {s : State} {rest : List Event} {k : Nat} {w : Width} (hsd : s.seqDepth ≤ 8192)
    (hkd : s.keyDepth ≤ 65536) (h : s.agenda = .read (keyAddr k) w :: rest) (aligned : k % w.bytes = 0)
    (fits : k + w.bytes ≤ s.keyDepth) :
    ∃ data : BitVec 64, step s = .next { s with agenda := rest, resp := some (.read .okay data) } ∧
      (∀ j < w.bytes, byteOf data j = s.keyByteAt (k + j)) ∧ data.toNat < 2 ^ (8 * w.bytes) := by
  refine ⟨_, step_validRead h hsd hkd (validRow_keyBytes hsd aligned fits), ?_⟩
  have hw : w.bytes ≤ 8 := by cases w <;> decide
  rw [State.readData]
  constructor
  · intro j hj
    rw [byteOf_leValue (by simpa using hw) (by simpa using hj)]
    simp [State.rowByte, State.keyByteAt, keyAddr, Nat.add_assoc]
  · rw [toNat_leValue (by simpa using hw)]
    simpa using leNat_lt ((List.range w.bytes).map fun j => s.rowByte ⟨keyBufBase, s.keyDepth, .keyBuf⟩ (keyAddr k + j))

/-- Settles O42. -/
theorem readsAreLittleEndian : Obligations.ReadsAreLittleEndian := by
  intro s rest hsd hkd
  refine ⟨fun base v hv => step_readEntry hsd hkd ?_, fun k w h aligned fits => step_readKey hsd hkd h aligned fits⟩
  rcases hv with hv | ⟨k, hk, rfl, rfl⟩
  · simp only [List.mem_cons, List.not_mem_nil, or_false, Prod.mk.injEq] at hv
    rcases hv with ⟨rfl, rfl⟩ | ⟨rfl, rfl⟩ | ⟨rfl, rfl⟩ | ⟨rfl, rfl⟩
    exacts [s.readsEntry_param .r, s.readsEntry_param .x0, s.readsEntry_param .p, s.readsEntry_param .q]
  · exact State.readsEntry_seq hsd hk

end Sys2Proof.Machine
end

section
/-! PROOFS. Writes to the parameter registers (10_state.md R34 to R37; 20_memory.md R65; 60_exceptions.md R214). -/

namespace Sys2Proof.Machine

theorem Params.get_set_same (ps : Params) (which : ParamReg) (v : F64) : (ps.set which v).get which = v := by
  cases which <;> rfl

theorem Params.get_set_other (ps : Params) {which other : ParamReg} (v : F64) (h : other ≠ which) :
    (ps.set which v).get other = ps.get other := by
  cases which <;> cases other <;> try rfl
  all_goals exact absurd rfl h

/-- The step of a write within a parameter register's entry, before the engine is asked (R65). -/
theorem step_writeEntry {s : State} {rest : List Event} {off : Nat} {w : Width} {data : BitVec 64} {which : ParamReg}
    (h : s.agenda = .write off w data :: rest) (hoff : EntryAccess which.row.base off w) :
    step s =
      .next (((s.withAgenda rest).writeParam which (off - which.row.base) w data).respondWrite .okay) := by
  have hb := which.row_bounds
  have hlt := hoff.bounds
  rw [step_cons h, handle_write (by omega), State.memWrite, validRow_paramEntry hoff]
  simp only [writeRegion_param, withWriteResponse]

/-- While idle the written part is replaced (R65). -/
theorem step_writeParam_idle {s : State} {rest : List Event} {off : Nat} {w : Width} {data : BitVec 64} {which : ParamReg}
    (idle : s.eng.phase = .idle) (h : s.agenda = .write off w data :: rest) (hoff : EntryAccess which.row.base off w) :
    step s = .next { s with
      agenda := rest
      resp := some (.write .okay)
      params := s.params.set which (mergeWrite (s.params.get which) (off - which.row.base) w data) } := by
  rw [step_writeEntry h hoff, State.writeParam, State.whenIdle_idle (s := s.withAgenda rest) idle]; rfl

/-- While busy the write is dropped with BUSY_WRITE (R214). -/
theorem step_writeParam_busy {s : State} {rest : List Event} {off : Nat} {w : Width} {data : BitVec 64} {which : ParamReg}
    (run : s.eng.phase = .run) (h : s.agenda = .write off w data :: rest) (hoff : EntryAccess which.row.base off w) :
    step s = .next { Spec.raise .busyWrite { s with agenda := rest } with resp := some (.write .okay) } := by
  rw [step_writeEntry h hoff, State.writeParam, State.whenIdle_busy (s := s.withAgenda rest) run]; rfl

/-- Settles O43. -/
theorem paramWrites : Obligations.ParamWrites := by
  intro s rest data which base hbase
  obtain rfl : base = which.row.base := by
    simp only [List.mem_cons, List.not_mem_nil, or_false, Prod.mk.injEq] at hbase
    rcases hbase with ⟨rfl, rfl⟩ | ⟨rfl, rfl⟩ | ⟨rfl, rfl⟩ | ⟨rfl, rfl⟩ <;> rfl
  have whole : EntryAccess which.row.base which.row.base .w8 := .inl ⟨rfl, rfl⟩
  have low : EntryAccess which.row.base which.row.base .w4 := .inr ⟨rfl, .inl rfl⟩
  have high : EntryAccess which.row.base (which.row.base + 4) .w4 := .inr ⟨rfl, .inr rfl⟩
  refine ⟨fun idle h => ?_, fun idle h => ?_, fun idle h => ?_, fun run h => ?_,
    fun v => ⟨s.params.get_set_same which v, fun other hne => s.params.get_set_other v hne⟩⟩
  · rw [step_writeParam_idle idle h whole]; rfl
  · rw [step_writeParam_idle idle h low]; simp [mergeWrite]
  · rw [step_writeParam_idle idle h high]; simp [mergeWrite]
  · rcases h with h | h | h
    exacts [step_writeParam_busy run h whole, step_writeParam_busy run h low, step_writeParam_busy run h high]

end Sys2Proof.Machine
end

section
/-! PROOFS. Which events leave the buffers alone (20_memory.md R70; 42_control_commands.md R193), and that every operation
ends (20_memory.md R74; 70_reset_and_hazards.md R250). -/

namespace Sys2Proof.Machine

/-- No write but a SOFT_RESET that abandons an operation touches the buffers (R70, R193). -/
theorem WriteEffect.keeps_buffers {s u : State} {off : Nat} {w : Width} {data : BitVec 64} {resp : Resp}
    (h : WriteEffect s off w data resp u)
    (hkeep : s.eng.phase = .idle ∨ ¬ (off = 0x00010 ∧ w = .w4 ∧ decodeWord (data.extractLsb' 0 32) = .ok .softReset)) :
    u.mem = s.mem ∧ u.bufEpoch = s.bufEpoch := by
  cases h with
  | softReset dec =>
    have idle := hkeep.resolve_right (not_not_intro ⟨rfl, rfl, dec⟩)
    exact ⟨State.settleBuffers_idle idle, rfl⟩
  | invalid | ctrl | param | paramBusy | cmdBusy | noCommand | nop | genTooLong | startGen | keyTooLong | startKey
  | clrStatus => exact ⟨rfl, rfl⟩

/-- A buffer byte is of the buffers and the latest reset's draw alone (R38, R39). -/
theorem State.bufByte_congr {s t : State} (h : t.mem = s.mem ∧ t.bufEpoch = s.bufEpoch) (off : Nat) :
    t.bufByte off = s.bufByte off := by
  rw [State.bufByte, State.bufByte, h.1, h.2]

/-- Settles O50, by the kinds of a step's effect. -/
theorem buffersWrittenByEngineOnly : Obligations.BuffersWrittenByEngineOnly := by
  intro s t ev rest hag h hturn hreset hkeep
  refine State.bufByte_congr ?_
  cases step_effect h with
  | idleTurn next | genStep next | keyStep next =>
    rcases next.agenda with e | ⟨_, e⟩
    · exact absurd (hag.symm.trans e) nofun
    · exact absurd (List.cons.inj (hag.symm.trans e)).1 hturn
  | hardReset next => exact absurd (List.cons.inj (hag.symm.trans next)).1 hreset
  | read => exact ⟨rfl, rfl⟩
  | @write off w data _ _ _ next effect =>
    obtain rfl : ev = .write off w data := (List.cons.inj (hag.symm.trans next)).1
    refine effect.keeps_buffers (hkeep.imp_right fun other => ?_)
    rintro ⟨rfl, rfl, dec⟩
    have hword : (data.extractLsb' 0 32).toNat = 4 := toNat_of_decodeWord dec
    exact other data rfl (by simpa [BitVec.extractLsb'] using hword)

/-- Every step of a running operation uses up an event to come or an element still to produce, or ends the operation. -/
theorem step_busy_decreases {s t : State} (hs : s.Inv) (hb : s.busy = true) (h : step s = .next t) :
    t.agenda = s.agenda.tail ∧
    (t.busy = false ∨ t.agenda.length + (t.eng.n - t.prog) < s.agenda.length + (s.eng.n - s.prog)) := by
  have hlt := (hs.running (s.busy_iff.1 hb)).1
  rcases step_busy_cases hb h with ⟨-, htail, hprog, hn, -⟩ | ⟨ev, rest, hag, -, htail, hrest⟩
  · refine ⟨htail, .inr ?_⟩
    rw [htail, hprog, hn, List.length_tail]; omega
  · refine ⟨by rw [hag, htail, List.tail_cons], ?_⟩
    rw [hag, htail, List.length_cons]
    rcases hrest with ⟨heng, hprog⟩ | ⟨hidle, -⟩
    · right; rw [heng, hprog]; omega
    · exact .inl hidle

/-- A safe state is idle within any bound on its events to come and elements still to produce, by induction on the bound. -/
theorem becomes_idle_within (bound : Nat) : ∀ s : State, s.Inv → (∀ ev ∈ s.agenda, ev.inWindow) →
    s.agenda.length + (s.eng.n - s.prog) ≤ bound → ∃ k ≤ bound, ∃ t, Reaches k s t ∧ t.busy = false := by
  induction bound with
  | zero =>
    intro s hs _ hbound
    refine ⟨0, le_refl 0, s, reaches_zero.2 rfl, Bool.eq_false_iff.2 fun hb => ?_⟩
    have hlt := (hs.running (s.busy_iff.1 hb)).1
    omega
  | succ bound ih =>
    intro s hs hwin hbound
    cases hb : s.busy with
    | false => exact ⟨0, Nat.zero_le _, s, reaches_zero.2 rfl, hb⟩
    | true =>
      obtain ⟨u, hu⟩ := step_next_iff.2 fun ev hev => hwin ev (List.mem_of_mem_head? hev)
      obtain ⟨htail, hidle | hdec⟩ := step_busy_decreases hs hb hu
      · exact ⟨1, by omega, u, reaches_succ.2 ⟨u, hu, reaches_zero.2 rfl⟩, hidle⟩
      · have hwin' : ∀ ev ∈ u.agenda, ev.inWindow := fun ev hev => hwin ev (List.mem_of_mem_tail (htail ▸ hev))
        obtain ⟨k, hk, t, hrun, hidle⟩ := ih u (stepKeepsInv s u hs hu) hwin' (by omega)
        exact ⟨k + 1, by omega, t, reaches_succ.2 ⟨u, hu, hrun⟩, hidle⟩

/-- Settles O25. -/
theorem everyOperationEnds : Obligations.EveryOperationEnds := fun s hs hwin =>
  becomes_idle_within _ s hs hwin (le_refl _)

end Sys2Proof.Machine
end

section
/-! PROOFS. Decoding and encoding are inverse to each other, and the words that are no command (30_encoding.md R90 to R95,
R98). -/

namespace Sys2Proof

open Laws.EncodeOpcode (lengthOf opcodeOf)

/-- The word of a well-formed command holds its OPC and LEN, and nothing else (R91, R98). -/
theorem encodeWord_toNat {i : Instr} (h : i.wf = true) : (encodeWord i).toNat = lengthOf i * 256 + opcodeOf i := by
  cases i with
  | nop => exact Laws.EncodeOpcode.nop h
  | genSeq n => exact Laws.EncodeOpcode.genSeq n h
  | deriveKey size => exact Laws.EncodeOpcode.deriveKey size h
  | clrStatus => exact Laws.EncodeOpcode.clrStatus h
  | softReset => exact Laws.EncodeOpcode.softReset h

/-- OPC and LEN of a word that holds a command's and nothing else (R91). -/
theorem fields_of_toNat {word : Word} {i : Instr} (h : word.toNat = lengthOf i * 256 + opcodeOf i) :
    word.toNat % 256 = opcodeOf i ∧ word.toNat / 256 = lengthOf i := by
  have hopc : opcodeOf i < 256 := by cases i <;> simp [opcodeOf]
  omega

/-- A word decodes to a command exactly when it holds the command's OPC and LEN, and nothing else (R91, R93). -/
theorem decodeWord_eq_ok_iff {word : Word} {i : Instr} :
    decodeWord word = .ok i ↔ word.toNat = lengthOf i * 256 + opcodeOf i := by
  refine ⟨toNat_of_decodeWord, fun h => ?_⟩
  obtain ⟨hopc, hlen⟩ := fields_of_toNat h
  rw [decodeWord_eq, hopc, hlen]
  cases i with
  | genSeq n | deriveKey n => rfl
  | nop | clrStatus | softReset => exact decodeNoLen_eq_ok_iff.2 ⟨hlen, rfl⟩

theorem decodeWord_encodeWord {i : Instr} (h : i.wf = true) : decodeWord (encodeWord i) = .ok i :=
  decodeWord_eq_ok_iff.2 (encodeWord_toNat h)

/-- Settles O2: the four bytes are the word again, and the word holds the command's OPC and LEN. -/
theorem decodeOfEncode : Obligations.DecodeOfEncode := by
  intro i rest h
  rw [encode, decode_bytesOfWord, decodeWord_encodeWord h]
  rfl

/-- Settles O3: OPC and LEN are the whole word. -/
theorem encodeOfDecode : Obligations.EncodeOfDecode := by
  intro word i h
  have hwf := wf_of_decodeWord h
  exact ⟨BitVec.eq_of_toNat_eq ((encodeWord_toNat hwf).trans (toNat_of_decodeWord h).symm), hwf⟩

theorem decodeNoLen_eq_error_iff {word : Word} {i : Instr} :
    (∃ e, decodeNoLen word i = .error e) ↔ word.toNat / 256 ≠ 0 := by
  rw [decodeNoLen, lenField_eq]; split <;> simp [*]

/-- Settles O4, along the decoder's comparisons of OPC. -/
theorem undecodableWords : Obligations.UndecodableWords := by
  intro word
  rw [decodeWord_eq]
  split
  · rw [decodeNoLen_eq_error_iff]; omega
  split
  · exact iff_of_false nofun (by omega)
  split
  · exact iff_of_false nofun (by omega)
  split
  · rw [decodeNoLen_eq_error_iff]; omega
  split
  · rw [decodeNoLen_eq_error_iff]; omega
  · exact iff_of_true ⟨_, rfl⟩ (by omega)

/-- Settles O1, by the OPC and LEN of each word. -/
theorem tableWordsDecode : Obligations.TableWordsDecode :=
  ⟨decodeWord_eq_ok_iff.2 rfl, decodeWord_eq_ok_iff.2 rfl, decodeWord_eq_ok_iff.2 rfl, decodeWord_eq_ok_iff.2 rfl,
    decodeWord_eq_ok_iff.2 rfl, decodeWord_eq_ok_iff.2 rfl, rfl, rfl⟩

end Sys2Proof
end

section
/-! PROOFS. A CMD write runs the acceptance procedure as R95 writes it (30_encoding.md R90, R94, R95, R98). -/

namespace Sys2Proof.Machine

open Laws.EncodeOpcode (lengthOf opcodeOf)

/-- The procedure of R95 on a word that decodes is the command's effect. -/
theorem accept_of_command {word : Word} {i : Instr} (dec : decodeWord word = .ok i) (s : State) :
    Spec.accept word s = after i s := by
  obtain ⟨hopc, hlen⟩ := fields_of_toNat (toNat_of_decodeWord dec)
  rw [Spec.accept, hopc, hlen]
  cases i with
  | softReset => rfl
  | nop | clrStatus | genSeq n | deriveKey n =>
    cases hp : s.eng.phase with
    | run => simp [after, State.whenIdle_busy hp, opcodeOf, Spec.raise, State.raiseErr]
    | idle => simp [after, State.whenIdle_idle hp, opcodeOf, lengthOf, Spec.raise, State.raiseErr]

/-- The procedure of R95 on a word that is no command is the rejection (R94). -/
theorem accept_of_noCommand {word : Word} {e : DecodeError} (dec : decodeWord word = .error e) (s : State) :
    Spec.accept word s = s.rejectWord := by
  have hword := (undecodableWords word).1 ⟨e, dec⟩
  rw [Spec.accept, if_neg (by omega), State.rejectWord]
  cases hp : s.eng.phase with
  | run => rw [if_pos rfl, State.whenIdle_busy hp]; rfl
  | idle =>
    rw [if_neg nofun, State.whenIdle_idle hp]
    by_cases hopc : 5 ≤ word.toNat % 256 ∨ word.toNat % 256 = 4
    · rw [if_pos hopc]; rfl
    · rw [if_neg hopc, if_pos (by omega)]; rfl

/-- The model's acceptance of a word is the procedure of R95. -/
theorem acceptWord_eq_accept (word : Word) (s : State) : acceptWord word s = .next (Spec.accept word s) := by
  rw [acceptWord]
  cases dec : decodeWord word with
  | ok i => rw [accept_of_command dec, ← exec_eq_after]
  | error e => rw [accept_of_noCommand dec]

/-- The write that carries a word has it in its low 32 data bits (R90). -/
theorem extractLsb'_setWidth_word (word : Word) : (word.setWidth 64).extractLsb' 0 32 = word := by
  rw [BitVec.extractLsb'_setWidth_of_le (by decide), BitVec.extractLsb'_eq_self]

/-- The step of a CMD write presents its word to the acceptance procedure and answers OKAY (R90, R95). -/
theorem step_cmdWrite {s : State} {rest : List Event} {word : Word} (h : s.agenda = cmdWrite word :: rest) :
    step s = withWriteResponse .okay (acceptWord word { s with agenda := rest }) := by
  rw [step_cons h, cmdWrite, handle_write (by decide), State.memWrite, validRow_cmd]
  simp only [State.writeRegion, extractLsb'_setWidth_word]
  rfl

/-- Settles O7. -/
theorem acceptanceProcedure : Obligations.AcceptanceProcedure := by
  intro s rest word h
  rw [step_cmdWrite h, acceptWord_eq_accept]
  rfl

/-- Settles O8: such a word is no command, and an idle rejection is ILLEGAL_CMD. -/
theorem reservedOpcodeIllegal : Obligations.ReservedOpcodeIllegal := by
  intro s rest word h idle hopc
  obtain ⟨e, dec⟩ := (undecodableWords word).2 (.inl hopc)
  rw [acceptanceProcedure s rest word h, accept_of_noCommand dec, State.rejectWord,
    State.whenIdle_idle (s := { s with agenda := rest }) idle]
  rfl

/-- A table word of all 32 bits is the word itself (log 16). -/
theorem tableWord_toNat (word : Word) : tableWord 32 word.toNat = word := by
  rw [tableWord, Nat.mod_eq_of_lt word.isLt, BitVec.ofNat_toNat, BitVec.setWidth_eq]

/-- Settles O6: the write presented is that of the command's word, and the word decodes to the command. -/
theorem fetchWordRunsCommand : Obligations.FetchWordRunsCommand := by
  intro s i hwf
  rw [step_cmdWrite (s.withFetchWord_agenda _ _), tableWord_toNat, acceptWord, decodeWord_encodeWord hwf]
  rfl

end Sys2Proof.Machine
end

section
/-! PROOFS. What the commands leave unchanged, the acceptance of GEN_SEQ, and one step of the generator (30_encoding.md R95;
40_sequence_generator.md R133, R134). -/

namespace Sys2Proof.Machine

/-- What a command touches (R95): the sticky status alone, the start of an operation, or what SOFT_RESET does. -/
theorem after_kinds (i : Instr) (s : State) :
    (i ≠ .softReset ∧ ∃ status, after i s = { s with status := status }) ∨
    ((i ≠ .softReset ∧ i ≠ .nop ∧ i ≠ .clrStatus) ∧ ∃ op n size, after i s = s.beginOperation op n size) ∨
    (i = .softReset ∧ after i s = s.softReset) := by
  rcases after_cases i s with ⟨-, hi, e⟩ | ⟨-, rfl, e⟩ | ⟨-, n, rfl, -, e⟩ | ⟨-, n, rfl, -, e⟩ |
    ⟨-, n, rfl, -, e⟩ | ⟨-, n, rfl, -, e⟩ | ⟨-, rfl, e⟩ | ⟨rfl, e⟩
  · exact .inl ⟨hi, _, e⟩
  · exact .inl ⟨nofun, _, e⟩
  · exact .inl ⟨nofun, _, e⟩
  · exact .inr (.inl ⟨⟨nofun, nofun, nofun⟩, _, _, _, e⟩)
  · exact .inl ⟨nofun, _, e⟩
  · exact .inr (.inl ⟨⟨nofun, nofun, nofun⟩, _, _, _, e⟩)
  · exact .inl ⟨nofun, _, e⟩
  · exact .inr (.inr ⟨rfl, e⟩)

/-- Settles O16, by what a command touches. -/
theorem commandFrame : Obligations.CommandFrame := by
  intro i s t h
  obtain rfl : after i s = t := by simpa [exec_eq_after] using h
  rcases after_kinds i s with ⟨hi, status, e⟩ | ⟨⟨hi, hnop, hclr⟩, op, n, size, e⟩ | ⟨rfl, e⟩ <;> rw [e]
  · exact ⟨rfl, rfl, rfl, rfl, rfl, rfl, fun _ => ⟨rfl, rfl, rfl⟩, fun _ => ⟨rfl, rfl, rfl⟩, fun h => absurd h hi,
      fun _ => State.bufByte_congr ⟨rfl, rfl⟩⟩
  · exact ⟨rfl, rfl, rfl, rfl, rfl, rfl, fun _ => ⟨rfl, rfl, rfl⟩, fun h => (h.elim hnop hclr).elim,
      fun h => absurd h hi, fun _ => State.bufByte_congr ⟨rfl, rfl⟩⟩
  · refine ⟨rfl, rfl, rfl, rfl, rfl, rfl, fun h => absurd rfl h, nofun, fun _ => ⟨rfl, rfl⟩, fun h => ?_⟩
    exact State.bufByte_congr ⟨State.settleBuffers_idle (h.resolve_left (not_not_intro rfl)), rfl⟩

/-- An idle machine accepts a GEN_SEQ that fits SEQ_BUF (R133). -/
theorem exec_genSeq_idle {s : State} {n : Nat} (idle : s.eng.phase = .idle) (fits : n ≤ s.seqDepth) :
    exec (.genSeq n) s = .next (s.startGen n) := by
  rw [exec_eq_after, after, State.whenIdle_idle idle, if_neg (Nat.not_lt.2 fits)]

/-- An idle machine accepts a DERIVE_KEY that fits KEY_BUF (R163). -/
theorem exec_deriveKey_idle {s : State} {size : Nat} (idle : s.eng.phase = .idle) (fits : size ≤ s.keyDepth) :
    exec (.deriveKey size) s = .next (s.startKey size) := by
  rw [exec_eq_after, after, State.whenIdle_idle idle, if_neg (Nat.not_lt.2 fits)]

/-- Settles O14. -/
theorem genSeqCompletes : Obligations.GenSeqCompletes := by
  refine ⟨fun n hn => encodeWord_toNat (i := .genSeq n) (decide_eq_true hn), fun s n idle fits => ?_,
    fun s n idle long => (exec_genSeq_lenRange_iff idle n).2 long, fun s n run => ?_⟩
  · rw [exec_genSeq_idle idle fits, State.startGen, State.beginOperation, idle]
    rfl
  · rw [exec_eq_after, after, State.whenIdle_busy run]
    rfl

/-- The engine's turn is the next step, whichever way it comes (R74, R250). -/
theorem step_engineTurn {s : State} {rest : List Event} (next : s.EngineNext rest) :
    step s = .next (s.withAgenda rest).engineTurn := by
  rcases next with ⟨ha, rfl⟩ | ha
  · rw [step_nil ha, State.withAgenda, ← ha]
  · rw [step_cons ha]; rfl

/-- The flags of an engine step, NAN by the reading of R10 (R134, R137). -/
theorem advanceEngine_flags (s : State) (v : F64) (clamped : Bool) :
    (s.advanceEngine v clamped).status =
      { done := decide (s.status.done = true ∨ s.prog + 1 = s.eng.n), err := s.status.err,
        nan := decide (s.status.nan = true ∨ Spec.IsNaN v), clamp := decide (s.status.clamp = true ∨ clamped = true) } := by
  have hnan : isNaN v = decide (Spec.IsNaN v) := Bool.eq_iff_iff.2 (by rw [isNaN_iff, decide_eq_true_iff])
  by_cases hlast : s.prog + 1 = s.eng.n <;> simp [Status.noteElement, hlast, hnan]

/-- Settles O17. -/
theorem genStepEffect : Obligations.GenStepEffect := by
  intro s rest run op next
  refine ⟨(s.withAgenda rest).genStep, ?_, genStep_new (s.withAgenda rest), genStep_old (s.withAgenda rest),
    advanceEngine_flags _ _ _, ?_, rfl, rfl, rfl, rfl, rfl, rfl, rfl, rfl, rfl, rfl⟩
  · rw [step_engineTurn next.symm, State.engineTurn_gen (s := s.withAgenda rest) run op]
  · rw [State.genStep_eng, State.withAgenda_eng, State.withAgenda_prog, run]

end Sys2Proof.Machine
end

section
/-! PROOFS. Runs of an operation from its acceptance to its end, whatever the interleaving (20_memory.md R72, R74;
40_sequence_generator.md R134 to R138; 41_key_derivation.md R164 to R168; 70_reset_and_hazards.md R250). -/

namespace Sys2Proof.Machine

/-- How many of the first `j` events to come are not engine turns (R74). -/
def otherEvents (agenda : List Event) (j : Nat) : Nat := ((agenda.take j).filter (fun ev => ev ≠ .engineTurn)).length

theorem otherEvents_nil (j : Nat) : otherEvents [] j = 0 := by rw [otherEvents, List.take_nil]; rfl

/-- An event to come counts unless it is an engine turn; when nothing is to come nothing counts. -/
theorem otherEvents_succ (agenda : List Event) (j : Nat) :
    otherEvents agenda (j + 1) = otherEvents agenda j + otherEvents (agenda.drop j) 1 := by
  rw [otherEvents, otherEvents, otherEvents, List.take_add, List.filter_append, List.length_append]

/-- A running engine's turn is its element produced, with the buffers written as the operation says (R134, R164). -/
theorem State.engineTurn_running {s : State} (run : s.eng.phase = .run) :
    ∃ m, s.engineTurn = State.advanceEngine (s.eng.elem s.prog).1 (s.eng.elem s.prog).2 { s with mem := m } := by
  cases op : s.eng.op with
  | gen => exact ⟨_, State.engineTurn_gen run op⟩
  | key => exact ⟨_, State.engineTurn_key run op⟩

/-- What a step of a running operation can be: an engine step, an event that leaves the operation as it is, or one that
ends it without DONE (R72, R192, R240). -/
theorem StepEffect.running_cases {s t : State} (h : StepEffect s t) (run : s.eng.phase = .run) :
    (∃ rest, s.EngineNext rest ∧ t = (s.withAgenda rest).engineTurn) ∨
    (∃ ev, s.agenda = ev :: t.agenda ∧ ev ≠ .engineTurn ∧ t.eng = s.eng ∧ t.prog = s.prog ∧
      t.memBefore = s.memBefore ∧ t.bufEpoch = s.bufEpoch) ∨
    (t.busy = false ∧ t.status.done = false) := by
  have not_idle : s.eng.phase ≠ .idle := by simp [run]
  cases h with
  | idleTurn _ idle => exact absurd idle not_idle
  | @genStep rest next _ op => exact .inl ⟨rest, next, (State.engineTurn_gen (s := s.withAgenda rest) run op).symm⟩
  | @keyStep rest next _ op => exact .inl ⟨rest, next, (State.engineTurn_key (s := s.withAgenda rest) run op).symm⟩
  | hardReset => exact .inr (.inr ⟨rfl, rfl⟩)
  | read next => exact .inr (.inl ⟨_, next, nofun, rfl, rfl, rfl, rfl⟩)
  | write next effect =>
    cases effect with
    | invalid | ctrl | paramBusy | cmdBusy => exact .inr (.inl ⟨_, next, nofun, rfl, rfl, rfl, rfl⟩)
    | softReset => exact .inr (.inr ⟨rfl, rfl⟩)
    | param _ idle | noCommand _ idle | nop _ idle | genTooLong _ idle | startGen _ idle | keyTooLong _ idle
    | startKey _ idle | clrStatus _ idle => exact absurd idle not_idle

/-- After a GEN step the entries up to PROG hold the sequence, whether or not the step is the last (R72, R134). -/
theorem State.Tracks.seqEntry_genStep {s : State} (hs : s.Tracks) (run : s.eng.phase = .run) (op : s.eng.op = .gen)
    {k : Nat} (hk : k ≤ s.prog) : s.genStep.seqEntry k = seqElem s.eng.n s.eng.lat k := by
  rcases hk.eq_or_lt with rfl | hlt
  · exact (genStep_new s).trans (hs.elem_eq run)
  · refine (State.seqEntry_congr fun j hj => genStep_old s _ ?_).trans (hs.gen_new run op k hlt)
    rw [seqAddr_eq k, seqAddr_eq s.prog]; omega

/-- After a GEN step every other byte is as before the operation (R72, R136). -/
theorem State.Tracks.bufByte_genStep {s : State} (hs : s.Tracks) (run : s.eng.phase = .run) (op : s.eng.op = .gen)
    {off : Nat} (hoff : ¬ (seqAddr 0 ≤ off ∧ off < seqAddr (s.prog + 1))) :
    s.genStep.bufByte off = s.bufByteBefore off := by
  have hp := seqAddr_eq s.prog
  rw [seqAddr_eq (s.prog + 1)] at hoff
  exact (genStep_old s off (by omega)).trans (hs.gen_old run op off (by omega))

/-- After a KEY step the key bytes of the elements up to PROG are in KEY_BUF, whether or not the step is the last
(R72, R164). -/
theorem State.Tracks.keyByteAt_keyStep {s : State} (hs : s.Tracks) (run : s.eng.phase = .run) (op : s.eng.op = .key)
    {k : Nat} (hk : s.eng.size + k ≤ s.prog) :
    s.keyStep.keyByteAt k = keyByte (seqElem s.eng.n s.eng.lat (s.eng.size + k)) := by
  rcases hk.eq_or_lt with he | hlt
  · have hnew := keyStep_new s (by omega)
    rwa [hs.elem_eq run, ← he, Nat.add_sub_cancel_left] at hnew
  · refine (keyStep_old s _ (.inr ?_)).trans (hs.key_new run op k hlt)
    rw [keyAddr_eq k, keyAddr_eq (s.prog - s.eng.size)]; omega

/-- After a KEY step every other byte is as before the operation (R72, R166). -/
theorem State.Tracks.bufByte_keyStep {s : State} (hs : s.Tracks) (run : s.eng.phase = .run) (op : s.eng.op = .key)
    {off : Nat} (hoff : ¬ (keyAddr 0 ≤ off ∧ off < keyAddr (s.prog + 1 - s.eng.size))) :
    s.keyStep.bufByte off = s.bufByteBefore off := by
  have hp := keyAddr_eq (s.prog - s.eng.size)
  rw [keyAddr_eq (s.prog + 1 - s.eng.size)] at hoff
  exact (keyStep_old s off (by omega)).trans (hs.key_old run op off (by omega))

/-- `u` is `j` steps into the operation that the idle machine `s` accepted, still under way (R72, R134, R164): ENG holds the
operation, PROG counts the engine's steps among the `j`, and what is in the buffers is tracked from the acceptance. -/
structure UnderWay (s : State) (op : EngOp) (n size j : Nat) (u : State) : Prop where
  run : u.eng.phase = .run
  op_eq : u.eng.op = op
  length : u.eng.n = n
  size_eq : u.eng.size = size
  latched : u.eng.lat = s.params
  prog_lt : u.prog < n
  memBefore : u.memBefore = s.mem
  bufEpoch : u.bufEpoch = s.bufEpoch
  tracks : u.Tracks
  agenda : u.agenda = s.agenda.drop j
  count : j = u.prog + otherEvents s.agenda j

section
variable {s u v : State} {op : EngOp} {n size j k : Nat}

/-- An accepted operation of nonzero length is under way (R133, R163). -/
theorem UnderWay.begin (hn : n ≠ 0) : UnderWay s op n size 0 (s.beginOperation op n size) where
  run := by simp [hn]
  op_eq := rfl
  length := rfl
  size_eq := rfl
  latched := rfl
  prog_lt := Nat.pos_of_ne_zero hn
  memBefore := rfl
  bufEpoch := rfl
  tracks := .beginOperation s op n size
  agenda := rfl
  count := rfl

/-- The engine's turn counts as no other event. -/
theorem UnderWay.otherEvents_engineNext {rest : List Event} (h : UnderWay s op n size j u) (next : u.EngineNext rest) :
    rest = s.agenda.drop (j + 1) ∧ otherEvents s.agenda (j + 1) = otherEvents s.agenda j := by
  rw [otherEvents_succ, ← List.drop_drop, ← h.agenda]
  rcases next with ⟨ha, rfl⟩ | ha <;> rw [ha] <;> exact ⟨rfl, rfl⟩

/-- An engine step that is not the last leaves the operation under way (R134, R164). -/
theorem UnderWay.engineTurn {rest : List Event} (h : UnderWay s op n size j u) (next : u.EngineNext rest)
    (more : u.prog + 1 ≠ n) : UnderWay s op n size (j + 1) (u.withAgenda rest).engineTurn := by
  obtain ⟨hrest, hother⟩ := h.otherEvents_engineNext next
  have tracks := stepKeepsTracks _ _ h.tracks (step_engineTurn next)
  obtain ⟨m, e⟩ := State.engineTurn_running (s := u.withAgenda rest) h.run
  rw [e] at tracks ⊢
  have hlt := h.prog_lt
  have hcount := h.count
  exact
    { run := by simp [h.length, more, h.run]
      op_eq := h.op_eq
      length := h.length
      size_eq := h.size_eq
      latched := h.latched
      prog_lt := show u.prog + 1 < n by omega
      memBefore := h.memBefore
      bufEpoch := h.bufEpoch
      tracks := tracks
      agenda := hrest
      count := show j + 1 = u.prog + 1 + _ by omega }

/-- An event that leaves the operation as it is leaves it under way. -/
theorem UnderWay.otherEvent {ev : Event} (h : UnderWay s op n size j u) (hstep : step u = .next v)
    (next : u.agenda = ev :: v.agenda) (other : ev ≠ .engineTurn) (eng : v.eng = u.eng) (prog : v.prog = u.prog)
    (memBefore : v.memBefore = u.memBefore) (bufEpoch : v.bufEpoch = u.bufEpoch) : UnderWay s op n size (j + 1) v where
  run := eng ▸ h.run
  op_eq := eng ▸ h.op_eq
  length := eng ▸ h.length
  size_eq := eng ▸ h.size_eq
  latched := eng ▸ h.latched
  prog_lt := prog ▸ h.prog_lt
  memBefore := memBefore.trans h.memBefore
  bufEpoch := bufEpoch.trans h.bufEpoch
  tracks := stepKeepsTracks u v h.tracks hstep
  agenda := by rw [← List.drop_drop, ← h.agenda, next]; rfl
  count := by
    have hone : otherEvents u.agenda 1 = 1 := by simp [next, otherEvents, other]
    rw [prog, otherEvents_succ, ← h.agenda, hone, ← Nat.add_assoc, ← h.count]

/-- What a step of an operation under way can do: leave it under way, finish it by its last engine step, or end it without
DONE (R134, R164, R192, R240). -/
theorem UnderWay.step_cases (h : UnderWay s op n size j u) (hstep : step u = .next v) :
    UnderWay s op n size (j + 1) v ∨
    (u.prog + 1 = n ∧ ∃ rest, u.EngineNext rest ∧ v = (u.withAgenda rest).engineTurn) ∨
    (v.busy = false ∧ v.status.done = false) := by
  rcases (step_effect hstep).running_cases h.run with ⟨rest, next, rfl⟩ |
    ⟨ev, next, other, eng, prog, memBefore, bufEpoch⟩ | stopped
  · by_cases hlast : u.prog + 1 = n
    · exact .inr (.inl ⟨hlast, rest, next, rfl⟩)
    · exact .inl (h.engineTurn next hlast)
  · exact .inl (h.otherEvent hstep next other eng prog memBefore bufEpoch)
  · exact .inr (.inr stopped)

/-- The last engine step (R135, R165): the engine is idle, DONE is set and PROG is the length. -/
theorem UnderWay.lastTurn {rest : List Event} (h : UnderWay s op n size j u) (last : u.prog + 1 = n) :
    (u.withAgenda rest).engineTurn.busy = false ∧ (u.withAgenda rest).engineTurn.status.done = true ∧
    (u.withAgenda rest).engineTurn.prog = n := by
  obtain ⟨m, e⟩ := State.engineTurn_running (s := u.withAgenda rest) h.run
  rw [e]
  exact ⟨by simp [State.busy, h.length, last], by simp [h.length, last], last⟩

/-- As long as every state of a run from the acceptance is busy, the operation is under way. -/
theorem underWay_of_busy (idle : s.eng.phase = .idle)
    (busy : ∀ i ≤ j, ∃ w, Reaches i (s.beginOperation op n size) w ∧ w.busy = true)
    (hu : Reaches j (s.beginOperation op n size) u) : UnderWay s op n size j u := by
  have busy_of {i : Nat} {w : State} (hi : i ≤ j) (hw : Reaches i (s.beginOperation op n size) w) : w.busy = true := by
    obtain ⟨w', hw', hb⟩ := busy i hi
    exact reaches_det hw hw' ▸ hb
  induction j generalizing u with
  | zero =>
    have hb := busy_of (le_refl 0) hu
    obtain rfl := reaches_zero.1 hu
    rw [State.busy_beginOperation idle] at hb
    exact .begin (of_decide_eq_true hb)
  | succ j ih =>
    have hb := busy_of (le_refl _) hu
    obtain ⟨w, hw, hstep⟩ := reaches_succ_last.1 hu
    have under := ih (fun i hi => busy i (by omega)) hw (fun hi => busy_of (by omega))
    rcases under.step_cases hstep with h | ⟨last, rest, -, rfl⟩ | ⟨hidle, -⟩
    · exact h
    · exact absurd hb (by simp [(under.lastTurn last).1])
    · exact absurd hb (by simp [hidle])

/-- A finished operation had length 0, or its last step is the engine step of its last element. -/
theorem finishesAt_cases (idle : s.eng.phase = .idle) (h : FinishesAt k (s.beginOperation op n size) u) :
    (k = 0 ∧ n = 0 ∧ u = s.beginOperation op n size) ∨
    ∃ j v rest, k = j + 1 ∧ UnderWay s op n size j v ∧ v.prog + 1 = n ∧ v.EngineNext rest ∧
      u = (v.withAgenda rest).engineTurn := by
  obtain ⟨busy, hu, hidle, hdone⟩ := h
  cases k with
  | zero =>
    obtain rfl := reaches_zero.1 hu
    rw [State.busy_beginOperation idle] at hidle
    exact .inl ⟨rfl, by simpa using hidle, rfl⟩
  | succ j =>
    obtain ⟨v, hv, hstep⟩ := reaches_succ_last.1 hu
    have under := underWay_of_busy idle (fun i hi => busy i (by omega)) hv
    rcases under.step_cases hstep with h | ⟨last, rest, next, rfl⟩ | ⟨-, hnot⟩
    · exact absurd hidle (by simp [State.busy, h.run])
    · exact .inr ⟨j, v, rest, rfl, under, last, next, rfl⟩
    · simp [hdone] at hnot

/-- A finished operation took one step for each element and one for each other event on the way (R135, R165, R250), and
leaves its length in PROG. -/
theorem finishesAt_count (idle : s.eng.phase = .idle) (h : FinishesAt k (s.beginOperation op n size) u) :
    k = n + otherEvents s.agenda k ∧ u.prog = n := by
  rcases finishesAt_cases idle h with ⟨rfl, rfl, rfl⟩ | ⟨j, v, rest, rfl, under, last, next, rfl⟩
  · exact ⟨rfl, rfl⟩
  · have hcount := under.count
    rw [(under.otherEvents_engineNext next).2]
    exact ⟨by omega, (under.lastTurn last).2.2⟩

/-- With nothing else to come, the operation goes on until its last element (R74, R250). -/
theorem underWay_alone (alone : s.agenda = []) (hj : j < n) :
    ∃ u, Reaches j (s.beginOperation op n size) u ∧ UnderWay s op n size j u := by
  induction j with
  | zero => exact ⟨_, reaches_zero.2 rfl, .begin (by omega)⟩
  | succ j ih =>
    obtain ⟨u, hu, under⟩ := ih (by omega)
    have hcount := under.count
    rw [alone, otherEvents_nil] at hcount
    have next : u.EngineNext [] := .inl ⟨by rw [under.agenda, alone, List.drop_nil], rfl⟩
    exact ⟨_, reaches_succ_last.2 ⟨u, hu, step_engineTurn next⟩, under.engineTurn next (by omega)⟩

/-- With nothing else to come, the operation finishes after as many steps as it has elements (R135, R165, R250). -/
theorem finishesAt_alone (idle : s.eng.phase = .idle) (alone : s.agenda = []) :
    ∃ u, FinishesAt n (s.beginOperation op n size) u ∧ u.prog = n := by
  have busy : ∀ j < n, ∃ u, Reaches j (s.beginOperation op n size) u ∧ u.busy = true := fun j hj => by
    obtain ⟨u, hu, under⟩ := underWay_alone (op := op) (size := size) alone hj
    exact ⟨u, hu, u.busy_iff.2 under.run⟩
  cases n with
  | zero => exact ⟨_, ⟨busy, reaches_zero.2 rfl, by simp [State.busy_beginOperation idle], rfl⟩, rfl⟩
  | succ m =>
    obtain ⟨u, hu, under⟩ := underWay_alone (op := op) (size := size) alone (Nat.lt_succ_self m)
    have hcount := under.count
    rw [alone, otherEvents_nil] at hcount
    have next : u.EngineNext [] := .inl ⟨by rw [under.agenda, alone, List.drop_nil], rfl⟩
    obtain ⟨hidle, hdone, hprog⟩ := under.lastTurn (rest := []) (by omega)
    exact ⟨_, ⟨busy, reaches_succ_last.2 ⟨u, hu, step_engineTurn next⟩, hidle, hdone⟩, hprog⟩

/-- The snapshot of the buffers is what they held before the acceptance (log 7). -/
theorem UnderWay.bufByteBefore (h : UnderWay s op n size j u) (off : Nat) : u.bufByteBefore off = s.bufByte off := by
  rw [State.bufByteBefore, State.bufByte, h.memBefore, h.bufEpoch]

/-- A finished GEN_SEQ has left its sequence in SEQ_BUF and every other byte of the buffers as it was (R136). -/
theorem finishesAt_startGen (idle : s.eng.phase = .idle) (h : FinishesAt k (s.startGen n) u) :
    (∀ i < n, u.seqEntry i = seqElem n s.params i) ∧
    (∀ off, ¬ (seqAddr 0 ≤ off ∧ off < seqAddr n) → u.bufByte off = s.bufByte off) := by
  rcases finishesAt_cases idle h with ⟨-, rfl, rfl⟩ | ⟨j, v, rest, -, under, rfl, -, rfl⟩
  · exact ⟨fun i hi => absurd hi (Nat.not_lt_zero i), fun _ _ => State.bufByte_congr ⟨rfl, rfl⟩ _⟩
  · have tracks := under.tracks.withAgenda rest
    have run : (v.withAgenda rest).eng.phase = .run := under.run
    have op : (v.withAgenda rest).eng.op = .gen := under.op_eq
    rw [State.engineTurn_gen run op]
    refine ⟨fun i hi => ?_, fun off hoff => ?_⟩
    · rw [tracks.seqEntry_genStep run op (Nat.le_of_lt_succ hi), State.withAgenda_eng, under.length, under.latched]
    · exact (tracks.bufByte_genStep run op hoff).trans (under.bufByteBefore off)

/-- A finished DERIVE_KEY has left its key in KEY_BUF and every other byte of the buffers as it was (R162, R166). -/
theorem finishesAt_startKey (idle : s.eng.phase = .idle) (h : FinishesAt k (s.startKey size) u) :
    (∀ i < size, u.keyByteAt i = keyByte (seqElem (2 * size) s.params (size + i))) ∧
    (∀ off, ¬ (keyAddr 0 ≤ off ∧ off < keyAddr size) → u.bufByte off = s.bufByte off) := by
  rcases finishesAt_cases idle h with ⟨-, hn, rfl⟩ | ⟨j, v, rest, -, under, last, -, rfl⟩
  · exact ⟨fun i hi => by omega, fun _ _ => State.bufByte_congr ⟨rfl, rfl⟩ _⟩
  · have tracks := under.tracks.withAgenda rest
    have run : (v.withAgenda rest).eng.phase = .run := under.run
    have op : (v.withAgenda rest).eng.op = .key := under.op_eq
    have hsize : (v.withAgenda rest).eng.size = size := under.size_eq
    have hprog : (v.withAgenda rest).prog + 1 = 2 * size := last
    rw [State.engineTurn_key run op]
    refine ⟨fun i hi => ?_, fun off hoff => ?_⟩
    · rw [tracks.keyByteAt_keyStep run op (by omega), State.withAgenda_eng, under.length, under.latched, under.size_eq]
    · refine (tracks.bufByte_keyStep run op ?_).trans (under.bufByteBefore off)
      rwa [hprog, hsize, show 2 * size - size = size by omega]

end

/-- The state an accepted GEN_SEQ leaves (R133). -/
theorem eq_startGen_of_exec {s t : State} {n : Nat} (idle : s.eng.phase = .idle) (fits : n ≤ s.seqDepth)
    (accepted : exec (.genSeq n) s = .next t) : t = s.startGen n := by
  rw [exec_genSeq_idle idle fits] at accepted
  exact (Host.Outcome.next.inj accepted).symm

/-- The state an accepted DERIVE_KEY leaves (R163). -/
theorem eq_startKey_of_exec {s t : State} {size : Nat} (idle : s.eng.phase = .idle) (fits : size ≤ s.keyDepth)
    (accepted : exec (.deriveKey size) s = .next t) : t = s.startKey size := by
  rw [exec_deriveKey_idle idle fits] at accepted
  exact (Host.Outcome.next.inj accepted).symm

/-- Settles O24. -/
theorem exactStepCount : Obligations.ExactStepCount := by
  refine ⟨fun s t u n k idle fits accepted finished => ?_, fun s t u size k idle fits accepted finished => ?_,
    fun s t n idle alone fits accepted => ?_, fun s t size idle alone fits accepted => ?_⟩
  · obtain rfl := eq_startGen_of_exec idle fits accepted
    exact (finishesAt_count idle finished).1
  · obtain rfl := eq_startKey_of_exec idle fits accepted
    exact (finishesAt_count idle finished).1
  · obtain rfl := eq_startGen_of_exec idle fits accepted
    exact finishesAt_alone idle alone
  · obtain rfl := eq_startKey_of_exec idle fits accepted
    exact finishesAt_alone idle alone

/-- Settles O20. -/
theorem genSeqResult : Obligations.GenSeqResult := by
  intro s t u n k idle fits accepted finished
  obtain rfl := eq_startGen_of_exec idle fits accepted
  obtain ⟨entries, others⟩ := finishesAt_startGen idle finished
  exact ⟨entries, others, (finishesAt_count idle finished).2⟩

/-- Settles O22: either result is a function of the length and the parameters. -/
theorem resultsDeterministic : Obligations.ResultsDeterministic := by
  refine ⟨fun s s' t t' u u' n k k' idle idle' params fits fits' accepted accepted' finished finished' j hj => ?_,
    fun s s' t t' u u' size k k' idle idle' params fits fits' accepted accepted' finished finished' j hj => ?_⟩
  · obtain rfl := eq_startGen_of_exec idle fits accepted
    obtain rfl := eq_startGen_of_exec idle' fits' accepted'
    rw [(finishesAt_startGen idle finished).1 j hj, (finishesAt_startGen idle' finished').1 j hj, params]
  · obtain rfl := eq_startKey_of_exec idle fits accepted
    obtain rfl := eq_startKey_of_exec idle' fits' accepted'
    rw [(finishesAt_startKey idle finished).1 j hj, (finishesAt_startKey idle' finished').1 j hj, params]

end Sys2Proof.Machine
end

section
/-! PROOFS. The operations and comparisons on each kind of operand (40_sequence_generator.md R120 to R123). -/

namespace Sys2Proof.Machine

/-- The number of units, signed, that a finite pattern stands for (R120). -/
def signedUnitsOf (v : F64) : ℤ := signedUnits (fSign v) (unitsOfMag (magOf v))

theorem value_eq_signedUnitsOf (v : F64) : Spec.value v = (signedUnitsOf v : ℚ) / 2 ^ 1074 := value_eq v

section
variable {a b : F64} {s t : Bool}

/-! #### The operations, one equation for each pair of kinds -/

theorem fadd_finite (ha : Spec.Finite a) (hb : Spec.Finite b) :
    fadd a b =
      if signedUnitsOf a + signedUnitsOf b = 0 then packSigned (fSign a && fSign b) 0
      else packSigned (decide (signedUnitsOf a + signedUnitsOf b < 0))
        (roundMag (signedUnitsOf a + signedUnitsOf b).natAbs 1) := by
  rw [fadd, classify_finite ha, classify_finite hb]
  rfl

theorem fmul_finite (ha : Spec.Finite a) (hb : Spec.Finite b) :
    fmul a b = packSigned (fSign a != fSign b) (roundMag (unitsOfMag (magOf a) * unitsOfMag (magOf b)) unitsPerOne) := by
  rw [fmul, classify_finite ha, classify_finite hb]

theorem fdiv_finite (ha : Spec.Finite a) (hb : Spec.Finite b) (hne : Spec.value b ≠ 0) :
    fdiv a b = packSigned (fSign a != fSign b) (roundMag (unitsOfMag (magOf a) * unitsPerOne) (unitsOfMag (magOf b))) := by
  rw [fdiv, classify_finite ha, classify_finite hb]
  exact if_neg (mt value_eq_zero_iff.2 hne)

theorem fdiv_finite_zero (ha : Spec.Finite a) (hb : Spec.Finite b) (hzero : Spec.value b = 0) :
    fdiv a b = if Spec.value a = 0 then cnan else packSigned (fSign a != fSign b) infMag := by
  rw [fdiv, classify_finite ha, classify_finite hb]
  simp only [value_eq_zero_iff.1 hzero, if_true, value_eq_zero_iff]

theorem fadd_inf_finite (ha : Spec.IsInf a s) (hb : Spec.Finite b) : fadd a b = packSigned s infMag := by
  rw [fadd, classify_inf ha, classify_finite hb]

theorem fadd_finite_inf (ha : Spec.Finite a) (hb : Spec.IsInf b t) : fadd a b = packSigned t infMag := by
  rw [fadd, classify_finite ha, classify_inf hb]

theorem fadd_inf_inf (ha : Spec.IsInf a s) (hb : Spec.IsInf b t) :
    fadd a b = if s = t then packSigned s infMag else cnan := by
  rw [fadd, classify_inf ha, classify_inf hb]

theorem fmul_inf_finite (ha : Spec.IsInf a s) (hb : Spec.Finite b) :
    fmul a b = if Spec.value b = 0 then cnan else packSigned (s != fSign b) infMag := by
  rw [fmul, classify_inf ha, classify_finite hb]
  simp only [value_eq_zero_iff]

theorem fmul_finite_inf (ha : Spec.Finite a) (hb : Spec.IsInf b t) :
    fmul a b = if Spec.value a = 0 then cnan else packSigned (fSign a != t) infMag := by
  rw [fmul, classify_finite ha, classify_inf hb]
  simp only [value_eq_zero_iff]

theorem fmul_inf_inf (ha : Spec.IsInf a s) (hb : Spec.IsInf b t) : fmul a b = packSigned (s != t) infMag := by
  rw [fmul, classify_inf ha, classify_inf hb]

theorem fdiv_inf_finite (ha : Spec.IsInf a s) (hb : Spec.Finite b) : fdiv a b = packSigned (s != fSign b) infMag := by
  rw [fdiv, classify_inf ha, classify_finite hb]

theorem fdiv_finite_inf (ha : Spec.Finite a) (hb : Spec.IsInf b t) : fdiv a b = packSigned (fSign a != t) 0 := by
  rw [fdiv, classify_finite ha, classify_inf hb]

theorem fdiv_inf_inf (ha : Spec.IsInf a s) (hb : Spec.IsInf b t) : fdiv a b = cnan := by
  rw [fdiv, classify_inf ha, classify_inf hb]

/-! #### NaN operands and results (R122) -/

theorem fadd_nan (h : Spec.IsNaN a ∨ Spec.IsNaN b) : fadd a b = cnan := by
  rcases h with h | h
  · rw [fadd, classify_nan h]
  · rw [fadd, classify_nan h]; cases classify a <;> rfl

theorem fsub_nan (h : Spec.IsNaN a ∨ Spec.IsNaN b) : fsub a b = cnan := fadd_nan (h.imp_right isNaN_fneg)

theorem fmul_nan (h : Spec.IsNaN a ∨ Spec.IsNaN b) : fmul a b = cnan := by
  rcases h with h | h
  · rw [fmul, classify_nan h]
  · rw [fmul, classify_nan h]; cases classify a <;> rfl

theorem fdiv_nan (h : Spec.IsNaN a ∨ Spec.IsNaN b) : fdiv a b = cnan := by
  rcases h with h | h
  · rw [fdiv, classify_nan h]
  · rw [fdiv, classify_nan h]; cases classify a <;> rfl

/-- A pattern an operation delivers: the canonical NaN, or a sign with a magnitude up to that of an infinity. -/
inductive IsResult : F64 → Prop
  | cnan : IsResult cnan
  | packed (neg : Bool) {m : Nat} (h : m ≤ infMag) : IsResult (packSigned neg m)

/-- A sign with a magnitude up to that of an infinity is no NaN (R120). -/
theorem packSigned_not_isNaN (neg : Bool) {m : Nat} (h : m ≤ infMag) : ¬ Spec.IsNaN (packSigned neg m) := by
  rcases h.eq_or_lt with rfl | h
  · exact fun hnan => hnan.2 (packSigned_inf neg).2.1
  · exact fun hnan => packSigned_finite neg h hnan.1

theorem IsResult.eq_cnan {v : F64} (h : IsResult v) (hnan : Spec.IsNaN v) : v = Machine.cnan := by
  cases h with
  | cnan => rfl
  | packed neg h => exact absurd hnan (packSigned_not_isNaN neg h)

theorem IsResult.ite {u v : F64} (p : Prop) [Decidable p] (hu : IsResult u) (hv : IsResult v) :
    IsResult (if p then u else v) := by
  split
  · exact hu
  · exact hv

theorem isResult_inf (neg : Bool) : IsResult (packSigned neg infMag) := .packed neg (le_refl _)

theorem isResult_zero (neg : Bool) : IsResult (packSigned neg 0) := .packed neg (Nat.zero_le _)

theorem isResult_rounded (neg : Bool) (num den : Nat) : IsResult (packSigned neg (roundMag num den)) :=
  .packed neg (roundMag_le num den)

theorem isResult_fadd (a b : F64) : IsResult (fadd a b) := by
  unfold fadd
  split
  · exact .cnan
  · exact .cnan
  · exact .cnan
  · exact .ite _ (isResult_inf _) .cnan
  · exact isResult_inf _
  · exact isResult_inf _
  · exact .ite _ (isResult_zero _) (isResult_rounded _ _ _)

theorem isResult_fmul (a b : F64) : IsResult (fmul a b) := by
  unfold fmul
  split
  · exact .cnan
  · exact .cnan
  · exact .cnan
  · exact isResult_inf _
  · exact .ite _ .cnan (isResult_inf _)
  · exact .ite _ .cnan (isResult_inf _)
  · exact isResult_rounded _ _ _

theorem isResult_fdiv (a b : F64) : IsResult (fdiv a b) := by
  unfold fdiv
  split
  · exact .cnan
  · exact .cnan
  · exact .cnan
  · exact .cnan
  · exact isResult_inf _
  · exact isResult_zero _
  · exact .ite _ (.ite _ .cnan (isResult_inf _)) (isResult_rounded _ _ _)

/-- Settles O28. -/
theorem nanResultsCanonical : Obligations.NanResultsCanonical :=
  ⟨fun _ _ h => ⟨fadd_nan h, fsub_nan h, fmul_nan h, fdiv_nan h⟩,
    fun a b => ⟨(isResult_fadd a b).eq_cnan, (isResult_fadd a (fneg b)).eq_cnan, (isResult_fmul a b).eq_cnan,
      (isResult_fdiv a b).eq_cnan⟩,
    fun _ => rfl⟩

/-! #### One rounding of the exact result (R121) -/

theorem roundsTo_zero (neg : Bool) : Spec.RoundsTo 0 (packSigned neg 0) := by
  have h := roundsTo_pack neg (num := 0) (den := 1) Nat.one_pos (x := 0) (by simp)
  rwa [roundMag_zero] at h

theorem value_add (a b : F64) :
    Spec.value a + Spec.value b = ((signedUnitsOf a + signedUnitsOf b : ℤ) : ℚ) / 2 ^ 1074 := by
  rw [value_eq_signedUnitsOf a, value_eq_signedUnitsOf b, Int.cast_add, add_div]

theorem value_add_eq_zero_iff : Spec.value a + Spec.value b = 0 ↔ signedUnitsOf a + signedUnitsOf b = 0 := by
  rw [value_add, div_eq_zero_iff, or_iff_left (pow_ne_zero _ two_ne_zero), Int.cast_eq_zero]

theorem roundsTo_fadd (ha : Spec.Finite a) (hb : Spec.Finite b) :
    Spec.RoundsTo (Spec.value a + Spec.value b) (fadd a b) := by
  rw [fadd_finite ha hb]
  split
  · next h => rw [value_add_eq_zero_iff.2 h]; exact roundsTo_zero _
  · refine roundsTo_pack _ Nat.one_pos ?_
    rw [value_add, Nat.cast_one, div_one, ← intCast_eq_signFactor_mul]

theorem roundsTo_fsub (ha : Spec.Finite a) (hb : Spec.Finite b) :
    Spec.RoundsTo (Spec.value a - Spec.value b) (fsub a b) := by
  rw [sub_eq_add_neg, ← fneg_value]
  exact roundsTo_fadd ha (fneg_finite hb)

/-- A product of two numbers of units of `1 / C`, and a quotient, in the same units. -/
theorem mul_units {C : ℚ} (hC : C ≠ 0) (x y p q : ℚ) : x * p / C * (y * q / C) = x * y * (p * q / C) / C := by
  field_simp

theorem div_units {C : ℚ} (hC : C ≠ 0) (x p : ℚ) {y q : ℚ} (hy : y * y = 1) (hq : q ≠ 0) :
    x * p / C / (y * q / C) = x * y * (p * C / q) / C := by
  have hy0 : y ≠ 0 := left_ne_zero_of_mul_eq_one hy
  field_simp
  linear_combination -(x * p) * hy

theorem roundsTo_fmul (ha : Spec.Finite a) (hb : Spec.Finite b) :
    Spec.RoundsTo (Spec.value a * Spec.value b) (fmul a b) := by
  rw [fmul_finite ha hb]
  refine roundsTo_pack _ unitsPerOne_pos ?_
  rw [value_eq_signFactor a, value_eq_signFactor b, mul_units (pow_ne_zero _ two_ne_zero), signFactor_bne, unitsPerOne_cast,
    Nat.cast_mul]

theorem roundsTo_fdiv (ha : Spec.Finite a) (hb : Spec.Finite b) (hne : Spec.value b ≠ 0) :
    Spec.RoundsTo (Spec.value a / Spec.value b) (fdiv a b) := by
  have hunits : unitsOfMag (magOf b) ≠ 0 := mt value_eq_zero_iff.2 hne
  rw [fdiv_finite ha hb hne]
  refine roundsTo_pack _ (Nat.pos_of_ne_zero hunits) ?_
  rw [value_eq_signFactor a, value_eq_signFactor b,
    div_units (pow_ne_zero _ two_ne_zero) _ _ (signFactor_mul_self _) (Nat.cast_ne_zero.2 hunits), signFactor_bne,
    Nat.cast_mul, unitsPerOne_cast]

end

/-- Settles O26. -/
theorem operationsRoundOnce : Obligations.OperationsRoundOnce := fun _ _ ha hb =>
  ⟨roundsTo_fadd ha hb, roundsTo_fsub ha hb, roundsTo_fmul ha hb, roundsTo_fdiv ha hb⟩

section
variable {a b : F64}

/-! #### Zero results and their signs (R121) -/

/-- The two zero patterns (R120). -/
theorem packSigned_zero (neg : Bool) :
    packSigned neg 0 = if neg = true then 0x8000000000000000#64 else 0x0000000000000000#64 := by cases neg <;> rfl

/-- A zero of the given sign (R120). -/
def IsZero (v : F64) (neg : Bool) : Prop := Spec.Finite v ∧ Spec.value v = 0 ∧ fSign v = neg

theorem isZero_packSigned (neg : Bool) : IsZero (packSigned neg 0) neg :=
  ⟨packSigned_finite neg (by decide), value_eq_zero_iff.2 (by rw [packSigned_mag neg (by decide)]; rfl),
    packSigned_sign neg (by decide)⟩

theorem fadd_of_value_add_eq_zero (ha : Spec.Finite a) (hb : Spec.Finite b) (h : Spec.value a + Spec.value b = 0) :
    fadd a b = packSigned (fSign a && fSign b) 0 := by
  rw [fadd_finite ha hb, if_pos (value_add_eq_zero_iff.1 h)]

theorem isZero_fdiv (ha : Spec.Finite a) (hb : Spec.Finite b) (hzero : Spec.value a = 0) (hne : Spec.value b ≠ 0) :
    IsZero (fdiv a b) (fSign a != fSign b) := by
  rw [fdiv_finite ha hb hne, value_eq_zero_iff.1 hzero, Nat.zero_mul, roundMag_zero]
  exact isZero_packSigned _

theorem isZero_fmul (ha : Spec.Finite a) (hb : Spec.Finite b) (hzero : Spec.value a * Spec.value b = 0) :
    IsZero (fmul a b) (fSign a != fSign b) := by
  have hunits : unitsOfMag (magOf a) * unitsOfMag (magOf b) = 0 :=
    Nat.mul_eq_zero.2 ((mul_eq_zero.1 hzero).imp value_eq_zero_iff.1 value_eq_zero_iff.1)
  rw [fmul_finite ha hb, hunits, roundMag_zero]
  exact isZero_packSigned _

end

/-- Settles O27, kind by kind of the operands. -/
theorem specialOperands : Obligations.SpecialOperands := by
  refine ⟨fun a b ha hb h => ?_, fun a b ha hb h => ?_, fun a b s ha hb => ?_, fun a b s t ha hb => ?_,
    fun a b ha hb hzero => ?_, fun a b ha hb => isZero_fdiv ha hb, fun a b ha hb => isZero_fmul ha hb⟩
  · rw [fadd_of_value_add_eq_zero ha hb h, packSigned_zero]
    simp
  · rw [sub_eq_add_neg, ← fneg_value] at h
    rw [fsub, fadd_of_value_add_eq_zero ha (fneg_finite hb) h, fneg_sign, packSigned_zero]
    simp
  · rw [fsub, fsub, fadd_inf_finite ha hb, fadd_finite_inf hb ha, fadd_inf_finite ha (fneg_finite hb),
      fadd_finite_inf hb (isInf_fneg ha), fdiv_inf_finite ha hb, fdiv_finite_inf hb ha, fmul_inf_finite ha hb,
      fmul_finite_inf hb ha, bne_comm (a := fSign b)]
    obtain ⟨zfinite, zvalue, zsign⟩ := isZero_packSigned (s != fSign b)
    refine ⟨packSigned_inf s, packSigned_inf s, packSigned_inf s, packSigned_inf _, packSigned_inf _, zvalue, zfinite, zsign,
      fun hne => ?_, fun hzero => ?_⟩
    · rw [if_neg hne]; exact ⟨packSigned_inf _, packSigned_inf _⟩
    · rw [if_pos hzero]; exact ⟨rfl, rfl⟩
  · rw [fsub, fadd_inf_inf ha hb, fadd_inf_inf ha (isInf_fneg hb), fmul_inf_inf ha hb]
    refine ⟨?_, ?_, packSigned_inf _, fdiv_inf_inf ha hb⟩
    · rintro rfl
      rw [if_pos rfl, if_neg (by simp)]
      exact ⟨packSigned_inf s, rfl⟩
    · intro hne
      rw [if_neg hne, if_pos (Bool.eq_not.2 hne)]
      exact ⟨rfl, packSigned_inf s⟩
  · rw [fdiv_finite_zero ha hb hzero]
    refine ⟨fun hne => ?_, fun hz => if_pos hz⟩
    rw [if_neg hne]
    exact packSigned_inf _

section
variable {a b : F64}

/-! #### The comparisons (R123) -/

theorem signedUnitsOf_le_iff : signedUnitsOf a ≤ signedUnitsOf b ↔ Spec.value a ≤ Spec.value b := by
  rw [value_eq_signedUnitsOf a, value_eq_signedUnitsOf b, div_le_div_iff_of_pos_right (pow_pos two_pos _), Int.cast_le]

theorem fle_finite_iff (ha : Spec.Finite a) (hb : Spec.Finite b) : fle a b = true ↔ Spec.value a ≤ Spec.value b := by
  rw [fle_some (orderKey_fin ha) (orderKey_fin hb), decide_eq_true_iff]
  exact signedUnitsOf_le_iff

theorem fge_finite_iff (ha : Spec.Finite a) (hb : Spec.Finite b) : fge a b = true ↔ Spec.value b ≤ Spec.value a := by
  rw [fge_some (orderKey_fin ha) (orderKey_fin hb), decide_eq_true_iff]
  exact signedUnitsOf_le_iff

/-- An infinity, as an order key, lies beyond every smaller number of units, on the side of its sign. -/
theorem decide_signedUnits_beyond {m H : Nat} (h : m < H) (neg neg' : Bool) :
    decide (signedUnits neg H ≤ signedUnits neg' m) = neg ∧ decide (signedUnits neg' m ≤ signedUnits neg H) = !neg := by
  cases neg <;> cases neg' <;> simp only [signedUnits, Bool.false_eq_true, if_true, if_false, Bool.not_true, Bool.not_false,
    decide_eq_true_eq, decide_eq_false_iff_not] <;> omega

theorem decide_signedUnits_le {H : Nat} (h : 0 < H) (neg neg' : Bool) :
    decide (signedUnits neg H ≤ signedUnits neg' H) = (neg || !neg') := by
  cases neg <;> cases neg' <;> simp only [signedUnits, Bool.false_eq_true, if_true, if_false, Bool.not_true, Bool.not_false,
    Bool.or_true, Bool.or_false, decide_eq_true_eq, decide_eq_false_iff_not] <;> omega

theorem compare_inf_finite {neg : Bool} (ha : Spec.IsInf a neg) (hb : Spec.Finite b) :
    fle a b = neg ∧ fge a b = !neg ∧ fle b a = !neg ∧ fge b a = neg := by
  obtain ⟨below, above⟩ := decide_signedUnits_beyond (unitsOfMag_lt (magOf_lt_inf hb)) neg (fSign b)
  rw [fle_some (orderKey_inf ha) (orderKey_fin hb), fge_some (orderKey_inf ha) (orderKey_fin hb),
    fle_some (orderKey_fin hb) (orderKey_inf ha), fge_some (orderKey_fin hb) (orderKey_inf ha)]
  exact ⟨below, above, above, below⟩

theorem compare_inf_inf {na nb : Bool} (ha : Spec.IsInf a na) (hb : Spec.IsInf b nb) :
    fle a b = (na || !nb) ∧ fge a b = (nb || !na) := by
  rw [fle_some (orderKey_inf ha) (orderKey_inf hb), fge_some (orderKey_inf ha) (orderKey_inf hb)]
  have hpos := (Nat.zero_le _).trans_lt (unitsOfMag_lt (m := 0) (by decide))
  exact ⟨decide_signedUnits_le hpos na nb, decide_signedUnits_le hpos nb na⟩

theorem fle_nan (h : Spec.IsNaN a ∨ Spec.IsNaN b) : fle a b = false := by
  rcases h with h | h
  · rw [fle, orderKey_nan h]
  · rw [fle, orderKey_nan h]; cases orderKey a <;> rfl

theorem fge_nan (h : Spec.IsNaN a ∨ Spec.IsNaN b) : fge a b = false := by
  rcases h with h | h
  · rw [fge, orderKey_nan h]
  · rw [fge, orderKey_nan h]; cases orderKey a <;> rfl

end

/-- Settles O29. -/
theorem comparisonsAreRealOrder : Obligations.ComparisonsAreRealOrder :=
  ⟨fun _ _ ha hb => ⟨fle_finite_iff ha hb, fge_finite_iff ha hb⟩, fun _ _ _ ha hb => compare_inf_finite ha hb,
    fun _ _ _ _ ha hb => compare_inf_inf ha hb, fun _ _ h => ⟨fle_nan h, fge_nan h⟩, by decide, by decide⟩

end Sys2Proof.Machine
end

section
/-! PROOFS. Exact conversions, the envelope, the guard and the elements of a sequence (40_sequence_generator.md R124 to
R132). -/

namespace Sys2Proof.Machine

/-! #### Integers as binary64 numbers (R124) -/

/-- A count below 2^53 of `2^z` units is a multiple of its own spacing. -/
theorem two_pow_quantumExp_dvd {k z : Nat} (hk : k < 2 ^ 53) : 2 ^ quantumExp (k * 2 ^ z) ∣ k * 2 ^ z := by
  by_cases h0 : k * 2 ^ z = 0
  · rw [h0]; exact dvd_zero _
  · refine Dvd.dvd.mul_left (pow_dvd_pow 2 ?_) k
    have hlt : k * 2 ^ z < 2 ^ (53 + z) := by
      rw [pow_add]; exact Nat.mul_lt_mul_of_pos_right hk (Nat.two_pow_pos z)
    have hlog := (Nat.log2_lt h0).2 hlt
    unfold quantumExp
    omega

/-- An integer below 2^53 is far from the overflow threshold. -/
theorem roundMag_integer_lt {k : Nat} (hk : k < 2 ^ 53) : roundMag (k * unitsPerOne) 1 < infMag := by
  refine lt_of_le_of_ne (roundMag_le _ _) fun h => ?_
  rw [roundMag_eq_infMag_iff (z := 2044) rfl Nat.one_pos, unitsPerOne_eq] at h
  have below : ∀ p z : Nat, p ≤ z → k * 2 ^ p < (2 ^ 54 - 1) * (1 * 2 ^ z) := fun p z hpz => by
    rw [Nat.one_mul]
    calc k * 2 ^ p ≤ k * 2 ^ z := Nat.mul_le_mul_left _ (Nat.pow_le_pow_right (by decide) hpz)
      _ < (2 ^ 54 - 1) * 2 ^ z := Nat.mul_lt_mul_of_pos_right (by omega) (Nat.two_pow_pos z)
  exact absurd h (Nat.not_le.2 (below 1074 2044 (by decide)))

/-- Every integer below 2^53 converts exactly (R124). -/
theorem f64_exact {k : Nat} (hk : k < 2 ^ 53) :
    Spec.Finite (f64 k) ∧ fSign (f64 k) = false ∧ Spec.value (f64 k) = k := by
  have hlt := roundMag_integer_lt hk
  have hmag : roundMag (k * unitsPerOne) 1 < 2 ^ 63 := hlt.trans (by decide)
  have hsign : fSign (f64 k) = false := packSigned_sign false hmag
  have hunits : unitsOfMag (magOf (f64 k)) = k * unitsPerOne := by
    rw [f64, packSigned_mag false hmag]
    refine roundMag_exact Nat.one_pos (Nat.one_mul _).symm ?_ hlt
    rw [unitsPerOne_eq]
    exact two_pow_quantumExp_dvd hk
  have hone : ((unitsPerOne : ℕ) : ℚ) ≠ 0 := Nat.cast_ne_zero.2 unitsPerOne_pos.ne'
  refine ⟨packSigned_finite false hlt, hsign, ?_⟩
  rw [value_eq_signFactor, hsign, hunits, Nat.cast_mul, ← unitsPerOne_cast, signFactor, if_neg Bool.false_ne_true, one_mul,
    mul_div_cancel_right₀ _ hone]

/-- Settles O30. -/
theorem integersConvertExactly : Obligations.IntegersConvertExactly := fun _ hk => f64_exact (lt_of_le_of_lt hk (by decide))

/-! #### The envelope's fraction (R126) -/

/-- A positive normal pattern with fraction 0 is a power of two (R120). -/
theorem value_two_pow {v : F64} {e : Nat} (hsign : fSign v = false) (hexp : fExp v = e + 1) (hfrac : fFrac v = 0) :
    Spec.value v = 2 ^ ((e : ℤ) - 1022) := by
  rw [Spec.value, hsign, hexp, hfrac, if_neg (Nat.succ_ne_zero e), if_neg Bool.false_ne_true, one_mul, Nat.cast_zero, add_zero,
    ← zpow_natCast, ← zpow_add₀ two_ne_zero]
  congr 1
  push_cast
  ring

theorem value_fZero : Spec.value fZero = 0 := value_eq_zero_iff.2 (by decide)

theorem value_fOne : Spec.value fOne = 1 := by
  rw [value_two_pow (e := 1022) (by decide) (by decide) (by decide)]; norm_num

theorem value_fHalf : Spec.value fHalf = 1 / 2 := by
  rw [value_two_pow (e := 1021) (by decide) (by decide) (by decide)]; norm_num

/-- Rounding does not go below a binary64 number that is at most the exact value (R121). -/
theorem le_value_of_roundsTo {x : ℚ} {v y : F64} (h : Spec.RoundsTo x v) (hx : |x| ≤ 1) (hy : Spec.Finite y)
    (hyx : Spec.value y ≤ x) : Spec.value y ≤ Spec.value v := by
  rw [Spec.RoundsTo, if_neg (not_le.2 (hx.trans_lt one_lt_overflow_threshold))] at h
  obtain ⟨-, -, nearest, -⟩ := h
  by_contra hlt
  have hnear := nearest y hy
  rw [abs_of_nonpos (by linarith), abs_of_nonpos (by linarith)] at hnear
  linarith

/-- A quotient of equal magnitudes is rounded to exactly 1.0. -/
theorem roundMag_one {u : Nat} (hu : 0 < u) : roundMag (u * unitsPerOne) u = 1023 * 2 ^ 52 := by
  have hquantum : quantumExp unitsPerOne = 1022 := by rw [quantumExp, unitsPerOne_eq, Nat.log2_two_pow]
  have hsplit : u * unitsPerOne = u * 2 ^ 1022 * 2 ^ 52 := by rw [unitsPerOne_eq, Nat.mul_assoc, ← pow_add]
  rw [roundMag, Nat.mul_div_cancel_left _ hu, hquantum, hsplit,
    roundNearestEven_exact (Nat.mul_pos hu (Nat.two_pow_pos _))]
  decide

theorem fdiv_self {a : F64} (ha : Spec.Finite a) (hne : Spec.value a ≠ 0) : fdiv a a = fOne := by
  rw [fdiv_finite ha ha hne, roundMag_one (Nat.pos_of_ne_zero (mt value_eq_zero_iff.2 hne)), bne_self_eq_false]
  rfl

/-- Settles O31: the fraction is at least 2^-16, a binary64 number. -/
theorem envelopeFraction : Obligations.EnvelopeFraction := by
  intro i n hi hin hn
  obtain ⟨numFinite, -, numValue⟩ := f64_exact (k := i + 1) (by omega)
  obtain ⟨denFinite, -, denValue⟩ := f64_exact (k := n) (by omega)
  have hnq : (0 : ℚ) < n := Nat.cast_pos.2 (by omega)
  have rounds : Spec.RoundsTo (((i : ℚ) + 1) / n) (envFrac i n) := by
    have h := roundsTo_fdiv numFinite denFinite (denValue ▸ hnq.ne')
    rwa [numValue, denValue, Nat.cast_succ] at h
  refine ⟨rounds, ne_of_gt ?_, fun h => ?_⟩
  · have le_one : |((i : ℚ) + 1) / n| ≤ 1 := by
      rw [abs_of_nonneg (by positivity), div_le_one hnq]
      exact_mod_cast hin
    have lower : Spec.value 0x3EF0000000000000#64 = 1 / 65536 := by
      rw [value_two_pow (e := 1006) (by decide) (by decide) (by decide)]; norm_num
    have le_frac : (1 / 65536 : ℚ) ≤ ((i : ℚ) + 1) / n := by
      have hi' : (1 : ℚ) ≤ i := by exact_mod_cast hi
      have hn' : (n : ℚ) ≤ 131072 := by exact_mod_cast hn
      rw [le_div_iff₀ hnq]
      linarith
    have h := le_value_of_roundsTo rounds le_one (y := 0x3EF0000000000000#64) (by decide) (lower.trans_le le_frac)
    rw [lower] at h
    linarith
  · rw [envFrac, h]
    exact fdiv_self denFinite (denValue ▸ hnq.ne')

/-- Settles O32. -/
theorem envelopeUnfused : Obligations.EnvelopeUnfused := ⟨fun _ _ _ _ => rfl, by decide +kernel⟩

/-! #### The guard (R129) -/

theorem degenerate_iff_of_finite {v : F64} (hv : Spec.Finite v) :
    degenerate v = true ↔ Spec.value v ≤ 0 ∨ 1 ≤ Spec.value v := by
  rw [degenerate, Bool.or_eq_true, fle_finite_iff hv (by decide), fge_finite_iff hv (by decide), value_fZero, value_fOne]

theorem degenerate_inf {v : F64} {neg : Bool} (hv : Spec.IsInf v neg) : degenerate v = true := by
  obtain ⟨hle, -⟩ := compare_inf_finite hv (b := fZero) (by decide)
  obtain ⟨-, hge, -⟩ := compare_inf_finite hv (b := fOne) (by decide)
  rw [degenerate, hle, hge, Bool.or_not_self]

theorem degenerate_nan {v : F64} (hv : Spec.IsNaN v) : degenerate v = false := by
  rw [degenerate, fle_nan (.inl hv), fge_nan (.inl hv), Bool.or_self]

theorem guardValue_of_degenerate {v : F64} (h : degenerate v = true) : guardValue v = (fHalf, true) := if_pos h

theorem guardValue_of_not_degenerate {v : F64} (h : ¬ degenerate v = true) : guardValue v = (v, false) := if_neg h

theorem guardValue_nan {v : F64} (hv : Spec.IsNaN v) : guardValue v = (v, false) :=
  guardValue_of_not_degenerate (by simp [degenerate_nan hv])

/-- Settles O33. -/
theorem guardOnRealValues : Obligations.GuardOnRealValues := by
  refine ⟨fun v hv h => guardValue_of_degenerate ((degenerate_iff_of_finite hv).2 h),
    fun v neg hv => guardValue_of_degenerate (degenerate_inf hv), fun v hv hpos hlt => guardValue_of_not_degenerate ?_,
    fun v hv => guardValue_nan hv⟩
  rw [degenerate_iff_of_finite hv, not_or, not_le, not_le]
  exact ⟨hpos, hlt⟩

/-! #### The elements of a sequence (R128, R130 to R132) -/

/-- A finite number strictly between 0 and 1 (R132). -/
def InUnitInterval (v : F64) : Prop := Spec.Finite v ∧ 0 < Spec.value v ∧ Spec.value v < 1

theorem inUnitInterval_fHalf : InUnitInterval fHalf := by
  rw [InUnitInterval, value_fHalf]
  exact ⟨by decide, by norm_num, by norm_num⟩

/-- What the guard lets through of an operation's result: the canonical NaN or a number strictly between 0 and 1. -/
theorem guardValue_range {v : F64} (hv : IsResult v) : (guardValue v).1 = cnan ∨ InUnitInterval (guardValue v).1 := by
  by_cases h : degenerate v = true
  · rw [guardValue_of_degenerate h]; exact .inr inUnitInterval_fHalf
  · rw [guardValue_of_not_degenerate h]
    rcases pattern_kinds v with hfin | hinf | hnan
    · rw [degenerate_iff_of_finite hfin, not_or, not_le, not_le] at h
      exact .inr ⟨hfin, h⟩
    · exact absurd (degenerate_inf hinf) h
    · exact .inl (hv.eq_cnan hnan)

theorem nextElem_range (ps : Params) (n i : Nat) (s : F64) :
    (nextElem ps n i s).1 = cnan ∨ InUnitInterval (nextElem ps n i s).1 := guardValue_range (isResult_fmul _ _)

theorem isNaN_cnan : Spec.IsNaN cnan := by decide

/-- A NaN element is followed by the canonical NaN (R122, R132). -/
theorem nextElem_nan (ps : Params) (n i : Nat) {s : F64} (hs : Spec.IsNaN s) : (nextElem ps n i s).1 = cnan := by
  have hraw : rawValue s i n ps.r ps.p ps.q = cnan := by
    rw [rawValue, fmul_nan (.inr hs), fmul_nan (.inl isNaN_cnan), fmul_nan (.inl isNaN_cnan)]
  rw [nextElem, hraw, guardValue_nan isNaN_cnan]

/-- Once an element is a NaN, every later one is the canonical NaN. -/
theorem seqElem_nan {n : Nat} {ps : Params} {i : Nat} (h : Spec.IsNaN (seqElem n ps i)) (d : Nat) :
    seqElem n ps (i + d + 1) = cnan := by
  induction d with
  | zero => exact nextElem_nan ps n (i + 1) h
  | succ d ih => exact nextElem_nan ps n (i + d + 2) (ih ▸ isNaN_cnan)

/-- Settles O34. -/
theorem elementRange : Obligations.ElementRange := by
  intro n ps
  have range : ∀ i, 1 ≤ i → seqElem n ps i = cnan ∨ InUnitInterval (seqElem n ps i) := fun i hi => by
    obtain ⟨m, rfl⟩ := Nat.exists_eq_add_of_le' hi
    exact nextElem_range ps n (m + 1) _
  refine ⟨rfl, range, fun i j hi hij hnan => ?_⟩
  rcases hij.eq_or_lt with rfl | hlt
  · exact (range i hi).resolve_right fun h => h.1 hnan.1
  · obtain ⟨d, rfl⟩ := Nat.exists_eq_add_of_lt hlt
    exact seqElem_nan hnan d

theorem seqList_length (n : Nat) (ps : Params) : (seqList n ps).length = n := by
  rw [seqList, List.length_map, List.length_range]

theorem seqList_getElem? {n i : Nat} (ps : Params) (hi : i < n) : (seqList n ps)[i]? = some (seqElem n ps i) := by
  rw [seqList, List.getElem?_map, List.getElem?_range hi]
  rfl

/-- Settles O60. -/
theorem elementRecurrence : Obligations.ElementRecurrence := by
  refine ⟨fun _ => rfl, fun e k hk => if_neg (by omega), fun n ps =>
    ⟨seqList_length n ps, fun i => seqList_getElem? ps, rfl, fun i hi => ?_⟩, by decide +kernel⟩
  obtain ⟨m, rfl⟩ := Nat.exists_eq_add_of_le' hi
  rfl

end Sys2Proof.Machine
end

section
/-! PROOFS. Key bytes and DERIVE_KEY (41_key_derivation.md R160 to R169). -/

namespace Sys2Proof.Machine

/-! #### The acceptance and one step of DERIVE_KEY (R163, R164) -/

/-- Settles O15: the sequence is twice as long as the key, so it is empty exactly when the key is. -/
theorem deriveKeyCompletes : Obligations.DeriveKeyCompletes := by
  refine ⟨fun size hsize => encodeWord_toNat (i := .deriveKey size) (decide_eq_true hsize), fun s size idle fits => ?_,
    fun s size idle long => (exec_deriveKey_lenRange_iff idle size).2 long, fun s size run => ?_⟩
  · have empty_iff : 2 * size = 0 ↔ size = 0 := by omega
    rw [exec_deriveKey_idle idle fits, State.startKey, State.beginOperation, idle]
    simp only [empty_iff]
    rfl
  · rw [exec_eq_after, after, State.whenIdle_busy run]
    rfl

/-- Settles O18. -/
theorem keyStepEffect : Obligations.KeyStepEffect := by
  intro s rest run op next
  refine ⟨(s.withAgenda rest).keyStep, ?_, keyStep_warm (s.withAgenda rest),
    fun second => ⟨keyStep_new (s.withAgenda rest) second,
      fun off other => keyStep_old (s.withAgenda rest) off (.inr other)⟩,
    advanceEngine_flags _ _ _, ?_, rfl, rfl, rfl, rfl, rfl, rfl, rfl, rfl, rfl, rfl⟩
  · rw [step_engineTurn next.symm, State.engineTurn_key (s := s.withAgenda rest) run op]
  · rw [State.keyStep_eng, State.withAgenda_eng, State.withAgenda_prog, run]

/-! #### The result of DERIVE_KEY (R162, R166, R169) -/

theorem keyList_getElem? {size j : Nat} (ps : Params) (hj : j < size) :
    (keyList size ps)[j]? = some (keyByte (seqElem (2 * size) ps (size + j))) := by
  rw [keyList, List.getElem?_map, List.getElem?_range hj]
  rfl

/-- Settles O21. -/
theorem deriveKeyResult : Obligations.DeriveKeyResult := by
  intro s t u size k idle fits accepted finished
  obtain rfl := eq_startKey_of_exec idle fits accepted
  obtain ⟨bytes, others⟩ := finishesAt_startKey idle finished
  exact ⟨fun j hj => bytes j hj ▸ keyList_getElem? s.params hj, others, (finishesAt_count idle finished).2⟩

/-- Settles O23: both operations compute the sequence of length `2 * size`. -/
theorem keyIsOfItsSequence : Obligations.KeyIsOfItsSequence := by
  intro s s' t t' u u' size k k' idle idle' params fits fits' accepted accepted' finished finished' j hj
  obtain rfl := eq_startKey_of_exec idle fits accepted
  obtain rfl := eq_startGen_of_exec idle' fits' accepted'
  rw [(finishesAt_startKey idle finished).1 j hj, (finishesAt_startGen idle' finished').1 (size + j) (by omega), params]

/-! #### The key byte by the kind of the element and of its product (R160) -/

theorem keyByte_nan {v : F64} (hv : Spec.IsNaN v) : keyByte v = 0x00#8 := if_pos ((isNaN_iff v).2 hv)

theorem keyByte_inf {v : F64} {neg : Bool} (hprod : Spec.IsInf (fmul v f256) neg) : keyByte v = 0x00#8 := by
  rw [keyByte, classify_inf hprod, ite_self]

theorem keyByte_finite {v : F64} (hv : ¬ Spec.IsNaN v) (hprod : Spec.Finite (fmul v f256)) :
    keyByte v = floorByte (fSign (fmul v f256)) (unitsOfMag (magOf (fmul v f256))) := by
  rw [keyByte, classify_finite hprod, if_neg (mt (isNaN_iff v).1 hv)]

/-- The byte of a signed number of units is the floor of the number, modulo 256 (R160). -/
theorem floorByte_toNat (neg : Bool) (units : Nat) :
    ((floorByte neg units).toNat : ℤ) = signedUnits neg units / (unitsPerOne : ℤ) % 256 := by
  rw [floorByte, BitVec.toNat_ofInt]
  generalize signedUnits neg units / (unitsPerOne : ℤ) = floor
  omega

theorem floor_value (v : F64) :
    ⌊Spec.value v⌋ = signedUnits (fSign v) (unitsOfMag (magOf v)) / (unitsPerOne : ℤ) := by
  rw [value_eq, ← unitsPerOne_cast, Rat.floor_intCast_div_natCast]

/-- The byte of a finite product is its floor, modulo 256 (R160). -/
theorem keyByte_toNat {v : F64} (hv : ¬ Spec.IsNaN v) (hprod : Spec.Finite (fmul v f256)) :
    ((keyByte v).toNat : ℤ) = ⌊Spec.value (fmul v f256)⌋ % 256 := by
  rw [keyByte_finite hv hprod, floorByte_toNat, floor_value]

/-- Settles O35. -/
theorem keyByteRule : Obligations.KeyByteRule := ⟨fun _ => keyByte_nan, fun _ _ => keyByte_inf, fun _ => keyByte_toNat⟩

/-! #### Exactness in (0, 1) (R161) -/

theorem value_f256 : Spec.value f256 = 256 := by
  rw [value_two_pow (e := 1030) (by decide) (by decide) (by decide)]; norm_num

theorem unitsOfMag_f256 : unitsOfMag (magOf f256) = unitsPerOne * 2 ^ 8 := by decide +kernel

/-- Eight more bits of magnitude coarsen the spacing by at most eight. -/
theorem quantumExp_mul_256_le (u : Nat) : quantumExp (u * 2 ^ 8) ≤ quantumExp u + 8 := by
  rcases Nat.eq_zero_or_pos u with rfl | hu
  · decide
  · have hlog : (u * 2 ^ 8).log2 < u.log2 + 9 := by
      rw [Nat.log2_lt (by omega), show u.log2 + 9 = u.log2 + 1 + 8 by omega, pow_add _ (u.log2 + 1)]
      exact Nat.mul_lt_mul_of_pos_right Nat.lt_log2_self (by decide)
    unfold quantumExp
    omega

/-- A number with a pattern stays a multiple of its own spacing when scaled by 256. -/
theorem unitsOfMag_mul_256_dvd (m : Nat) : 2 ^ quantumExp (unitsOfMag m * 2 ^ 8) ∣ unitsOfMag m * 2 ^ 8 :=
  calc 2 ^ quantumExp (unitsOfMag m * 2 ^ 8) ∣ 2 ^ (quantumExp (unitsOfMag m) + 8) := pow_dvd_pow 2 (quantumExp_mul_256_le _)
    _ = 2 ^ quantumExp (unitsOfMag m) * 2 ^ 8 := pow_add _ _ _
    _ ∣ unitsOfMag m * 2 ^ 8 := Nat.mul_dvd_mul_right (unitsOfMag_dvd m) _

theorem fmul_f256 {v : F64} (hv : Spec.Finite v) :
    fmul v f256 = packSigned (fSign v) (roundMag (unitsPerOne * (unitsOfMag (magOf v) * 2 ^ 8)) unitsPerOne) := by
  have hsign : fSign f256 = false := by decide
  rw [fmul_finite hv (by decide), unitsOfMag_f256, hsign, Bool.bne_false, Nat.mul_left_comm]

/-- Scaling by 256 keeps the significand: it is exact unless it overflows, for subnormal operands too (R161). -/
theorem value_fmul_f256 {v : F64} (hv : Spec.Finite v) (hprod : Spec.Finite (fmul v f256)) :
    Spec.value (fmul v f256) = Spec.value v * 256 := by
  rw [fmul_f256 hv] at hprod ⊢
  have hlt := lt_of_le_of_ne (roundMag_le _ _) fun h => hprod (h ▸ (packSigned_inf (fSign v)).1)
  have hmag := hlt.trans (show infMag < 2 ^ 63 by decide)
  rw [value_eq_signFactor, value_eq_signFactor v, packSigned_sign _ hmag, packSigned_mag _ hmag,
    roundMag_exact unitsPerOne_pos rfl (unitsOfMag_mul_256_dvd _) hlt, Nat.cast_mul, ← mul_assoc, mul_div_right_comm]
  norm_num

theorem f256_lt_overflow_threshold : (256 : ℚ) < 2 ^ 1024 - 2 ^ 970 :=
  calc (256 : ℚ) < 2 ^ 54 - 1 := by norm_num
    _ ≤ (2 ^ 54 - 1) * 2 ^ 970 := le_mul_of_one_le_right (by norm_num) (one_le_pow₀ one_le_two)
    _ = 2 ^ 1024 - 2 ^ 970 := by rw [sub_mul, one_mul, ← pow_add]

/-- A product of a number in (0, 1) with 256.0 is below 256, far from overflow (R161). -/
theorem InUnitInterval.finite_fmul_f256 {v : F64} (h : InUnitInterval v) : Spec.Finite (fmul v f256) := by
  obtain ⟨hv, hpos, hlt⟩ := h
  have small : |Spec.value v * 256| < 2 ^ 1024 - 2 ^ 970 := by
    rw [abs_of_pos (by linarith)]
    exact lt_trans (by linarith) f256_lt_overflow_threshold
  have rounds := roundsTo_fmul hv (b := f256) (by decide)
  rw [value_f256, Spec.RoundsTo, if_neg (not_le.2 small)] at rounds
  exact rounds.1

/-- Settles O36. -/
theorem keyByteExact : Obligations.KeyByteExact := by
  intro v hv hpos hlt
  have hprod := InUnitInterval.finite_fmul_f256 ⟨hv, hpos, hlt⟩
  have hvalue := value_fmul_f256 hv hprod
  have hbyte : ((keyByte v).toNat : ℤ) = ⌊Spec.value v * 256⌋ := by
    have lower : 0 ≤ ⌊Spec.value v * 256⌋ := Int.floor_nonneg.2 (by linarith)
    have upper : ⌊Spec.value v * 256⌋ < 256 := Int.floor_lt.2 (by push_cast; linarith)
    rw [keyByte_toNat (fun hnan => hv hnan.1) hprod, hvalue, Int.emod_eq_of_lt lower upper]
  refine ⟨hprod, hvalue, fun b _ => ?_⟩
  rw [← Nat.cast_inj (R := ℤ), hbyte, Int.floor_eq_iff, Int.cast_natCast, div_le_iff₀ (by norm_num),
    lt_div_iff₀ (by norm_num)]

end Sys2Proof.Machine
end

section
/-! PROOFS. The control commands NOP, CLR_STATUS and SOFT_RESET, and the buffers across SOFT_RESET (30_encoding.md R95;
42_control_commands.md R190 to R193). -/

namespace Sys2Proof.Machine

/-! #### The buffers across SOFT_RESET (R193) -/

/-- An entry whose eight bytes are those of a value is the value (R38, R64). -/
theorem State.seqEntry_eq_of_bytes {s : State} {k : Nat} {v : F64}
    (h : ∀ j < 8, s.bufByte (seqAddr k + j) = byteOf v j) : s.seqEntry k = v := by
  rw [State.seqEntry, ← leValue_bytesOf v, bytesOf]
  exact congrArg leValue (List.map_congr_left fun j hj => h j (List.mem_range.1 hj))

/-- A byte of entry `k` once a running GEN is abandoned: of the new value or as before the operation (R193). -/
theorem read_settleBuffers_gen {s : State} (run : s.eng.phase = .run) (op : s.eng.op = .gen) {k j : Nat} (hk : k < s.eng.n)
    (hj : j < 8) :
    s.settleBuffers.read (seqAddr k + j) =
      if Config.abandonedTakesNew s.abandons k then some (byteOf (seqElem s.eng.n s.eng.lat k) j)
      else Memory.read s.memBefore (seqAddr k + j) := by
  have start := seqAddr_eq k
  have stop := seqAddr_eq s.eng.n
  have entry : (seqAddr k + j - seqAddr 0) / 8 = k := by omega
  rw [State.settleBuffers_gen run op, read_settleSeq_range, if_pos (by omega), entry, read_settleSeq, if_pos (by omega),
    Nat.add_sub_cancel_left]

/-- Byte `k` once a running KEY is abandoned: the new value or as before the operation (R193). -/
theorem read_settleBuffers_key {s : State} (run : s.eng.phase = .run) (op : s.eng.op = .key) {k : Nat}
    (hk : k < s.eng.size) :
    s.settleBuffers.read (keyAddr k) =
      if Config.abandonedTakesNew s.abandons k then some (keyByte (seqElem s.eng.n s.eng.lat (s.eng.size + k)))
      else Memory.read s.memBefore (keyAddr k) := by
  have start := keyAddr_eq k
  have stop := keyAddr_eq s.eng.size
  have entry : keyAddr k - keyAddr 0 = k := by omega
  rw [State.settleBuffers_key run op, read_settleKey_range, if_pos (by omega), entry, read_settleKey, if_pos rfl]

/-- A byte where SOFT_RESET leaves the buffers as the operation found them. -/
theorem softReset_bufByte_before {s : State} {off : Nat} (h : s.settleBuffers.read off = Memory.read s.memBefore off) :
    s.softReset.bufByte off = s.bufByteBefore off := by
  rw [State.bufByte, State.softReset_mem, h]; rfl

/-- A byte that SOFT_RESET does not touch. -/
theorem softReset_bufByte_same {s : State} {off : Nat} (h : s.settleBuffers.read off = Memory.read s.mem off) :
    s.softReset.bufByte off = s.bufByte off := by
  rw [State.bufByte, State.softReset_mem, h]; rfl

/-- A byte to which SOFT_RESET gives a new value. -/
theorem softReset_bufByte_new {s : State} {off : Nat} {b : Byte} (h : s.settleBuffers.read off = some b) :
    s.softReset.bufByte off = b := by
  rw [State.bufByte, State.softReset_mem, h]; rfl

/-- An entry of an abandoned GEN's output range is old in all its bytes or new (R193). -/
theorem softReset_seqEntry_cases {s : State} (run : s.eng.phase = .run) (op : s.eng.op = .gen) {k : Nat}
    (hk : k < s.eng.n) :
    (∀ j < 8, s.softReset.bufByte (seqAddr k + j) = s.bufByteBefore (seqAddr k + j)) ∨
      s.softReset.seqEntry k = seqElem s.eng.n s.eng.lat k := by
  by_cases new : Config.abandonedTakesNew s.abandons k = true
  · refine .inr (State.seqEntry_eq_of_bytes fun j hj => softReset_bufByte_new ?_)
    rw [read_settleBuffers_gen run op hk hj, if_pos new]
  · refine .inl fun j hj => softReset_bufByte_before ?_
    rw [read_settleBuffers_gen run op hk hj, if_neg new]

/-- A byte of an abandoned KEY's output range is old or new (R193). -/
theorem softReset_keyByteAt_cases {s : State} (run : s.eng.phase = .run) (op : s.eng.op = .key) {k : Nat}
    (hk : k < s.eng.size) :
    s.softReset.keyByteAt k = s.bufByteBefore (keyAddr k) ∨
      s.softReset.keyByteAt k = keyByte (seqElem s.eng.n s.eng.lat (s.eng.size + k)) := by
  by_cases new : Config.abandonedTakesNew s.abandons k = true
  · refine .inr (softReset_bufByte_new ?_)
    rw [read_settleBuffers_key run op hk, if_pos new]
  · refine .inl (softReset_bufByte_before ?_)
    rw [read_settleBuffers_key run op hk, if_neg new]

/-- Settles O13: entry by entry (byte by byte) old or new inside the output range, untouched outside. -/
theorem softResetBuffers : Obligations.SoftResetBuffers := by
  intro s t h
  obtain rfl : s.softReset = t := by simpa [exec_eq_after, after] using h
  refine ⟨fun idle off => softReset_bufByte_same (by rw [State.settleBuffers_idle idle]),
    fun run op => ⟨fun k => softReset_seqEntry_cases run op, fun off outside => softReset_bufByte_same ?_⟩,
    fun run op => ⟨fun k => softReset_keyByteAt_cases run op, fun off outside => softReset_bufByte_same ?_⟩⟩
  · rw [State.settleBuffers_gen run op, read_settleSeq_range, if_neg outside]
  · rw [State.settleBuffers_key run op, read_settleKey_range, if_neg outside]

/-! #### Where each control command completes (R190 to R192) -/

/-- The word of a control command with LEN != 0 is no command (R93, R95). -/
theorem acceptWord_reservedLen {word : Word} (hopc : word.toNat % 256 = 0 ∨ word.toNat % 256 = 3 ∨ word.toNat % 256 = 4)
    (hlen : word.toNat / 256 ≠ 0) (s : State) : acceptWord word s = .next s.rejectWord := by
  obtain ⟨e, dec⟩ := (undecodableWords word).2 (.inr ⟨hopc, hlen⟩)
  rw [acceptWord, dec]

theorem rejectWord_idle {s : State} (idle : s.eng.phase = .idle) : s.rejectWord = Spec.raise .illegalCmd s :=
  State.whenIdle_idle idle _

theorem rejectWord_busy {s : State} (run : s.eng.phase = .run) : s.rejectWord = Spec.raise .busyWrite s :=
  State.whenIdle_busy run _

/-- While busy every command but SOFT_RESET raises BUSY_WRITE and does nothing else (R95). -/
theorem exec_busy {i : Instr} (hi : i ≠ .softReset) {s : State} (run : s.eng.phase = .run) :
    exec i s = .next (Spec.raise .busyWrite s) := by
  cases i with
  | softReset => exact absurd rfl hi
  | nop | genSeq | deriveKey | clrStatus => rw [exec_eq_after, after, State.whenIdle_busy run]; rfl

/-- With the sticky status cleared the interrupt output is 0, whatever is enabled (R42). -/
theorem irq_of_clear {s : State} (h : s.status = Status.clear) : s.irq = false := by
  simp [State.irq, h, Status.clear]

/-- STATUS reads 0 after SOFT_RESET: idle and nothing set (R26 to R32, R192). -/
theorem softReset_statusWord (s : State) : s.softReset.statusWord = 0x00000000#32 := by
  rw [State.statusWord, irq_of_clear s.softReset_status, s.softReset_status,
    s.softReset.busy_eq_false_iff.2 rfl]
  rfl

/-- Settles O10: a word with LEN != 0 is no command. -/
theorem nopCompletes : Obligations.NopCompletes :=
  ⟨rfl, fun _ idle => congrArg _ (State.whenIdle_idle idle _), fun _ => exec_busy (i := .nop) nofun,
    fun s _ idle hopc hlen => by rw [acceptWord_reservedLen (.inl hopc) hlen, rejectWord_idle idle]⟩

/-- Settles O11: as for NOP, with the sticky status cleared instead. -/
theorem clrStatusCompletes : Obligations.ClrStatusCompletes :=
  ⟨rfl, fun s idle => ⟨congrArg _ (State.whenIdle_idle idle _), irq_of_clear rfl⟩,
    fun _ => exec_busy (i := .clrStatus) nofun,
    fun s _ idle hopc hlen => by rw [acceptWord_reservedLen (.inr (.inl hopc)) hlen, rejectWord_idle idle]⟩

/-- Settles O12: SOFT_RESET is taken in every state, and its word with LEN != 0 is rejected as any other. -/
theorem softResetCompletes : Obligations.SoftResetCompletes := by
  refine ⟨rfl, fun s => ⟨s.softReset, rfl, rfl, rfl, softReset_statusWord s, irq_of_clear rfl, rfl, rfl, rfl, rfl, rfl⟩,
    fun s word hopc hlen => ?_⟩
  rw [acceptWord_reservedLen (.inr (.inr hopc)) hlen]
  cases hp : s.eng.phase with
  | run => rw [rejectWord_busy hp, if_pos rfl]
  | idle => rw [rejectWord_idle hp, if_neg nofun]

end Sys2Proof.Machine
end

section
/-! PROOFS. What a running operation drops, what an invalid access answers, and the idle engine (20_memory.md R63, R67;
60_exceptions.md R214, R215; 70_reset_and_hazards.md R230, R241). -/

namespace Sys2Proof.Machine

/-! #### Writes while BUSY (R214) -/

/-- The step of a CMD write, whatever the data bits above its width (R60, R90). -/
theorem step_writeCmd {s : State} {rest : List Event} {data : BitVec 64} (h : s.agenda = .write 0x00010 .w4 data :: rest) :
    step s = .next ((Spec.accept (data.extractLsb' 0 32) (s.withAgenda rest)).respondWrite .okay) := by
  rw [step_cons h, handle_write (by decide), State.memWrite, validRow_cmd]
  simp only [State.writeRegion, acceptWord_eq_accept, withWriteResponse]

/-- While busy every word but that of SOFT_RESET with LEN = 0 raises BUSY_WRITE and does nothing else (R95, R214). -/
theorem accept_busy {s : State} {word : Word} (run : s.eng.phase = .run) (hword : word.toNat ≠ 4) :
    Spec.accept word s = Spec.raise .busyWrite s := by
  rw [Spec.accept, if_neg (by omega), if_pos run]

/-- The aligned 4- and 8-byte accesses from 0x20 to 0x40 are those of the parameter registers' entries (R63). -/
theorem exists_paramEntry {off : Nat} {w : Width} (lo : 0x20 ≤ off) (hi : off < 0x40)
    (aligned : (w = .w8 ∧ off % 8 = 0) ∨ (w = .w4 ∧ off % 4 = 0)) :
    ∃ which : ParamReg, EntryAccess which.row.base off w := by
  obtain ⟨which, hbase⟩ := (ParamReg.exists_base_iff (base := off / 8 * 8)).2 (by omega)
  exact ⟨which, hbase ▸ entryAccess_of_aligned (by omega) (by omega) (by omega) aligned⟩

/-- A running engine's turn advances PROG and keeps ERR, and the last one ends the operation with DONE (R135, R165, R214). -/
theorem State.engineTurn_progress {s : State} (run : s.eng.phase = .run) :
    s.engineTurn.prog = s.prog + 1 ∧ s.engineTurn.status.err = s.status.err ∧
      (s.prog + 1 = s.eng.n → s.engineTurn.busy = false ∧ s.engineTurn.status.done = true) := by
  obtain ⟨m, e⟩ := State.engineTurn_running run
  rw [e]
  refine ⟨rfl, rfl, fun hlast => ⟨(State.busy_eq_false_iff _).2 ?_, ?_⟩⟩ <;> simp [hlast]

/-- Settles O9, event by event. -/
theorem busyWritesDropped : Obligations.BusyWritesDropped := by
  intro s rest run
  refine ⟨fun data h hdata => ?_, fun off w data h lo hi aligned => ?_,
    fun data h => ⟨_, step_writeCtrl h, rfl, rfl, rfl⟩,
    fun h => ⟨_, step_engineTurn (.inr h), State.engineTurn_progress (s := s.withAgenda rest) run⟩⟩
  · have hword : (data.extractLsb' 0 32).toNat ≠ 4 := by simpa [BitVec.extractLsb'] using hdata
    rw [step_writeCmd h, accept_busy (s := s.withAgenda rest) run hword]
    rfl
  · obtain ⟨which, entry⟩ := exists_paramEntry lo hi aligned
    exact step_writeParam_busy run h entry

/-! #### Invalid accesses (R215) -/

/-- What the access table does not allow falls in no row of the map (R63). -/
theorem validRow_eq_none {sd kd off : Nat} {w : Width} {dir : Dir} (hsd : sd ≤ 8192)
    (invalid : ¬ Spec.ValidAccess sd kd off w dir) : validRow sd kd off w dir = none :=
  Option.eq_none_iff_forall_ne_some.2 fun _ h => invalid (validAccess_of_validRow hsd h)

/-- Settles O38. -/
theorem invalidAccess : Obligations.InvalidAccess := by
  intro s rest off w hsd _ hoff
  refine ⟨fun h invalid => ?_, fun data h invalid => ?_⟩
  · rw [step_read h hoff, State.readAnswer, validRow_eq_none hsd invalid, Option.elim_none]
  · have hrow : validRow (s.withAgenda rest).seqDepth (s.withAgenda rest).keyDepth off w .write = none :=
      validRow_eq_none hsd invalid
    rw [step_cons h, handle_write hoff, State.memWrite, hrow]
    rfl

/-! #### The idle engine (R230, R241) -/

/-- Settles O19: the engine's turn, whichever way it comes, is nothing while idle. -/
theorem idleEngineWaits : Obligations.IdleEngineWaits := by
  intro s idle
  refine ⟨fun h => ?_, fun rest h => ?_⟩
  · rw [step_nil h, State.engineTurn_idle idle]
  · rw [step_engineTurn (.inr h), State.engineTurn_idle (s := s.withAgenda rest) idle]
    rfl

end Sys2Proof.Machine
end

section
/-! PROOFS. The state after reset (70_reset_and_hazards.md R240 to R242). -/

namespace Sys2Proof.Machine

/-! #### What an idle machine with a clear status shows -/

/-- With nothing set and the engine idle STATUS reads 0 (R26 to R32). -/
theorem statusWord_of_clear_idle {s : State} (clear : s.status = Status.clear) (idle : s.eng.phase = .idle) :
    s.statusWord = 0#32 := by
  rw [State.statusWord, irq_of_clear clear, s.busy_eq_false_iff.2 idle, clear]
  rfl

theorem ctrlWord_of_zero {s : State} (h : s.ctrl = Ctrl.zero) : s.ctrlWord = 0#32 := by
  rw [State.ctrlWord, h]
  rfl

/-- A buffer byte nothing has written reads as the draw of the latest hardware reset (R38, R39; log 5). -/
theorem State.bufByte_of_unwritten {s : State} (h : s.mem = []) (off : Nat) :
    s.bufByte off = Config.bufferPowerUp s.bufEpoch off := by
  rw [State.bufByte, h, Memory.read_nil, Option.getD_none]

theorem State.hardReset_statusWord (s : State) : s.hardReset.statusWord = 0#32 :=
  statusWord_of_clear_idle s.hardReset_status rfl

theorem step_hardReset {s : State} {rest : List Event} (h : s.agenda = .hardReset :: rest) :
    step s = .next (s.withAgenda rest).hardReset := step_cons h

/-- Settles O55: the reset state and the reset input by the same facts about a clear, idle, unwritten machine; the reset
input abandons whatever was running (R240). -/
theorem hardwareReset : Obligations.HardwareReset := by
  constructor
  · have clear : State.reset.status = Status.clear := rfl
    have idle : State.reset.eng.phase = .idle := rfl
    exact ⟨ctrlWord_of_zero rfl, statusWord_of_clear_idle clear idle, irq_of_clear clear, rfl, rfl, idle, rfl, rfl,
      State.bufByte_of_unwritten rfl, (idleEngineWaits _ idle).1 rfl, fun rest => (idRegister _ rest).1 rfl⟩
  · intro s rest h
    exact ⟨(s.withAgenda rest).hardReset, step_hardReset h, ctrlWord_of_zero rfl, State.hardReset_statusWord _,
      irq_of_clear rfl, rfl, rfl, rfl, rfl, rfl, State.bufByte_of_unwritten rfl, rfl⟩

/-! #### SOFT_RESET against hardware reset (R242) -/

/-- Settles O56: both write every register its reset value, so each derived word agrees too. -/
theorem softResetMatchesHardReset : Obligations.SoftResetMatchesHardReset := by
  intro s t h
  obtain rfl : s.softReset = t := by simpa [exec_eq_after, after] using h
  have word : s.softReset.statusWord = s.hardReset.statusWord := by
    rw [softReset_statusWord, s.hardReset_statusWord]
  have irq : s.softReset.irq = s.hardReset.irq := by
    rw [irq_of_clear s.softReset_status, irq_of_clear s.hardReset_status]
  exact ⟨rfl, rfl, rfl, rfl, rfl, rfl, rfl, word, irq⟩

/-! #### The reset state is safe -/

/-- The parameters are legal whatever the instance chose (R7, R22, R23; log 4). -/
theorem State.reset_depths :
    1 ≤ State.reset.seqDepth ∧ State.reset.seqDepth ≤ 8192 ∧ 1 ≤ State.reset.keyDepth ∧ State.reset.keyDepth ≤ 65536 :=
  ⟨Nat.le_add_left _ _, Config.seqDepthIndex.isLt, Nat.le_add_left _ _, Config.keyDepthIndex.isLt⟩

/-- An idle machine of legal depths with nothing written and PROG 0 is safe. -/
theorem State.Inv.of_unwritten_idle {s : State}
    (depths : 1 ≤ s.seqDepth ∧ s.seqDepth ≤ 8192 ∧ 1 ≤ s.keyDepth ∧ s.keyDepth ≤ 65536) (mem : s.mem = [])
    (memBefore : s.memBefore = []) (prog : s.prog = 0) (idle : s.eng.phase = .idle) : s.Inv where
  depths := depths
  mem_wf := by rw [mem]; exact .nil
  memBefore_wf := by rw [memBefore]; exact .nil
  mem_inBuffers := by simp [mem]
  memBefore_inBuffers := by simp [memBefore]
  prog_le := by rw [prog]; exact Nat.zero_le _
  running run := by simp [idle] at run
  gen_fits run := by simp [idle] at run
  key_fits run := by simp [idle] at run

/-- Settles O57: at reset nothing is written and nothing runs. -/
theorem resetIsSafe : Obligations.ResetIsSafe :=
  ⟨.of_unwritten_idle State.reset_depths rfl rfl rfl rfl, .of_idle rfl⟩

end Sys2Proof.Machine
end
